-- ==== Sys2Proof/Word.lean ====
section
/-! DEFINITION. The word types of the block: 32-bit command and response words, bytes, the 10-bit frame (00_scope R12, R14). -/

namespace Sys2Proof

/-- A command or response word, or a diagnostic counter: 32 bits (R14, R90, R97). -/
abbrev Word := BitVec 32

/-- A byte: 8 bits (R14). -/
abbrev Byte := BitVec 8

/-- The shift register of the bit serializer: 10 bits (R14, R29). -/
abbrev Frame := BitVec 10

/-- The identifier of an internal event: 4 bits (R98). -/
abbrev EventId := BitVec 4

end Sys2Proof
end

