-- ==== Sys2Proof/Syntax.lean ====
section
/-! DEFINITION. The block's instructions: the nine host commands (30_encoding R93) and the nine internal events (30_encoding R98), one constructor per row of the opcode table. -/

namespace Sys2Proof

/-- A host command (R93) or an event of the block's own step (R98). -/
inductive Instr where
  /-- `CONFIG baud`; the operand is `zext_32(cmd[23:0])` (R92, R121; log 17). -/
  | config (baud : Word)
  /-- `TXPUT b` (R182). -/
  | txput (b : Byte)
  /-- `RXGET` (R185). -/
  | rxget
  /-- `RXCOUNT` (R184). -/
  | rxcount
  /-- `RDCNT TX` (R186). -/
  | rdcntTx
  /-- `RDCNT RX` (R186). -/
  | rdcntRx
  /-- `RDCNT EDGE` (R186). -/
  | rdcntEdge
  /-- `CLRCNT` (R187). -/
  | clrcnt
  /-- `RDSTAT` (R188). -/
  | rdstat
  /-- `TICK` (R127). -/
  | tick
  /-- `TX_SHIFT` (R143). -/
  | txShift
  /-- `TX_LOAD` (R144). -/
  | txLoad
  /-- `TX_IDLE` (R145). -/
  | txIdle
  /-- `RX_EDGE` (R162). -/
  | rxEdge
  /-- `RX_SAMPLE` (R163). -/
  | rxSample
  /-- `RX_DONE` (R164). -/
  | rxDone
  /-- `KICK` (R141). -/
  | kick
  /-- `EDGE_LATCH` (R161). -/
  | edgeLatch
  deriving DecidableEq, Repr

end Sys2Proof
end

