-- ==== Sys2Proof/WellFormed.lean ====
section
/-! DEFINITION. Well-formed instructions: the operand ranges of 30_encoding R92. -/

namespace Sys2Proof

/-- The operand of `CONFIG` is a value in `[0, 2^24 - 1]` (R92); every other operand is bounded by its type. -/
def Instr.wellFormed : Instr → Bool
  | .config baud => decide (baud.toNat < 2 ^ 24)
  | .txput _ => true
  | .rxget => true
  | .rxcount => true
  | .rdcntTx => true
  | .rdcntRx => true
  | .rdcntEdge => true
  | .clrcnt => true
  | .rdstat => true
  | .tick => true
  | .txShift => true
  | .txLoad => true
  | .txIdle => true
  | .rxEdge => true
  | .rxSample => true
  | .rxDone => true
  | .kick => true
  | .edgeLatch => true

end Sys2Proof
end

