-- ==== Sys2Proof/Decode.lean ====
section
/-! DEFINITION. Decoding of command words and event identifiers, the encoder, and the opcode map as rows of mask and match (30_encoding R90 to R98). -/

namespace Sys2Proof

/-- Why a word is no instruction. -/
inductive DecodeError where
  /-- `OP` is 0x0 or 0x8 to 0xF (R95). -/
  | reservedOp (op : BitVec 4)
  /-- `SEL` is not a value the command has (R91, R94). -/
  | reservedSel (op sel : BitVec 4)
  /-- `ARG` has a bit set that the command fixes to 0 (R91, R94). -/
  | reservedArg (op : BitVec 4) (arg : BitVec 24)
  /-- An event identifier 0x9 to 0xF (R98). -/
  | unusedEvent (id : EventId)
  deriving DecidableEq, Repr

/-- An encoded instruction: a word of the host port (format CMD, R90) or an event identifier (format EVT, R98). -/
inductive Code where
  | cmd (w : Word)
  | evt (id : EventId)
  deriving DecidableEq, Repr

/-- `OP = cmd[31:28]` (R91). -/
def opField (w : Word) : BitVec 4 := w.extractLsb' 28 4

/-- `SEL = cmd[27:24]` (R91). -/
def selField (w : Word) : BitVec 4 := w.extractLsb' 24 4

/-- `ARG = cmd[23:0]` (R91). -/
def argField (w : Word) : BitVec 24 := w.extractLsb' 0 24

/-- The three fields put together, `OP` highest (R90). -/
def packCmd (op sel : BitVec 4) (arg : BitVec 24) : Word :=
  (op.zeroExtend 32 <<< 28) ||| (sel.zeroExtend 32 <<< 24) ||| arg.zeroExtend 32

/-- A command that takes no operand: `SEL` and `ARG` must be 0 (R91). -/
def decodePlain (w : Word) (i : Instr) : Except DecodeError Instr :=
  if selField w ≠ 0 then .error (.reservedSel (opField w) (selField w))
  else if argField w ≠ 0 then .error (.reservedArg (opField w) (argField w))
  else .ok i

/-- `CONFIG`: `SEL` must be 0 and `ARG` is the baud (R91, R92). -/
def decodeConfig (w : Word) : Except DecodeError Instr :=
  if selField w ≠ 0 then .error (.reservedSel (opField w) (selField w))
  else .ok (.config ((argField w).zeroExtend 32))

/-- `TXPUT`: `SEL` and `ARG[23:8]` must be 0 and `ARG[7:0]` is the byte (R91, R92). -/
def decodeTxput (w : Word) : Except DecodeError Instr :=
  if selField w ≠ 0 then .error (.reservedSel (opField w) (selField w))
  else if (argField w).extractLsb' 8 16 ≠ 0 then .error (.reservedArg (opField w) (argField w))
  else .ok (.txput ((argField w).extractLsb' 0 8))

/-- `RDCNT`: `SEL` chooses the counter and `ARG` must be 0 (R91, R92). -/
def decodeRdcnt (w : Word) : Except DecodeError Instr :=
  if 2 < selField w then .error (.reservedSel (opField w) (selField w))
  else if argField w ≠ 0 then .error (.reservedArg (opField w) (argField w))
  else if selField w = 0 then .ok .rdcntTx
  else if selField w = 1 then .ok .rdcntRx
  else .ok .rdcntEdge

/-- The command a word of the host port encodes (R93), or why it encodes none (R94, R95). -/
def decodeCmd (w : Word) : Except DecodeError Instr :=
  if opField w = 0x1 then decodeConfig w
  else if opField w = 0x2 then decodeTxput w
  else if opField w = 0x3 then decodePlain w .rxget
  else if opField w = 0x4 then decodePlain w .rxcount
  else if opField w = 0x5 then decodeRdcnt w
  else if opField w = 0x6 then decodePlain w .clrcnt
  else if opField w = 0x7 then decodePlain w .rdstat
  else .error (.reservedOp (opField w))

/-- The event an identifier names (R98). -/
def decodeEvt (id : EventId) : Except DecodeError Instr :=
  if id = 0x0 then .ok .tick
  else if id = 0x1 then .ok .txShift
  else if id = 0x2 then .ok .txLoad
  else if id = 0x3 then .ok .txIdle
  else if id = 0x4 then .ok .rxEdge
  else if id = 0x5 then .ok .rxSample
  else if id = 0x6 then .ok .rxDone
  else if id = 0x7 then .ok .kick
  else if id = 0x8 then .ok .edgeLatch
  else .error (.unusedEvent id)

/-- Decoding of either format. -/
def decode : Code → Except DecodeError Instr
  | .cmd w => decodeCmd w
  | .evt id => decodeEvt id

/-- The word a `TXPUT` of this byte is (R99). -/
def txputWord (b : Byte) : Word := packCmd 0x2 0 (b.zeroExtend 24)

/-- The encoding of an instruction (R93, R98, R99). -/
def encode : Instr → Code
  | .config baud => .cmd (packCmd 0x1 0 (baud.extractLsb' 0 24))
  | .txput b => .cmd (txputWord b)
  | .rxget => .cmd (packCmd 0x3 0 0)
  | .rxcount => .cmd (packCmd 0x4 0 0)
  | .rdcntTx => .cmd (packCmd 0x5 0 0)
  | .rdcntRx => .cmd (packCmd 0x5 1 0)
  | .rdcntEdge => .cmd (packCmd 0x5 2 0)
  | .clrcnt => .cmd (packCmd 0x6 0 0)
  | .rdstat => .cmd (packCmd 0x7 0 0)
  | .tick => .evt 0x0
  | .txShift => .evt 0x1
  | .txLoad => .evt 0x2
  | .txIdle => .evt 0x3
  | .rxEdge => .evt 0x4
  | .rxSample => .evt 0x5
  | .rxDone => .evt 0x6
  | .kick => .evt 0x7
  | .edgeLatch => .evt 0x8

/-- The mnemonic of an instruction's row in the opcode table. -/
def mnemonic : Instr → String
  | .config _ => "CONFIG"
  | .txput _ => "TXPUT"
  | .rxget => "RXGET"
  | .rxcount => "RXCOUNT"
  | .rdcntTx => "RDCNT_TX"
  | .rdcntRx => "RDCNT_RX"
  | .rdcntEdge => "RDCNT_EDGE"
  | .clrcnt => "CLRCNT"
  | .rdstat => "RDSTAT"
  | .tick => "TICK"
  | .txShift => "TX_SHIFT"
  | .txLoad => "TX_LOAD"
  | .txIdle => "TX_IDLE"
  | .rxEdge => "RX_EDGE"
  | .rxSample => "RX_SAMPLE"
  | .rxDone => "RX_DONE"
  | .kick => "KICK"
  | .edgeLatch => "EDGE_LATCH"

/-- A row of the opcode map: a word selects the command when `(cmd & mask) = match` (R93). -/
structure CmdRow where
  mnemonic : String
  pattern : Word
  mask : Word
  deriving DecidableEq, Repr

/-- The opcode map of R93, row by row. -/
def cmdRows : List CmdRow :=
  [ ⟨"CONFIG", 0x10000000, 0xFF000000⟩,
    ⟨"TXPUT", 0x20000000, 0xFFFFFF00⟩,
    ⟨"RXGET", 0x30000000, 0xFFFFFFFF⟩,
    ⟨"RXCOUNT", 0x40000000, 0xFFFFFFFF⟩,
    ⟨"RDCNT_TX", 0x50000000, 0xFFFFFFFF⟩,
    ⟨"RDCNT_RX", 0x51000000, 0xFFFFFFFF⟩,
    ⟨"RDCNT_EDGE", 0x52000000, 0xFFFFFFFF⟩,
    ⟨"CLRCNT", 0x60000000, 0xFFFFFFFF⟩,
    ⟨"RDSTAT", 0x70000000, 0xFFFFFFFF⟩ ]

/-- A word selects a row (R93). -/
def CmdRow.selects (r : CmdRow) (w : Word) : Bool := (w &&& r.mask) == r.pattern

/-- The host's question about a table row: an event identifier where the row has fewer than 32 bits (its low four bits,
R98's mask), else a word of the host port (R70: a word is never split into bytes). The two formats
are told apart by the port they arrive at (log 19). -/
def decodeTableWord (nbits w : Nat) : Option Instr :=
  (if nbits < 32 then decodeEvt (BitVec.ofNat 4 w) else decodeCmd (BitVec.ofNat 32 w)).toOption

end Sys2Proof
end

