-- ==== Sys2Proof/Config.lean ====
section
/-! DEFINITION. The implementation parameters (00_scope R10) and the free values: which agent moves next, what the Host offers, what level the Line supplies (00_scope R8, R9; 93 U12), and the two values the spec does not state. -/

namespace Sys2Proof

/-- The parameters of R10 that are open or chosen by the spec. `CNT_W = 32` and `BAUD_W = 24` have one value
and are widths of types. They are plain data in `State`, so a statement over all states is a statement over all
parameters. -/
structure Params where
  /-- `N_TX`: TX FIFO slots. -/
  nTx : Nat
  /-- `N_RX`: RX FIFO slots. -/
  nRx : Nat
  /-- `TW`: width of the timer, the compare registers and `ticksPerBit`. -/
  tw : Nat
  /-- `TICK_RATE`: timer ticks per second. -/
  tickRate : Nat
  /-- `RX_COUNT_DROPS`: whether `rxCount` counts bytes dropped on a full RX FIFO. -/
  rxCountDrops : Bool
  deriving DecidableEq, Repr

/-- The legal values of R10. -/
abbrev Params.Legal (p : Params) : Prop :=
  2 ≤ p.nTx ∧ 2 ≤ p.nRx ∧ 2 ≤ p.tw ∧ 1 ≤ p.tickRate

/-- The values `State.reset` takes. DESIGN CHOICE (log 1), unsafe for a claim about `State.reset` alone:
`N_TX`, `N_RX` and `TICK_RATE` are OPEN in R10; 64 is the source's example, 38400 is 95_test_vectors' value. `TW = 16` and
`RX_COUNT_DROPS = true` are the spec's own. -/
def Params.default : Params :=
  { nTx := 64, nRx := 64, tw := 16, tickRate := 38400, rxCountDrops := true }

/-- What a Host that is in the middle of nothing begins (R8, R101). -/
inductive Offer where
  /-- One command. -/
  | word (w : Word)
  /-- `READSNAP` (R191). -/
  | readsnap
  /-- `REPORTSTATS` (R192). -/
  | reportstats
  deriving DecidableEq, Repr, Inhabited

/-- Which agent moves next where no script says so (R8, R9). -/
inductive Turn where
  /-- The Host moves: it begins this, or, in the middle of something, goes on with that. -/
  | host (o : Offer)
  /-- The Tick agent makes one tick. -/
  | tick
  /-- One clock with `rst = 1` (R240). -/
  | reset
  deriving DecidableEq, Repr, Inhabited

/-- FREE VALUE (log 4). The n-th unscripted turn: steps interleave in any order (R9) and the Host may offer any word. -/
opaque Config.freeTurn : Nat → Turn

/-- FREE VALUE (log 3). The level the Line agent supplies at the n-th unscripted draw (R8, 93 U12: "any value"). -/
opaque Config.freeLevel : Nat → Bool

/-- FREE VALUE (log 21). What `RXCOUNT` responds for a count that 32 bits do not hold: R10 bounds `N_RX` from below only, and
`zext_32` (R12) says nothing of such a count (R97, R184). -/
opaque Config.wideCount : Nat → Word

/-- FREE VALUE (log 22). The text host software makes from the three counters: its format is not in the spec (R192, 93 U21). -/
opaque Config.reportText (tx rx edge : Word) : List Byte

end Sys2Proof
end

