-- ==== Sys2Proof/Machine/State.lean ====
section
/-! DEFINITION. The state of the block (10_state R20), its ports (R22), the environment that says which agent moves next, the model's stops, and reset (R43). -/

namespace Sys2Proof.Machine

/-- The TX engine's state (R28, R140). -/
inductive TxState where
  /-- TX compare channel disarmed. -/
  | idle
  /-- TX compare channel armed. -/
  | framing
  deriving DecidableEq, Repr

/-- The RX engine's state (R32, R160). -/
inductive RxState where
  /-- Edge detector armed once configured, RX compare channel disarmed. -/
  | idle
  /-- Edge detector disarmed, RX compare channel armed. -/
  | sampling
  deriving DecidableEq, Repr

/-- The two ring buffers (R2, R38). -/
inductive FifoId where
  | tx
  | rx
  deriving DecidableEq, Repr

/-- FIFO storage: pairs of a slot and its byte, slots strictly rising, no entry equal to what an unlisted slot reads as
(`Memory.wf` in `Machine/Ops.lean`). -/
abbrev Memory := List Host.Cell

/-- A ring buffer: storage and two indices (R38, R61). An index is a number below the slot count (R14; log 2). -/
structure Fifo where
  mem : Memory
  head : Nat
  tail : Nat
  deriving DecidableEq, Repr

/-- A fault of R212 with the `info` a model records. -/
inductive Raised where
  /-- Code 1: the accepted word matches no row of R93. -/
  | illegalCommand (w : Word)
  /-- Code 2: `TXPUT` before `CONFIG`. -/
  | notConfigured (b : Byte)
  /-- Code 3: `CONFIG` on a configured block. -/
  | reconfigure (baud : Word)
  /-- Code 4: `CONFIG` with a baud of no legal divisor. -/
  | badBaud (baud : Word)
  deriving DecidableEq, Repr

/-- What the Line agent supplies on `rx_in` (R8, R100). -/
inductive LineMode where
  /-- A free level at each tick (93 U12). -/
  | free
  /-- `LINE IDLE`: constant 1. -/
  | idle
  /-- `LINE LOOPBACK`: `tx_out` as it stands just before the tick, 1 while it is not driven (D29). -/
  | loopback
  /-- `LINE <level sequence>`: these levels, then one that goes on, or free ones (log 3). -/
  | levels (ls : List Bool) (goesOn : Option Bool)
  deriving DecidableEq, Repr

/-- An item of a test program (R99, R100). -/
inductive Item where
  /-- The Host offers this word next. -/
  | cmd (w : Word)
  /-- `WAIT n`: exactly `n` ticks. -/
  | wait (n : Nat)
  /-- `LINE …`. -/
  | line (m : LineMode)
  /-- `READSNAP` (R101, R191). -/
  | readsnap
  /-- `REPORTSTATS` (R101, R192). -/
  | reportstats
  /-- One clock with `rst = 1` (R240). -/
  | reset
  deriving DecidableEq, Repr

/-- Where host software stands in a pseudo-instruction whose commands depend on responses (R101): the command it offers next,
with what it has been told so far (log 22). -/
inductive Job where
  /-- `READSNAP`: `RXCOUNT` is next (R191). -/
  | snapCount
  /-- `READSNAP`: an `RXGET` is next, and `more` follow it; `got` are the bytes read (R191). -/
  | snapGet (got : List Byte) (more : Nat)
  /-- `REPORTSTATS`: `RDCNT TX` is next (R192). -/
  | reportTx
  /-- `REPORTSTATS`: `RDCNT RX` is next. -/
  | reportRx (tx : Word)
  /-- `REPORTSTATS`: `RDCNT EDGE` is next. -/
  | reportEdge (tx rx : Word)
  /-- A `TXPUT` of `b` is next, then one for each byte of `rest` (R190, R192). -/
  | send (b : Byte) (rest : List Byte)
  deriving DecidableEq, Repr

/-- What a `READSNAP` leaves in host memory (R191). -/
structure Snapshot where
  /-- The bytes read, then the null terminator. -/
  buffer : List Byte
  /-- What it returns: `n > 0`. -/
  any : Bool
  deriving DecidableEq, Repr

/-- What drives the block from outside: the model's own fields, not the spec's state (log 3, 4, 5, 22). -/
structure Env where
  /-- The rest of the test program; where it is empty the turns are free. -/
  agenda : List Item
  /-- What the Line agent supplies. -/
  line : LineMode
  /-- How many free values have been drawn. -/
  draws : Nat
  /-- An event a trace asks to dispatch by its identifier (R98); nothing in the machine sets it. -/
  event : Option EventId
  /-- What the Host last began came from the test program. -/
  program : Bool
  /-- The pseudo-instruction the Host is in the middle of. -/
  job : Option Job
  /-- What the last `READSNAP` left. -/
  snap : Option Snapshot
  deriving DecidableEq, Repr

/-- The block's state, its ports and its environment. A `TW`-bit value is a number that every write takes modulo `2^TW`, since
`TW` is a parameter (log 2). -/
@[ext]
structure State where
  /-- The parameters (R10). -/
  params : Params
  /-- R23. -/
  configured : Bool
  /-- R24: a `TW`-bit value. -/
  ticksPerBit : Nat
  /-- R25: a `TW`-bit value. -/
  timer : Nat
  /-- R26: a `TW`-bit value. -/
  txCmp : Nat
  /-- R27: a `TW`-bit value. -/
  rxCmp : Nat
  /-- R28. -/
  txState : TxState
  /-- R29. -/
  frame : Frame
  /-- R30. -/
  bitsRemaining : BitVec 4
  /-- R31: the level the TX engine drives, true for high. -/
  txLine : Bool
  /-- R31: the output enable. -/
  txOE : Bool
  /-- R32. -/
  rxState : RxState
  /-- R33. -/
  accumulator : Byte
  /-- R34. -/
  bitsSampled : BitVec 4
  /-- R35: the level at the previous tick. -/
  rxPrev : Bool
  /-- R36: the pending-edge flag. -/
  edgeFlag : Bool
  /-- R37. -/
  rxPullEn : Bool
  /-- R38: `mem_TX`, `head_TX`, `tail_TX`. -/
  txFifo : Fifo
  /-- R38: `mem_RX`, `head_RX`, `tail_RX`. -/
  rxFifo : Fifo
  /-- R39: bytes transmitted. -/
  txCount : Word
  /-- R39: bytes received. -/
  rxCount : Word
  /-- R39: start-edge events. -/
  edgeCount : Word
  /-- R40: the sticky fault record. -/
  fault : BitVec 3
  /-- Port `rx_in` (R22): the level supplied to the current tick. -/
  rxIn : Bool
  /-- Ports `rsp_valid` and `rsp_word` (R22, R97): the response this step gave (log 10). -/
  rsp : Option Word
  /-- The fault this step raised, with its `info` (R211, R212; log 11). -/
  raised : Option Raised
  /-- The offered word that is held: `cmd_valid = 1` and `cmd_ready = 0` (R181, R221; log 7). -/
  held : Option Word
  /-- The environment. -/
  env : Env
  deriving DecidableEq, Repr

/-- Why the model stops with a fault. -/
inductive Fault where
  /-- Raised by `memRead` and `memWrite` for a slot outside `[0, N)`, which does not exist (R63). Safe: no state with its
  indices in range (R14) reaches it. -/
  | slotOutOfRange (q : FifoId) (slot : Nat)
  deriving DecidableEq, Repr

/-- Why the model gives a step no meaning. -/
inductive Refusal where
  /-- Raised by an arm of `exec` that has no meaning yet. Safe: nothing can be proved of such a step. -/
  | notModelled (mnemonic : String)
  /-- Raised by `step` when a trace asks for an identifier 0x9 to 0xF, which never happens (R98). Safe: no step of the block
  asks for one. -/
  | unusedEvent (id : EventId)
  deriving DecidableEq, Repr

/-- An empty ring buffer (R38). Its unspecified storage lists nothing (log 8). -/
def Fifo.empty : Fifo := { mem := [], head := 0, tail := 0 }

/-- Nothing scripted. `draws = 0` is a DESIGN CHOICE (log 4) that no statement rests on. -/
def Env.free : Env :=
  { agenda := [], line := .free, draws := 0, event := none, program := false, job := none, snap := none }

/-- The state after reset (R43), for any parameters. `rxIn = true` is a DESIGN CHOICE (log 3): a tick writes it before
anything reads it. -/
def State.resetWith (p : Params) : State :=
  { params := p
    configured := false
    ticksPerBit := 0
    timer := 0
    txCmp := 0
    rxCmp := 0
    txState := .idle
    frame := 0
    bitsRemaining := 0
    txLine := true
    txOE := false
    rxState := .idle
    accumulator := 0
    bitsSampled := 0
    rxPrev := true
    edgeFlag := false
    rxPullEn := false
    txFifo := .empty
    rxFifo := .empty
    txCount := 0
    rxCount := 0
    edgeCount := 0
    fault := 0
    rxIn := true
    rsp := none
    raised := none
    held := none
    env := .free }

/-- The machine right after reset (R43, R242) with the default parameters (log 1). -/
def State.reset : State := State.resetWith Params.default

end Sys2Proof.Machine
end

