-- ==== Sys2Proof/Machine/Operands.lean ====
section
/-! DEFINITION. How operands, frames, responses and the FIFO named by `TX` or `RX` are put together (00_scope R12, R13; 30_encoding R92, R97). -/

namespace Sys2Proof.Machine

/-- `{0, …, 0, b}`: a one-bit value widened to a word (`zext_32`, R12). -/
def zextBit (b : Bool) : Word := if b then 1 else 0

/-- `v mod 2^TW`: what a `TW`-bit register keeps of `v` (R12, R25 to R27). -/
def wrap (p : Params) (v : Nat) : Nat := v % 2 ^ p.tw

/-- How many ticks from a counter value until the counter equals a register (R128, R131). -/
def ticksUntil (p : Params) (timer cmp : Nat) : Nat := (cmp + 2 ^ p.tw - timer) % 2 ^ p.tw

/-- `N_q` (R38). -/
def slots (s : State) : FifoId → Nat
  | .tx => s.params.nTx
  | .rx => s.params.nRx

/-- The ring buffer `q` names. -/
def fifo (s : State) : FifoId → Fifo
  | .tx => s.txFifo
  | .rx => s.rxFifo

/-- Write the ring buffer `q` names. -/
def setFifo (q : FifoId) (f : Fifo) (s : State) : State :=
  match q with
  | .tx => { s with txFifo := f }
  | .rx => { s with rxFifo := f }

/-- The 10-bit frame of a byte: start bit 0 in bit 0, the byte in bits 8 to 1, stop bit 1 in bit 9 (R144; 90_conflicts C1). -/
def buildFrame (b : Byte) : Frame := (b.zeroExtend 10 <<< 1) ||| 0x200

/-- The level a frame bit drives: 1 is high (R143). -/
def lineBit (f : Frame) : Bool := f.getLsbD 0

/-- One data bit into the accumulator: shift right, the new bit at bit 7 (R163). -/
def shiftIn (acc : Byte) (level : Bool) : Byte :=
  (acc >>> 1) ||| (if level then 0x80 else 0)

/-- The 1.5-bit-period delay, the half bit rounded down (R130). -/
def firstSampleDelay (tpb : Nat) : Nat := tpb + tpb / 2

/-- The response of `RXGET`: `{23'b0, valid, byte}` when a byte was removed, else 0 (R97, R185). -/
def rxgetResponse (valid : Bool) (b : Byte) : Word :=
  if valid then 0x100 ||| b.zeroExtend 32 else 0

/-- The response of `RXCOUNT`: `zext_32` of the count (R97, R184), and a free value for a count that does not fit (DESIGN CHOICE,
log 21: the spec states none). -/
def countResponse (n : Nat) : Word :=
  if n < 2 ^ 32 then BitVec.ofNat 32 n else Config.wideCount n

/-- The divisor `TICK_RATE div baud` (R122). -/
def divisor (p : Params) (baud : Word) : Nat := p.tickRate / baud.toNat

/-- The bauds `CONFIG` faults on: zero, a zero divisor, or a divisor whose 1.5 bit periods do not fit `TW` bits (R123). -/
def badBaud (p : Params) (baud : Word) : Bool :=
  decide (baud = 0 ∨ divisor p baud = 0 ∨ 2 ^ p.tw - 1 < firstSampleDelay (divisor p baud))

end Sys2Proof.Machine
end

