-- ==== Sys2Proof/Machine/Flags.lean ====
section
/-! DEFINITION. The derived predicates (10_state R41), the status word (43_host_api R188), the fault codes (60_exceptions R212) and the output ports (10_state R22, R44). -/

namespace Sys2Proof.Machine

/-- `Full(q)`: `(head_q + 1) mod N_q = tail_q` (R41). -/
def full (q : FifoId) (s : State) : Bool :=
  ((fifo s q).head + 1) % slots s q == (fifo s q).tail

/-- `Empty(q)`: `head_q = tail_q` (R41). -/
def empty (q : FifoId) (s : State) : Bool :=
  (fifo s q).head == (fifo s q).tail

/-- `txArmed` (R41). -/
def txArmed (s : State) : Bool := s.txState == .framing

/-- `rxArmed` (R41). -/
def rxArmed (s : State) : Bool := s.rxState == .sampling

/-- `edgeArmed` (R41). -/
def edgeArmed (s : State) : Bool := s.configured && s.rxState == .idle

/-- The TX compare event fires (R128, R142): armed, and the counter equals the compare register. -/
def txMatch (s : State) : Bool := txArmed s && s.timer == s.txCmp

/-- The RX compare event fires (R128, R163). -/
def rxMatch (s : State) : Bool := rxArmed s && s.timer == s.rxCmp

/-- A falling edge that is latched (R161): configured, high at the previous tick and low at this one. -/
def fallingEdge (level : Bool) (s : State) : Bool := s.configured && s.rxPrev && !level

/-- The RX edge event fires (R162): armed and pending. -/
def edgeTaken (s : State) : Bool := edgeArmed s && s.edgeFlag

/-- The status word of `RDSTAT` (R188). -/
def status (s : State) : Word :=
  zextBit s.configured
    ||| (zextBit (full .tx s) <<< 1)
    ||| (zextBit (s.txState == .idle) <<< 2)
    ||| (zextBit (empty .rx s) <<< 3)
    ||| (zextBit (rxArmed s) <<< 4)
    ||| (zextBit s.txLine <<< 5)
    ||| (s.fault.zeroExtend 32 <<< 8)

/-- The code of a fault (R212). -/
def faultCode : Raised → BitVec 3
  | .illegalCommand _ => 1
  | .notConfigured _ => 2
  | .reconfigure _ => 3
  | .badBaud _ => 4

/-- Port `tx_oe` (R22). -/
def txOePort (s : State) : Bool := s.txOE

/-- Port `tx_out` as the Line agent sees it: no level while the pin is not driven (R44, 93 U11; log 13). -/
def txOutPort (s : State) : Option Bool := if s.txOE then some s.txLine else none

/-- The level of a loop-back wire: `tx_out` just before the tick, 1 while it is not driven (D29). -/
def loopLevel (s : State) : Bool := if s.txOE then s.txLine else true

/-- Port `rx_pu` (R22). -/
def rxPuPort (s : State) : Bool := s.rxPullEn

/-- Port `rsp_valid` (R22). -/
def rspValidPort (s : State) : Bool := s.rsp.isSome

/-- The command a word encodes would be held: a `TXPUT` on a configured block whose TX FIFO is full (R96, R181). -/
def holds (w : Word) (s : State) : Bool :=
  match decodeCmd w with
  | .ok (.txput _) => s.configured && full .tx s
  | _ => false

end Sys2Proof.Machine
end

