-- ==== Sys2Proof/Machine/Ops.lean ====
section
/-! DEFINITION. The named operations: FIFO storage, the ring-buffer primitives (20_memory R63 to R66), raising a fault (60_exceptions R211), responding and holding (00_scope R13). -/

namespace Sys2Proof.Machine

/-- A step that has a next state, or the fault of an operation under it. -/
def toOutcome : Except Fault State → Host.Outcome State Fault Refusal
  | .ok s => .next s
  | .error f => .fault f

/-- One step after another: the second starts in the next state of the first. -/
def andThen (o : Host.Outcome State Fault Refusal) (k : State → Host.Outcome State Fault Refusal) :
    Host.Outcome State Fault Refusal :=
  match o with
  | .next s => k s
  | .fault f => .fault f
  | .refused r => .refused r

/-! ## FIFO storage -/

/-- What a slot that nothing has written reads as. DESIGN CHOICE (log 8), unsafe: R43 leaves it unspecified (93 U8: "any
value"), and R81 says no rule reads it. -/
def unwrittenByte : Byte := 0

/-- The byte a storage holds in a slot. -/
def Memory.read : Memory → Nat → Byte
  | [], _ => unwrittenByte
  | (k, v) :: rest, i => if i = k then v else Memory.read rest i

/-- An entry, unless it equals what an unlisted slot reads as. -/
def Memory.entry (i : Nat) (b : Byte) (rest : Memory) : Memory :=
  if b = unwrittenByte then rest else (i, b) :: rest

/-- Set a slot, keeping the canonical form. -/
def Memory.write : Memory → Nat → Byte → Memory
  | [], i, b => Memory.entry i b []
  | (k, v) :: rest, i, b =>
    if i < k then Memory.entry i b ((k, v) :: rest)
    else if i = k then Memory.entry i b rest
    else (k, v) :: Memory.write rest i b

/-- The slots from `lo` on are strictly rising and no entry is what an unlisted slot reads as. -/
def Memory.wfFrom : Nat → Memory → Bool
  | _, [] => true
  | lo, (k, v) :: rest => decide (lo ≤ k) && decide (v ≠ unwrittenByte) && Memory.wfFrom (k + 1) rest

/-- The canonical form. -/
def Memory.wf (m : Memory) : Bool := Memory.wfFrom 0 m

/-- Every listed slot is below `n`. -/
def Memory.below (n : Nat) : Memory → Bool
  | [] => true
  | (k, _) :: rest => decide (k < n) && Memory.below n rest

/-- `MemRead(q, i)` (R63). -/
def memRead (q : FifoId) (i : Nat) (s : State) : Except Fault Byte :=
  if i < slots s q then .ok (Memory.read (fifo s q).mem i) else .error (.slotOutOfRange q i)

/-- `MemWrite(q, i, b)` (R63). -/
def memWrite (q : FifoId) (i : Nat) (b : Byte) (s : State) : Except Fault State :=
  if i < slots s q then
    .ok (setFifo q { fifo s q with mem := Memory.write (fifo s q).mem i b } s)
  else .error (.slotOutOfRange q i)

/-! ## The ring-buffer primitives -/

/-- Advance `head_q` (R64). -/
def advanceHead (q : FifoId) (s : State) : State :=
  setFifo q { fifo s q with head := ((fifo s q).head + 1) % slots s q } s

/-- Advance `tail_q` (R65). -/
def advanceTail (q : FifoId) (s : State) : State :=
  setFifo q { fifo s q with tail := ((fifo s q).tail + 1) % slots s q } s

/-- `FifoPut(q, b)` (R64): whether the byte was stored, and the state after. -/
def fifoPut (q : FifoId) (b : Byte) (s : State) : Except Fault (Bool × State) :=
  if full q s then .ok (false, s)
  else
    match memWrite q (fifo s q).head b s with
    | .error f => .error f
    | .ok s' => .ok (true, advanceHead q s')

/-- `FifoGet(q)` (R65): whether there was a byte, the byte (0 where there was none), and the state after. -/
def fifoGet (q : FifoId) (s : State) : Except Fault (Bool × Byte × State) :=
  if empty q s then .ok (false, 0, s)
  else
    match memRead q (fifo s q).tail s with
    | .error f => .error f
    | .ok b => .ok (true, b, advanceTail q s)

/-- `FifoCount(q)` (R66). -/
def fifoCount (q : FifoId) (s : State) : Nat :=
  ((fifo s q).head + slots s q - (fifo s q).tail) % slots s q

/-- The bytes a ring buffer holds, the oldest first (R65, R76). -/
def contents (q : FifoId) (s : State) : List Byte :=
  (List.range (fifoCount q s)).map fun k =>
    Memory.read (fifo s q).mem (((fifo s q).tail + k) % slots s q)

/-! ## Responses, holds and faults -/

/-- `respond(w)` (R13, R97). -/
def respond (w : Word) (s : State) : State := { s with rsp := some w }

/-- `hold` (R13, R181): the offered word stays offered and nothing else changes. -/
def hold (w : Word) (s : State) : State := { s with held := some w }

/-- Put a level on `rx_in` (R13, R22). -/
def driveRx (level : Bool) (s : State) : State := { s with rxIn := level }

/-- `raise F(info)` (R211): the first fault is kept, the response is 0, and nothing else changes. -/
def raise (r : Raised) (s : State) : State :=
  { s with
    fault := if s.fault = 0 then faultCode r else s.fault
    raised := some r
    rsp := some 0 }

end Sys2Proof.Machine
end

