-- ==== Sys2Proof/Machine/Agents.lean ====
section
/-! DEFINITION. The agents (00_scope R8, R9): which of Host, Tick and reset moves next, the word the Host offers and what it does with the response (30_encoding R100, R101, 43_host_api R180, R181, R191, R192), and the level the Line supplies. -/

namespace Sys2Proof.Machine

/-- What the next step does. -/
inductive Fetched where
  /-- Run this instruction: an accepted command, a tick, or an event a trace names. -/
  | run (i : Instr)
  /-- The accepted word matches no row of R93. -/
  | illegal (w : Word)
  /-- A trace names an identifier that never happens (R98). -/
  | unused (id : EventId)
  /-- One clock with `rst = 1` (R240). -/
  | reset
  /-- A `LINE` or `WAIT 0` directive: the block does not move (R100). -/
  | directive
  deriving DecidableEq, Repr

/-- A response is valid for one clock after acceptance, and a raised fault is reported by its own step (R97, R211; log 10, 11). -/
def clearPorts (s : State) : State := { s with rsp := none, raised := none }

/-- Change the rest of the test program. -/
def setAgenda (items : List Item) (s : State) : State := { s with env := { s.env with agenda := items } }

/-- Change what the Line agent supplies. -/
def setLine (m : LineMode) (s : State) : State := { s with env := { s.env with line := m } }

/-- One more free value has been drawn. -/
def countDraw (s : State) : State := { s with env := { s.env with draws := s.env.draws + 1 } }

/-- Ask for an event by its identifier (R98). -/
def setEvent (e : Option EventId) (s : State) : State := { s with env := { s.env with event := e } }

/-- Where the Host stands: whether the test program has it move, and the pseudo-instruction it is in the middle of. -/
def setHost (program : Bool) (job : Option Job) (s : State) : State :=
  { s with env := { s.env with program := program, job := job } }

/-- Change the pseudo-instruction the Host is in the middle of. -/
def setJob (job : Option Job) (s : State) : State := { s with env := { s.env with job := job } }

/-- A `READSNAP` is over: the bytes read, a null terminator, and whether there was a byte (R191). -/
def endSnap (got : List Byte) (s : State) : State :=
  { s with env := { s.env with job := none, snap := some { buffer := got ++ [0], any := decide (got ≠ []) } } }

/-- The word is held no more. -/
def release (s : State) : State := { s with held := none }

/-- The Line agent supplies the level of this tick (R8, R100), with no synchroniser before it (D17; log 20). -/
def supplyLevel (s : State) : State :=
  match s.env.line with
  | .free => driveRx (Config.freeLevel s.env.draws) (countDraw s)
  | .idle => driveRx true s
  | .loopback => driveRx (loopLevel s) s
  | .levels [] none => driveRx (Config.freeLevel s.env.draws) (countDraw s)
  | .levels [] (some l) => driveRx l s
  | .levels (l :: ls) goesOn => driveRx l (setLine (.levels ls goesOn) s)

/-- The Tick agent moves. -/
def tickTurn (s : State) : Fetched × State := (.run .tick, supplyLevel s)

/-- The Host moves: the offered word is decoded first (R96). -/
def offer (w : Word) (s : State) : Fetched × State :=
  match decodeCmd w with
  | .ok i => (.run i, s)
  | .error _ => (.illegal w, s)

/-! ## Pseudo-instructions -/

/-- The word of the command that is next in a pseudo-instruction (R191, R192). -/
def jobWord : Job → Word
  | .snapCount => 0x40000000
  | .snapGet _ _ => 0x30000000
  | .reportTx => 0x50000000
  | .reportRx _ => 0x51000000
  | .reportEdge _ _ => 0x52000000
  | .send b _ => txputWord b

/-- One `TXPUT` for each byte, in order, with no terminator (R190). -/
def sendJob : List Byte → Option Job
  | [] => none
  | b :: rest => some (.send b rest)

/-- The count of a `READSNAP`: that many `RXGET`s follow (R191). -/
def countHeard : Nat → State → State
  | 0, s => endSnap [] s
  | n + 1, s => setJob (some (.snapGet [] n)) s

/-- A byte of a `READSNAP` (R191). -/
def byteHeard (got : List Byte) : Nat → State → State
  | 0, s => endSnap got s
  | more + 1, s => setJob (some (.snapGet got more)) s

/-- What host software does with the response to the command of its pseudo-instruction (R191, R192). -/
def respondedTo (j : Job) (w : Word) (s : State) : State :=
  match j with
  | .snapCount => countHeard w.toNat s
  | .snapGet got more => byteHeard (got ++ [w.setWidth 8]) more s
  | .reportTx => setJob (some (.reportRx w)) s
  | .reportRx tx => setJob (some (.reportEdge tx w)) s
  | .reportEdge tx rx => setJob (sendJob (Config.reportText tx rx w)) s
  | .send _ rest => setJob (sendJob rest) s

/-- The Host waits for its response (R180): a step that gives none, a tick or a hold, leaves it where it is. -/
def listen (j : Job) (s : State) : State :=
  match s.rsp with
  | none => s
  | some w => respondedTo j w s

/-- A step, and after it the Host that is in the middle of a pseudo-instruction. -/
def hear (job : Option Job) (o : Host.Outcome State Fault Refusal) : Host.Outcome State Fault Refusal :=
  match job with
  | none => o
  | some j => andThen o fun s => .next (listen j s)

/-! ## Turns -/

/-- The Host begins something new. -/
def begin (program : Bool) (o : Offer) (s : State) : Fetched × State :=
  match o with
  | .word w => offer w (setHost program none s)
  | .readsnap => offer (jobWord .snapCount) (setHost program (some .snapCount) s)
  | .reportstats => offer (jobWord .reportTx) (setHost program (some .reportTx) s)

/-- The Host tries its held word: while the hold lasts the Host has no step, so the Tick agent moves (R181). -/
def retry (w : Word) (s : State) : Fetched × State :=
  if holds w s then tickTurn s else offer w (release s)

/-- A turn no script fixes (R9), with what a moving Host does. -/
def freeTurn (host : Offer → State → Fetched × State) (s : State) : Fetched × State :=
  match Config.freeTurn s.env.draws with
  | .host o => host o (countDraw s)
  | .tick => tickTurn (countDraw s)
  | .reset => (.reset, countDraw s)

/-- A test program has the Host in hand: it issued what the Host is in the middle of, or its next item waits for that
(R100). -/
def scripted (s : State) : Bool := s.env.program || !s.env.agenda.isEmpty

/-- The next turn when the Host is in the middle of nothing (R100). -/
def nextTurn (s : State) : Fetched × State :=
  match s.env.agenda with
  | [] => freeTurn (begin false) s
  | .cmd w :: rest => begin true (.word w) (setAgenda rest s)
  | .wait 0 :: rest => (.directive, setAgenda rest s)
  | .wait (n + 1) :: rest => tickTurn (setAgenda (.wait n :: rest) s)
  | .line m :: rest => (.directive, setLine m (setAgenda rest s))
  | .readsnap :: rest => begin true .readsnap (setAgenda rest s)
  | .reportstats :: rest => begin true .reportstats (setAgenda rest s)
  | .reset :: rest => (.reset, setAgenda rest s)

/-- The next turn in the middle of a pseudo-instruction: between two commands of a test program no tick happens (R100); any
agent may move otherwise, and a moving Host can only go on with it (R180, R191). -/
def jobTurn (j : Job) (s : State) : Fetched × State :=
  if scripted s then offer (jobWord j) s else freeTurn (fun _ => offer (jobWord j)) s

/-- The next turn when the Host holds a word. Inside a test program ticks happen one at a time until the hold is lifted, the
word is accepted right after, and those ticks count toward no `WAIT` (R100); any agent may move otherwise, and a moving Host can
only try its word (R180, R181). A reset clock may fall within a hold (log 12). -/
def heldTurn (w : Word) (s : State) : Fetched × State :=
  match s.env.agenda with
  | .reset :: rest => (.reset, setAgenda rest s)
  | _ => if scripted s then retry w s else freeTurn (fun _ => retry w) s

/-- The events that read `rx_level` (R127, R161, R163). -/
def readsLine : Instr → Bool
  | .tick => true
  | .edgeLatch => true
  | .rxSample => true
  | _ => false

/-- An event a trace names (R98), with a level for those that read one. -/
def eventTurn (id : EventId) (s : State) : Fetched × State :=
  match decodeEvt id with
  | .ok i => (.run i, if readsLine i then supplyLevel s else s)
  | .error _ => (.unused id, s)

/-- What the next step does, and the state it does it in. -/
def fetch (s : State) : Fetched × State :=
  match s.env.event with
  | some id => eventTurn id (setEvent none (clearPorts s))
  | none =>
    match s.held with
    | some w => heldTurn w (clearPorts s)
    | none =>
      match s.env.job with
      | some j => jobTurn j (clearPorts s)
      | none => nextTurn (clearPorts s)

/-- Port `rst`: the next step is a clock with `rst = 1` (R22, R240). -/
def rstPort (s : State) : Bool := decide ((fetch s).1 = .reset)

/-- Port `cmd_ready` while this word is offered: 0 when it is held (R22, R181) and while `rst = 1` (R240). -/
def cmdReadyPort (w : Word) (s : State) : Bool := !rstPort s && !holds w s

/-- One clock with `rst = 1`: every piece of the block's state takes its reset value and no command or tick is taken (R240). What
is outside the block (its parameters, the level on `rx_in`, the word the Host offers, the environment) stays (log 12). -/
def resetBlock (s : State) : State :=
  { State.resetWith s.params with rxIn := s.rxIn, held := s.held, env := s.env }

/-- Do what was fetched, running an instruction by `run`. -/
def perform (run : Instr → State → Host.Outcome State Fault Refusal) :
    Fetched × State → Host.Outcome State Fault Refusal
  | (.run i, s) => hear s.env.job (run i s)
  | (.illegal w, s) => .next (raise (.illegalCommand w) s)
  | (.unused id, _) => .refused (.unusedEvent id)
  | (.reset, s) => .next (resetBlock s)
  | (.directive, s) => .next s

/-- Place a table row's instruction where the next step takes it: an event identifier at the event port, a command word at the head
of the agenda of a Host that is in the middle of nothing (log 4, 5). -/
def place (nbits w : Nat) (s : State) : State :=
  if nbits < 32 then setEvent (some (BitVec.ofNat 4 w)) s
  else setEvent none (release (setJob none (setAgenda (.cmd (BitVec.ofNat 32 w) :: s.env.agenda) s)))

end Sys2Proof.Machine
end

