-- ==== Sys2Proof/Machine/Receive.lean ====
section
/-! DEFINITION. The receive engine: the start-edge detector, the edge event and sampling (42_receive R161 to R164). -/

namespace Sys2Proof.Machine

/-- The falling-edge detector (R161). -/
def edgeLatch (level : Bool) (s : State) : State :=
  { s with
    edgeFlag := if fallingEdge level s then true else s.edgeFlag
    rxPrev := level }

/-- Begin a byte: the first sample comes 1.5 bit periods from now (R162). -/
def rxEdge (s : State) : State :=
  { s with
    edgeFlag := false
    rxState := .sampling
    rxCmp := wrap s.params (s.timer + firstSampleDelay s.ticksPerBit)
    accumulator := 0
    bitsSampled := 0
    edgeCount := s.edgeCount + 1 }

/-- Go Idle after a byte, which was stored or dropped (R164). -/
def endByte (stored : Bool) (s : State) : State :=
  { s with
    rxState := .idle
    edgeFlag := false
    rxCount := if stored || s.params.rxCountDrops then s.rxCount + 1 else s.rxCount }

/-- Finish a byte: put it into the RX FIFO, or drop it when the FIFO is full (R164). -/
def rxDone (s : State) : Except Fault State :=
  match fifoPut .rx s.accumulator s with
  | .error f => .error f
  | .ok (stored, s') => .ok (endByte stored s')

/-- Read one data bit (R163, before its test of `bitsSampled`). -/
def sampleBit (level : Bool) (s : State) : State :=
  { s with
    accumulator := shiftIn s.accumulator level
    bitsSampled := s.bitsSampled + 1
    rxCmp := wrap s.params (s.rxCmp + s.ticksPerBit) }

/-- Read one data bit, and finish the byte with the eighth (R163). -/
def rxSample (level : Bool) (s : State) : Except Fault State :=
  if (sampleBit level s).bitsSampled = 8 then rxDone (sampleBit level s)
  else .ok (sampleBit level s)

/-- The RX part of a tick: at most one RX event (R127, part 2). -/
def rxPart (level : Bool) (s : State) : Except Fault State :=
  if edgeTaken s then .ok (rxEdge s)
  else if rxMatch s then rxSample level s
  else .ok s

/-- `EDGE_LATCH` with the level on `rx_in` (R161). -/
def execEdgeLatch (s : State) : Host.Outcome State Fault Refusal := .next (edgeLatch s.rxIn s)

/-- `RX_EDGE` (R162). -/
def execRxEdge (s : State) : Host.Outcome State Fault Refusal := .next (rxEdge s)

/-- `RX_SAMPLE` with the level on `rx_in` (R163). -/
def execRxSample (s : State) : Host.Outcome State Fault Refusal := toOutcome (rxSample s.rxIn s)

/-- `RX_DONE` (R164). -/
def execRxDone (s : State) : Host.Outcome State Fault Refusal := toOutcome (rxDone s)

end Sys2Proof.Machine
end

