-- ==== Sys2Proof/Machine/Transmit.lean ====
section
/-! DEFINITION. The transmit engine and the bit serializer: KICK and the three arms of the TX compare event (41_transmit R141 to R145). -/

namespace Sys2Proof.Machine

/-- Start the engine if it is Idle: the first event comes one bit period from now (R141). -/
def kick (s : State) : State :=
  if s.txState = .idle then
    { s with txCmp := wrap s.params (s.timer + s.ticksPerBit), txState := .framing }
  else s

/-- Emit the next bit of the frame (R143). -/
def txShift (s : State) : State :=
  { s with
    txLine := lineBit s.frame
    frame := s.frame >>> 1
    bitsRemaining := s.bitsRemaining - 1
    txCmp := wrap s.params (s.txCmp + s.ticksPerBit) }

/-- Start the frame of a byte: its start bit goes out now (R144). -/
def startFrame (b : Byte) (s : State) : State :=
  { s with
    txLine := lineBit (buildFrame b)
    frame := buildFrame b >>> 1
    bitsRemaining := 9
    txCount := s.txCount + 1
    txCmp := wrap s.params (s.txCmp + s.ticksPerBit) }

/-- Take the next byte and start its frame (R144). On an empty FIFO, where R142 never calls it, the byte is `FifoGet`'s 0
(log 6). -/
def txLoad (s : State) : Except Fault State :=
  match fifoGet .tx s with
  | .error f => .error f
  | .ok (_, b, s') => .ok (startFrame b s')

/-- Stop: nothing is queued (R145). -/
def txIdle (s : State) : State := { s with txState := .idle, txLine := true }

/-- The TX compare event: exactly one of three arms (R142). -/
def txEvent (s : State) : Except Fault State :=
  if 0 < s.bitsRemaining then .ok (txShift s)
  else if empty .tx s then .ok (txIdle s)
  else txLoad s

/-- The TX part of a tick: at most one TX event (R127, part 3). -/
def txPart (s : State) : Except Fault State :=
  if txMatch s then txEvent s else .ok s

/-- `KICK` (R141). -/
def execKick (s : State) : Host.Outcome State Fault Refusal := .next (kick s)

/-- `TX_SHIFT` (R143). -/
def execTxShift (s : State) : Host.Outcome State Fault Refusal := .next (txShift s)

/-- `TX_LOAD` (R144). -/
def execTxLoad (s : State) : Host.Outcome State Fault Refusal := toOutcome (txLoad s)

/-- `TX_IDLE` (R145). -/
def execTxIdle (s : State) : Host.Outcome State Fault Refusal := .next (txIdle s)

end Sys2Proof.Machine
end

