-- ==== Sys2Proof/Machine/BitClock.lean ====
section
/-! DEFINITION. The baud-rate timer: the Tick step and CONFIG (40_bitclock R121 to R131). -/

namespace Sys2Proof.Machine

/-- The counter advances (R127). -/
def advanceTimer (s : State) : State := { s with timer := wrap s.params (s.timer + 1) }

/-- One tick: the timer, the edge latch, the RX part, the TX part (R127). -/
def tick (level : Bool) (s : State) : Except Fault State :=
  match rxPart level (edgeLatch level (advanceTimer s)) with
  | .error f => .error f
  | .ok s' => txPart s'

/-- What a legal CONFIG writes (R121 to R125). -/
def configure (baud : Word) (s : State) : State :=
  { s with
    ticksPerBit := divisor s.params baud
    txOE := true
    txLine := true
    rxPullEn := true
    edgeFlag := false
    configured := true }

/-- `CONFIG baud` (R121): Reconfigure before BadBaud (R213). -/
def execConfig (baud : Word) (s : State) : Host.Outcome State Fault Refusal :=
  if s.configured then .next (raise (.reconfigure baud) s)
  else if badBaud s.params baud then .next (raise (.badBaud baud) s)
  else .next (respond 0 (configure baud s))

/-- `TICK` with the level on `rx_in` (R127). -/
def execTick (s : State) : Host.Outcome State Fault Refusal := toOutcome (tick s.rxIn s)

/-- One Tick step after another, with the levels the Line agent supplies, and no Host step between them (R8, R100 `WAIT`). -/
def runTicks : List Bool → State → Host.Outcome State Fault Refusal
  | [], s => .next s
  | level :: rest, s => andThen (execTick (driveRx level s)) (runTicks rest)

/-- `n` Tick steps with `rx_in` wired to `tx_out` (R100 `LINE LOOPBACK`, D29), and no Host step between them. -/
def loopTicks : Nat → State → Host.Outcome State Fault Refusal
  | 0, s => .next s
  | n + 1, s => andThen (execTick (driveRx (loopLevel s) s)) (loopTicks n)

end Sys2Proof.Machine
end

