-- ==== Sys2Proof/Machine/HostPort.lean ====
section
/-! DEFINITION. The host command port, all commands but CONFIG (43_host_api R182 to R189). -/

namespace Sys2Proof.Machine

/-- `TXPUT b` (R182): NotConfigured, then the hold, then Put and Kick in one step. -/
def execTxput (b : Byte) (s : State) : Host.Outcome State Fault Refusal :=
  if !s.configured then .next (raise (.notConfigured b) s)
  else if full .tx s then .next (hold (txputWord b) s)
  else
    match fifoPut .tx b s with
    | .error f => .fault f
    | .ok (_, s') => .next (respond 0 (kick s'))

/-- `RXCOUNT` (R184); `countResponse` says what the spec leaves open (log 21). -/
def execRxcount (s : State) : Host.Outcome State Fault Refusal :=
  .next (respond (countResponse (fifoCount .rx s)) s)

/-- `RXGET` (R185). -/
def execRxget (s : State) : Host.Outcome State Fault Refusal :=
  match fifoGet .rx s with
  | .error f => .fault f
  | .ok (valid, b, s') => .next (respond (rxgetResponse valid b) s')

/-- `RDCNT TX` (R186). -/
def execRdcntTx (s : State) : Host.Outcome State Fault Refusal := .next (respond s.txCount s)

/-- `RDCNT RX` (R186). -/
def execRdcntRx (s : State) : Host.Outcome State Fault Refusal := .next (respond s.rxCount s)

/-- `RDCNT EDGE` (R186). -/
def execRdcntEdge (s : State) : Host.Outcome State Fault Refusal := .next (respond s.edgeCount s)

/-- All three counters to zero (R187). -/
def clearCounters (s : State) : State := { s with txCount := 0, rxCount := 0, edgeCount := 0 }

/-- `CLRCNT` (R187). -/
def execClrcnt (s : State) : Host.Outcome State Fault Refusal := .next (respond 0 (clearCounters s))

/-- `RDSTAT` (R188). -/
def execRdstat (s : State) : Host.Outcome State Fault Refusal := .next (respond (status s) s)

end Sys2Proof.Machine
end

