-- ==== Sys2Proof/Machine/Dispatch.lean ====
section
/-! DEFINITION. One arm per instruction: each calls its own meaning. -/

namespace Sys2Proof.Machine

def exec (i : Instr) (s : State) : Host.Outcome State Fault Refusal :=
  match i with
  | .config baud => Sys2Proof.Machine.execConfig baud s
  | .txput b => Sys2Proof.Machine.execTxput b s
  | .rxget => Sys2Proof.Machine.execRxget s
  | .rxcount => Sys2Proof.Machine.execRxcount s
  | .rdcntTx => Sys2Proof.Machine.execRdcntTx s
  | .rdcntRx => Sys2Proof.Machine.execRdcntRx s
  | .rdcntEdge => Sys2Proof.Machine.execRdcntEdge s
  | .clrcnt => Sys2Proof.Machine.execClrcnt s
  | .rdstat => Sys2Proof.Machine.execRdstat s
  | .tick => Sys2Proof.Machine.execTick s
  | .txShift => Sys2Proof.Machine.execTxShift s
  | .txLoad => Sys2Proof.Machine.execTxLoad s
  | .txIdle => Sys2Proof.Machine.execTxIdle s
  | .rxEdge => Sys2Proof.Machine.execRxEdge s
  | .rxSample => Sys2Proof.Machine.execRxSample s
  | .rxDone => Sys2Proof.Machine.execRxDone s
  | .kick => Sys2Proof.Machine.execKick s
  | .edgeLatch => Sys2Proof.Machine.execEdgeLatch s

end Sys2Proof.Machine
end

