-- ==== Sys2Proof/Machine/Step.lean ====
section
/-! DEFINITION. One step: what moves next does its one atomic step (00_scope R9). -/

namespace Sys2Proof.Machine

/-- One step of whichever agent moves next. -/
def step (s : State) : Host.Outcome State Fault Refusal := perform exec (fetch s)

/-- The state with a table row's instruction placed where `step` takes its next one. -/
def State.withFetchWord (s : State) (nbits w : Nat) : State := place nbits w s

end Sys2Proof.Machine
end

