-- ==== Sys2Proof/Machine/Invariant.lean ====
section
/-! DEFINITION. The invariants of 10_state R42 with the ranges of 00_scope R11, R14, the parts of the state that each direction reads and writes (41_transmit R150, 42_receive R168), and what may differ between states that no rule tells apart (20_memory R81). -/

namespace Sys2Proof.Machine

/-- `TW`-bit registers hold `TW`-bit values (R14). -/
abbrev WidthsOk (s : State) : Prop :=
  s.timer < 2 ^ s.params.tw ∧ s.txCmp < 2 ^ s.params.tw ∧ s.rxCmp < 2 ^ s.params.tw ∧
    s.ticksPerBit < 2 ^ s.params.tw

/-- FIFO indices are in `[0, N)` (R14, R38). -/
abbrev IndicesOk (q : FifoId) (s : State) : Prop :=
  (fifo s q).head < slots s q ∧ (fifo s q).tail < slots s q

/-- FIFO storage is in canonical form and lists slots of the FIFO only (R38). -/
abbrev StorageOk (q : FifoId) (s : State) : Prop :=
  Memory.wf (fifo s q).mem = true ∧ Memory.below (slots s q) (fifo s q).mem = true

/-- R42 item 1. -/
abbrev TxIdleRule (s : State) : Prop :=
  s.txState = .idle →
    empty .tx s = true ∧ s.bitsRemaining = 0 ∧ (s.configured = true → s.txLine = true)

/-- R42 item 2. -/
abbrev UnconfiguredRule (s : State) : Prop :=
  s.configured = false →
    s.txState = .idle ∧ s.rxState = .idle ∧ empty .tx s = true ∧ s.edgeCount = 0 ∧ s.edgeFlag = false

/-- R42 item 3, and R34's range. -/
abbrev SamplingRule (s : State) : Prop :=
  s.bitsSampled ≤ 8 ∧ (s.rxState = .sampling → s.bitsSampled ≤ 7)

/-- R42 item 4. -/
abbrev FrameRule (s : State) : Prop :=
  s.bitsRemaining ≤ 9 ∧ (0 < s.bitsRemaining → s.frame >>> s.bitsRemaining.toNat = 0)

/-- R42 item 5. -/
abbrev CountRule (q : FifoId) (s : State) : Prop := fifoCount q s ≤ slots s q - 1

/-- A legal `tpb` once configured (R11). -/
abbrev DivisorRule (s : State) : Prop :=
  s.configured = true → 1 ≤ s.ticksPerBit ∧ firstSampleDelay s.ticksPerBit ≤ 2 ^ s.params.tw - 1

/-- A Framing engine's next event is 1 to `tpb` ticks away (R141, R143, R144, R131). -/
abbrev TxScheduleRule (s : State) : Prop :=
  s.txState = .framing →
    1 ≤ ticksUntil s.params s.timer s.txCmp ∧ ticksUntil s.params s.timer s.txCmp ≤ s.ticksPerBit

/-- A Sampling engine's next event is 1 to `tpb + tpb div 2` ticks away (R162, R163, R131). -/
abbrev RxScheduleRule (s : State) : Prop :=
  s.rxState = .sampling →
    1 ≤ ticksUntil s.params s.timer s.rxCmp ∧
      ticksUntil s.params s.timer s.rxCmp ≤ firstSampleDelay s.ticksPerBit

/-- Fault codes 5 to 7 are never produced (R212). -/
abbrev FaultCodeRule (s : State) : Prop := s.fault ≤ 4

/-- Only a `TXPUT` is ever held (R181). -/
abbrev HeldRule (s : State) : Prop :=
  s.held.all (fun w => decide (w = txputWord (w.setWidth 8))) = true

/-- No trace asks for an event (log 5). -/
abbrev NoEventRule (s : State) : Prop := s.env.event = none

/-- What every state reachable from reset satisfies (R42; with the ranges of R11, R14 and R34, the schedules of R131, and R181 and
R212). -/
abbrev Inv (s : State) : Prop :=
  s.params.Legal ∧ WidthsOk s ∧ IndicesOk .tx s ∧ IndicesOk .rx s ∧ StorageOk .tx s ∧ StorageOk .rx s ∧
    TxIdleRule s ∧ UnconfiguredRule s ∧ SamplingRule s ∧ FrameRule s ∧ CountRule .tx s ∧ CountRule .rx s ∧
    DivisorRule s ∧ TxScheduleRule s ∧ RxScheduleRule s ∧ FaultCodeRule s ∧ HeldRule s ∧ NoEventRule s

/-- What both directions read and neither writes in its part of a tick. -/
structure ClockView where
  params : Params
  ticksPerBit : Nat
  timer : Nat
  deriving DecidableEq, Repr

/-- The TX-side state (R127, R150). -/
structure TxView where
  txState : TxState
  txCmp : Nat
  frame : Frame
  bitsRemaining : BitVec 4
  txLine : Bool
  txFifo : Fifo
  txCount : Word
  deriving DecidableEq, Repr

/-- The RX-side state (R127, R168), with `rxPrev` and what arms the edge detector. -/
structure RxView where
  configured : Bool
  rxState : RxState
  rxCmp : Nat
  accumulator : Byte
  bitsSampled : BitVec 4
  rxPrev : Bool
  edgeFlag : Bool
  rxFifo : Fifo
  rxCount : Word
  edgeCount : Word
  deriving DecidableEq, Repr

/-- The parameters, the divisor and the counter. -/
def clockView (s : State) : ClockView :=
  { params := s.params, ticksPerBit := s.ticksPerBit, timer := s.timer }

/-- The TX side of a state. -/
def txView (s : State) : TxView :=
  { txState := s.txState, txCmp := s.txCmp, frame := s.frame, bitsRemaining := s.bitsRemaining
    txLine := s.txLine, txFifo := s.txFifo, txCount := s.txCount }

/-- The RX side of a state. -/
def rxView (s : State) : RxView :=
  { configured := s.configured, rxState := s.rxState, rxCmp := s.rxCmp, accumulator := s.accumulator
    bitsSampled := s.bitsSampled, rxPrev := s.rxPrev, edgeFlag := s.edgeFlag, rxFifo := s.rxFifo
    rxCount := s.rxCount, edgeCount := s.edgeCount }

/-- A state with all FIFO storage forgotten. -/
def eraseStorage (s : State) : State :=
  { s with txFifo := { s.txFifo with mem := [] }, rxFifo := { s.rxFifo with mem := [] } }

/-- Two states that differ at most in FIFO slots holding no byte (R81). -/
def SameContents (s t : State) : Prop :=
  eraseStorage s = eraseStorage t ∧ contents .tx s = contents .tx t ∧ contents .rx s = contents .rx t

end Sys2Proof.Machine
end

