-- ==== Sys2Proof/Safety.lean ====
section
/-! DEFINITION. What counts as a safe run: no fault is recorded (60_exceptions R211, 93 U24) and the model does not stop. -/

namespace Sys2Proof.Machine

/-- A model treats every state with `fault != 0` as faulted (R211). -/
abbrev Faulted (s : State) : Prop := s.fault ≠ 0

/-- A state that claims about runs may speak of: it keeps the invariants and no fault is recorded (R42, R211). -/
abbrev Safe (s : State) : Prop := Inv s ∧ ¬ Faulted s

/-- The outcome is a next state. -/
def Proceeds (o : Host.Outcome State Fault Refusal) : Prop := ∃ t, o = .next t

/-- The next step is one clock with `rst = 1` (R240). -/
def TakesReset (s : State) : Prop := (fetch s).1 = .reset

/-- The next step accepts a `CONFIG` (R121). -/
def TakesConfig (s : State) : Prop := ∃ baud, (fetch s).1 = .run (.config baud)

/-- The next step accepts a `CLRCNT` (R187). -/
def TakesClear (s : State) : Prop := (fetch s).1 = .run .clrcnt

end Sys2Proof.Machine
end

