-- ==== Sys2Proof/Certificates/Slice0/Obligations.lean ====
section
/-! DEFINITION. The statements for the provers, each from the numbered rules of spec/ it names. -/

open Sys2Proof Sys2Proof.Machine

/-! ## Encoding -/

/-- R90 to R93, R98: decoding what the encoder writes gives the instruction back, with every operand at every value its field admits. -/
def Obligations.DecodeOfEncodeIsTheInstruction : Prop :=
  ∀ i : Instr, i.wellFormed = true → decode (encode i) = .ok i

/-- R92, R93, R98: what decodes is a well-formed instruction, and its encoding is the very code read: no bit is ignored. -/
def Obligations.EncodeOfDecodeIsTheCode : Prop :=
  ∀ (c : Code) (i : Instr), decode c = .ok i → i.wellFormed = true ∧ encode i = c

/-- R93: a word selects a command when `(cmd & mask) = match`, it decodes exactly when some row selects it, the command is that
row's, and no two rows match the same word. -/
def Obligations.WordDecodesByTheRowThatSelectsIt : Prop :=
  (∀ (w : Word) (r : CmdRow), r ∈ cmdRows → r.selects w = true →
      ∃ i, decodeCmd w = .ok i ∧ mnemonic i = r.mnemonic) ∧
  (∀ (w : Word) (i : Instr), decodeCmd w = .ok i → ∃ r ∈ cmdRows, r.selects w = true ∧ mnemonic i = r.mnemonic) ∧
  (∀ (w : Word) (r r' : CmdRow), r ∈ cmdRows → r' ∈ cmdRows → r.selects w = true → r'.selects w = true → r = r')

/-- 95_test_vectors B1, B12, H1, H2, H5, H6, H7, H8 and I1 to I10, and three events of R98: words written out from R93, R98 and
R99. -/
def Obligations.SampleWordsDecodeAsTheSpecSays : Prop :=
  decodeCmd 0x10002580 = .ok (.config 9600) ∧ decodeCmd 0x10FFFFFF = .ok (.config 16777215) ∧
  decodeCmd 0x20000041 = .ok (.txput 0x41) ∧ decodeCmd 0x30000000 = .ok .rxget ∧
  decodeCmd 0x40000000 = .ok .rxcount ∧ decodeCmd 0x50000000 = .ok .rdcntTx ∧
  decodeCmd 0x51000000 = .ok .rdcntRx ∧ decodeCmd 0x52000000 = .ok .rdcntEdge ∧
  decodeCmd 0x60000000 = .ok .clrcnt ∧ decodeCmd 0x70000000 = .ok .rdstat ∧
  decodeEvt 0x6 = .ok .rxDone ∧ decodeEvt 0x8 = .ok .edgeLatch ∧
  decodeCmd 0x00000000 = .error (.reservedOp 0) ∧ decodeCmd 0x80000000 = .error (.reservedOp 8) ∧
  decodeCmd 0xF0000000 = .error (.reservedOp 15) ∧ decodeCmd 0x20000141 = .error (.reservedArg 2 0x141) ∧
  decodeCmd 0x30000001 = .error (.reservedArg 3 1) ∧ decodeCmd 0x31000000 = .error (.reservedSel 3 1) ∧
  decodeCmd 0x40000100 = .error (.reservedArg 4 0x100) ∧ decodeCmd 0x53000000 = .error (.reservedSel 5 3) ∧
  decodeCmd 0x61000000 = .error (.reservedSel 6 1) ∧ decodeCmd 0x70000001 = .error (.reservedArg 7 1) ∧
  decodeEvt 0x9 = .error (.unusedEvent 9)

/-! ## Reset -/

/-- R43: the reset table, for every choice of the parameters. The table leaves the storage unspecified, and nothing is said of it. -/
def Obligations.ResetStateIsTheResetTable : Prop :=
  ∀ p : Params,
    let s := State.resetWith p
    s.configured = false ∧ s.ticksPerBit = 0 ∧ s.timer = 0 ∧ s.txCmp = 0 ∧ s.rxCmp = 0 ∧ s.txState = .idle ∧
    s.frame = 0 ∧ s.bitsRemaining = 0 ∧ s.txLine = true ∧ s.txOE = false ∧ s.rxState = .idle ∧
    s.accumulator = 0 ∧ s.bitsSampled = 0 ∧ s.rxPrev = true ∧ s.edgeFlag = false ∧ s.rxPullEn = false ∧
    s.txFifo.head = 0 ∧ s.txFifo.tail = 0 ∧ s.rxFifo.head = 0 ∧ s.rxFifo.tail = 0 ∧
    s.txCount = 0 ∧ s.rxCount = 0 ∧ s.edgeCount = 0 ∧ s.fault = 0 ∧
    txArmed s = false ∧ rxArmed s = false ∧ edgeArmed s = false

/-- R240: a clock with `rst = 1` gives every piece of the block's state its reset value and takes no command and no tick, with
`cmd_ready = 0` whatever word is offered; the parameters, the level on `rx_in`, the word the Host holds and the environment stay
(log 12). -/
def Obligations.ResetClockRestoresTheBlock : Prop :=
  ∀ s : State, TakesReset s →
    (∀ w, cmdReadyPort w s = false) ∧
    step s = .next { State.resetWith s.params with rxIn := s.rxIn, held := s.held, env := (fetch s).2.env }

/-- R211, R40: a recorded fault stays as it is in every step but reset. -/
def Obligations.RecordedFaultStaysUntilReset : Prop :=
  ∀ s t : State, step s = .next t → s.fault ≠ 0 → ¬ TakesReset s → t.fault = s.fault

/-- R94, R95: a word that decodes to nothing is accepted, raises IllegalCommand, responds 0 and changes nothing else; `OP` 0 and
8 to 15 are such words. That the agenda offers the word is the model's own form of the Host (log 4), and `raised` holds the info a
model reports (log 11). -/
def Obligations.IllegalWordIsAcceptedAndFaults : Prop :=
  (∀ (s : State) (w : Word) (rest : List Item) (e : DecodeError),
    s.env.event = none → s.held = none → s.env.job = none → s.env.agenda = .cmd w :: rest → decodeCmd w = .error e →
    step s = .next { s with
      env := { s.env with agenda := rest, program := true }
      fault := if s.fault = 0 then 1 else s.fault
      raised := some (.illegalCommand w)
      rsp := some 0 }) ∧
  (∀ w : Word, opField w = 0 ∨ 8 ≤ opField w → ∃ e, decodeCmd w = .error e)

/-! ## CONFIG -/

/-- R121, R122, R124, R125: a legal CONFIG on an unconfigured block. -/
def Obligations.ConfigSetsTheDivisorAndThePins : Prop :=
  ∀ (s : State) (baud : Word), s.configured = false → baud ≠ 0 → s.params.tickRate / baud.toNat ≠ 0 →
    s.params.tickRate / baud.toNat + s.params.tickRate / baud.toNat / 2 ≤ 2 ^ s.params.tw - 1 →
    exec (.config baud) s = .next { s with
      ticksPerBit := s.params.tickRate / baud.toNat
      txOE := true
      txLine := true
      rxPullEn := true
      edgeFlag := false
      configured := true
      rsp := some 0 }

/-- R126, R213: a CONFIG on a configured block raises Reconfigure, whatever its baud, and changes nothing else. -/
def Obligations.SecondConfigRaisesReconfigure : Prop :=
  ∀ (s : State) (baud : Word), s.configured = true →
    exec (.config baud) s = .next { s with
      fault := if s.fault = 0 then 3 else s.fault
      raised := some (.reconfigure baud)
      rsp := some 0 }

/-- R123: the three conditions of BadBaud, on an unconfigured block. -/
def Obligations.BadBaudFaultsAndChangesNothingElse : Prop :=
  ∀ (s : State) (baud : Word), s.configured = false →
    (baud = 0 ∨ s.params.tickRate / baud.toNat = 0 ∨
      2 ^ s.params.tw - 1 < s.params.tickRate / baud.toNat + s.params.tickRate / baud.toNat / 2) →
    exec (.config baud) s = .next { s with
      fault := if s.fault = 0 then 4 else s.fault
      raised := some (.badBaud baud)
      rsp := some 0 }

/-! ## Host commands -/

/-- R182: TXPUT on a configured block with room puts the byte, kicks the engine and responds 0. -/
def Obligations.TxputPutsTheByteAndKicks : Prop :=
  ∀ (s : State) (b : Byte), s.configured = true → full .tx s = false → s.txFifo.head < s.params.nTx →
    exec (.txput b) s = .next { s with
      txFifo := { s.txFifo with
        mem := Memory.write s.txFifo.mem s.txFifo.head b
        head := (s.txFifo.head + 1) % s.params.nTx }
      txCmp := if s.txState = .idle then (s.timer + s.ticksPerBit) % 2 ^ s.params.tw else s.txCmp
      txState := .framing
      rsp := some 0 }

/-- R182, R189: TXPUT before CONFIG raises NotConfigured and changes nothing else, the TX FIFO full or not (R213). -/
def Obligations.TxputBeforeConfigFaults : Prop :=
  ∀ (s : State) (b : Byte), s.configured = false →
    exec (.txput b) s = .next { s with
      fault := if s.fault = 0 then 2 else s.fault
      raised := some (.notConfigured b)
      rsp := some 0 }

/-- R181: TXPUT on a full TX FIFO is held: the word stays offered, no response is given and no other state changes. That the
offered word is kept in `held` is the model's own form of the Host's position (log 7). -/
def Obligations.TxputHoldsWhileTheFifoIsFull : Prop :=
  ∀ (s : State) (b : Byte), s.configured = true → full .tx s = true →
    exec (.txput b) s = .next { s with held := some (txputWord b) } ∧ holds (txputWord b) s = true

/-- R185: RXGET, the word 0x30000000, removes and returns the oldest byte with the valid bit, or responds 0 on an empty RX FIFO and
changes nothing else. -/
def Obligations.RxgetReturnsTheOldestByteOrEmpty : Prop :=
  decodeCmd 0x30000000 = .ok .rxget ∧ ∀ s : State,
    (s.rxFifo.head ≠ s.rxFifo.tail → s.rxFifo.tail < s.params.nRx →
      exec .rxget s = .next { s with
        rxFifo := { s.rxFifo with tail := (s.rxFifo.tail + 1) % s.params.nRx }
        rsp := some (0x100 ||| (Memory.read s.rxFifo.mem s.rxFifo.tail).zeroExtend 32) }) ∧
    (s.rxFifo.head = s.rxFifo.tail → exec .rxget s = .next { s with rsp := some 0 })

/-- R184: RXCOUNT, the word 0x40000000, responds the number of received bytes waiting and changes nothing else; a
count that 32 bits do not hold, of which the spec says nothing, responds a free value (log 21). -/
def Obligations.RxcountRespondsTheCount : Prop :=
  decodeCmd 0x40000000 = .ok .rxcount ∧ ∀ s : State, exec .rxcount s = .next { s with
    rsp := some
      (let n := (s.rxFifo.head + s.params.nRx - s.rxFifo.tail) % s.params.nRx
       if n < 2 ^ 32 then BitVec.ofNat 32 n else Config.wideCount n) }

/-- R186: each RDCNT responds its counter and changes no state; its words are `SEL` 0, 1 and 2, and `SEL` 3 to 15 are illegal. -/
def Obligations.RdcntRespondsItsCounter : Prop :=
  decodeCmd 0x50000000 = .ok .rdcntTx ∧ decodeCmd 0x51000000 = .ok .rdcntRx ∧
  decodeCmd 0x52000000 = .ok .rdcntEdge ∧
  (∀ w : Word, opField w = 5 → 3 ≤ selField w → ∃ e, decodeCmd w = .error e) ∧ ∀ s : State,
    exec .rdcntTx s = .next { s with rsp := some s.txCount } ∧
    exec .rdcntRx s = .next { s with rsp := some s.rxCount } ∧
    exec .rdcntEdge s = .next { s with rsp := some s.edgeCount }

/-- R187: CLRCNT, the word 0x60000000, zeroes all three counters at once and changes nothing else. -/
def Obligations.ClrcntZeroesAllThreeCounters : Prop :=
  decodeCmd 0x60000000 = .ok .clrcnt ∧ ∀ s : State, exec .clrcnt s = .next { s with
    txCount := 0
    rxCount := 0
    edgeCount := 0
    rsp := some 0 }

/-- R188: RDSTAT, the word 0x70000000, responds the status word, bit by bit, and changes nothing else. -/
def Obligations.RdstatRespondsTheStatusWord : Prop :=
  decodeCmd 0x70000000 = .ok .rdstat ∧ ∀ s : State, ∃ w : Word, exec .rdstat s = .next { s with rsp := some w } ∧
    w.getLsbD 0 = s.configured ∧
    w.getLsbD 1 = decide ((s.txFifo.head + 1) % s.params.nTx = s.txFifo.tail) ∧
    w.getLsbD 2 = decide (s.txState = .idle) ∧
    w.getLsbD 3 = decide (s.rxFifo.head = s.rxFifo.tail) ∧
    w.getLsbD 4 = decide (s.rxState = .sampling) ∧
    w.getLsbD 5 = s.txLine ∧
    w.extractLsb' 6 2 = 0 ∧
    w.extractLsb' 8 3 = s.fault ∧
    w.extractLsb' 11 21 = 0

/-- What each host command leaves unchanged (the state-written lines of R121, R182 and R184 to R188). Every field a clause does not
name stays; TXPUT's stored slot is `head_TX` of the state it runs in, and every other slot reads as before. -/
def Obligations.HostCommandsWriteOnlyTheirState : Prop :=
  ∀ s t : State,
    (∀ baud, exec (.config baud) s = .next t →
      t = { s with ticksPerBit := t.ticksPerBit, txOE := t.txOE, txLine := t.txLine, rxPullEn := t.rxPullEn,
                   edgeFlag := t.edgeFlag, configured := t.configured, fault := t.fault, raised := t.raised,
                   rsp := t.rsp }) ∧
    (∀ b, exec (.txput b) s = .next t →
      t = { s with txFifo := { s.txFifo with mem := t.txFifo.mem, head := t.txFifo.head }, txCmp := t.txCmp,
                   txState := t.txState, fault := t.fault, raised := t.raised, held := t.held, rsp := t.rsp } ∧
      ∀ a, a ≠ s.txFifo.head → Memory.read t.txFifo.mem a = Memory.read s.txFifo.mem a) ∧
    (exec .rxget s = .next t →
      t = { s with rxFifo := { s.rxFifo with tail := t.rxFifo.tail }, rsp := t.rsp }) ∧
    (exec .clrcnt s = .next t →
      t = { s with txCount := t.txCount, rxCount := t.rxCount, edgeCount := t.edgeCount, rsp := t.rsp }) ∧
    (∀ i ∈ [Instr.rxcount, .rdcntTx, .rdcntRx, .rdcntEdge, .rdstat], exec i s = .next t →
      t = { s with rsp := t.rsp })

/-- R63 requires an index below the slot count of every caller. Where a state has one out of range, which no state with the
invariants has, the instruction that would reach the absent slot stops with the model's own fault (log 9). -/
def Obligations.OutOfRangeSlotFaults : Prop :=
  ∀ s : State,
    (∀ b, s.configured = true → full .tx s = false → s.params.nTx ≤ s.txFifo.head →
      exec (.txput b) s = .fault (.slotOutOfRange .tx s.txFifo.head)) ∧
    (empty .rx s = false → s.params.nRx ≤ s.rxFifo.tail →
      exec .rxget s = .fault (.slotOutOfRange .rx s.rxFifo.tail)) ∧
    (empty .tx s = false → s.params.nTx ≤ s.txFifo.tail →
      exec .txLoad s = .fault (.slotOutOfRange .tx s.txFifo.tail)) ∧
    (full .rx s = false → s.params.nRx ≤ s.rxFifo.head →
      exec .rxDone s = .fault (.slotOutOfRange .rx s.rxFifo.head) ∧
      (s.bitsSampled = 7 → exec .rxSample s = .fault (.slotOutOfRange .rx s.rxFifo.head)))

/-! ## The Tick step and the events -/

/-- R127, R142: a tick advances the timer, latches the edge, then runs at most one RX event and then at most one TX event. -/
def Obligations.TickRunsItsPartsInOrder : Prop :=
  ∀ s : State,
    let s1 := { s with
      timer := (s.timer + 1) % 2 ^ s.params.tw
      edgeFlag := if s.configured = true ∧ s.rxPrev = true ∧ s.rxIn = false then true else s.edgeFlag
      rxPrev := s.rxIn }
    exec .tick s =
      andThen
        (if s1.configured = true ∧ s1.rxState = .idle ∧ s1.edgeFlag = true then exec .rxEdge s1
         else if s1.rxState = .sampling ∧ s1.timer = s1.rxCmp then exec .rxSample s1
         else .next s1)
        (fun s2 =>
          if s2.txState = .framing ∧ s2.timer = s2.txCmp then
            (if 0 < s2.bitsRemaining then exec .txShift s2
             else if s2.txFifo.head ≠ s2.txFifo.tail then exec .txLoad s2
             else exec .txIdle s2)
          else .next s2)

/-- R220, R127: with the FIFO indices in range a tick completes, whatever else the state holds, a recorded fault included; the
counter has moved by one and the level is the previous one. -/
def Obligations.TickAlwaysCompletes : Prop :=
  ∀ s : State, s.rxFifo.head < s.params.nRx → s.txFifo.tail < s.params.nTx →
    ∃ t, exec .tick s = .next t ∧ t.timer = (s.timer + 1) % 2 ^ s.params.tw ∧ t.rxPrev = s.rxIn ∧
      t.fault = s.fault

/-- R127, R216: the RX part and the TX part of a tick in either order give the same result. -/
def Obligations.TxAndRxPartsCommute : Prop :=
  ∀ (s : State) (level : Bool), IndicesOk .tx s → IndicesOk .rx s →
    andThen (toOutcome (rxPart level s)) (fun s' => toOutcome (txPart s')) =
      andThen (toOutcome (txPart s)) (fun s' => toOutcome (rxPart level s'))

/-- R161: the falling-edge detector. -/
def Obligations.EdgeLatchSetsTheFlagOnAFallingEdge : Prop :=
  ∀ s : State, exec .edgeLatch s = .next { s with
    edgeFlag := if s.configured = true ∧ s.rxPrev = true ∧ s.rxIn = false then true else s.edgeFlag
    rxPrev := s.rxIn }

/-- R162, R130: the RX edge event. -/
def Obligations.RxEdgeBeginsAByte : Prop :=
  ∀ s : State, exec .rxEdge s = .next { s with
    edgeFlag := false
    rxState := .sampling
    rxCmp := (s.timer + (s.ticksPerBit + s.ticksPerBit / 2)) % 2 ^ s.params.tw
    accumulator := 0
    bitsSampled := 0
    edgeCount := s.edgeCount + 1 }

/-- R163: a sample shifts the level in at bit 7 and schedules the next from the previous compare value; the sample that brings
`bitsSampled` to 8 performs RX_DONE in the same step. -/
def Obligations.RxSampleShiftsTheBitIn : Prop :=
  ∀ s : State,
    let s1 := { s with
      accumulator := (s.accumulator >>> 1) ||| ((if s.rxIn then 1#8 else 0#8) <<< 7)
      bitsSampled := s.bitsSampled + 1
      rxCmp := (s.rxCmp + s.ticksPerBit) % 2 ^ s.params.tw }
    (s.bitsSampled + 1 ≠ 8 → exec .rxSample s = .next s1) ∧
    (s.bitsSampled + 1 = 8 → exec .rxSample s = exec .rxDone s1)

/-- R164: a byte that finds room is stored and counted; one that finds the RX FIFO full is dropped, and counted only if
`RX_COUNT_DROPS`; either way the engine is Idle and a pending edge is discarded. -/
def Obligations.RxDoneStoresOrDropsTheByte : Prop :=
  ∀ s : State,
    (full .rx s = false → s.rxFifo.head < s.params.nRx →
      exec .rxDone s = .next { s with
        rxFifo := { s.rxFifo with
          mem := Memory.write s.rxFifo.mem s.rxFifo.head s.accumulator
          head := (s.rxFifo.head + 1) % s.params.nRx }
        rxState := .idle
        edgeFlag := false
        rxCount := s.rxCount + 1 }) ∧
    (full .rx s = true →
      exec .rxDone s = .next { s with
        rxState := .idle
        edgeFlag := false
        rxCount := if s.params.rxCountDrops = true then s.rxCount + 1 else s.rxCount })

/-- R143: the next bit of the frame goes out; the schedule starts from the previous compare value (R129). -/
def Obligations.TxShiftEmitsTheNextBit : Prop :=
  ∀ s : State, exec .txShift s = .next { s with
    txLine := s.frame.getLsbD 0
    frame := s.frame >>> 1
    bitsRemaining := s.bitsRemaining - 1
    txCmp := (s.txCmp + s.ticksPerBit) % 2 ^ s.params.tw }

/-- R144: the oldest byte's frame starts: the start bit goes out and `frame` keeps the byte with the stop bit above it. -/
def Obligations.TxLoadStartsTheFrame : Prop :=
  ∀ s : State, s.txFifo.head ≠ s.txFifo.tail → s.txFifo.tail < s.params.nTx →
    exec .txLoad s = .next { s with
      txFifo := { s.txFifo with tail := (s.txFifo.tail + 1) % s.params.nTx }
      txLine := false
      frame := (Memory.read s.txFifo.mem s.txFifo.tail).zeroExtend 10 ||| 0x100
      bitsRemaining := 9
      txCount := s.txCount + 1
      txCmp := (s.txCmp + s.ticksPerBit) % 2 ^ s.params.tw }

/-- R145: the engine stops and the line is high. -/
def Obligations.TxIdleDisarmsTheChannel : Prop :=
  ∀ s : State, exec .txIdle s = .next { s with txState := .idle, txLine := true }

/-- R141: Kick arms an Idle engine one bit period from now and does nothing to a Framing one. -/
def Obligations.KickArmsAnIdleEngine : Prop :=
  ∀ s : State,
    (s.txState = .idle → exec .kick s = .next { s with
      txCmp := (s.timer + s.ticksPerBit) % 2 ^ s.params.tw
      txState := .framing }) ∧
    (s.txState = .framing → exec .kick s = .next s)

/-- What each event leaves unchanged (the state-written lines of R127, R141 to R145 and R161 to R164). Every field a clause does
not name stays; the stored slot is `head_RX` of the state the event runs in, and every other slot reads as before. -/
def Obligations.EventsWriteOnlyTheirState : Prop :=
  ∀ s t : State,
    (exec .tick s = .next t →
      t = { s with timer := t.timer, rxPrev := t.rxPrev, rxCmp := t.rxCmp, accumulator := t.accumulator,
                   bitsSampled := t.bitsSampled, rxState := t.rxState, edgeFlag := t.edgeFlag,
                   rxFifo := { s.rxFifo with mem := t.rxFifo.mem, head := t.rxFifo.head },
                   rxCount := t.rxCount, edgeCount := t.edgeCount, txCmp := t.txCmp, frame := t.frame,
                   bitsRemaining := t.bitsRemaining, txLine := t.txLine, txState := t.txState,
                   txFifo := { s.txFifo with tail := t.txFifo.tail }, txCount := t.txCount } ∧
      ∀ a, a ≠ s.rxFifo.head → Memory.read t.rxFifo.mem a = Memory.read s.rxFifo.mem a) ∧
    (exec .txShift s = .next t →
      t = { s with txLine := t.txLine, frame := t.frame, bitsRemaining := t.bitsRemaining, txCmp := t.txCmp }) ∧
    (exec .txLoad s = .next t →
      t = { s with txFifo := { s.txFifo with tail := t.txFifo.tail }, txLine := t.txLine, frame := t.frame,
                   bitsRemaining := t.bitsRemaining, txCount := t.txCount, txCmp := t.txCmp }) ∧
    (exec .txIdle s = .next t → t = { s with txState := t.txState, txLine := t.txLine }) ∧
    (exec .kick s = .next t → t = { s with txState := t.txState, txCmp := t.txCmp }) ∧
    (exec .edgeLatch s = .next t → t = { s with edgeFlag := t.edgeFlag, rxPrev := t.rxPrev }) ∧
    (exec .rxEdge s = .next t →
      t = { s with edgeFlag := t.edgeFlag, rxState := t.rxState, rxCmp := t.rxCmp, accumulator := t.accumulator,
                   bitsSampled := t.bitsSampled, edgeCount := t.edgeCount }) ∧
    (∀ i ∈ [Instr.rxSample, .rxDone], exec i s = .next t →
      t = { s with accumulator := t.accumulator, bitsSampled := t.bitsSampled, rxCmp := t.rxCmp,
                   rxFifo := { s.rxFifo with mem := t.rxFifo.mem, head := t.rxFifo.head }, rxState := t.rxState,
                   edgeFlag := t.edgeFlag, rxCount := t.rxCount } ∧
      ∀ a, a ≠ s.rxFifo.head → Memory.read t.rxFifo.mem a = Memory.read s.rxFifo.mem a)

/-! ## Steps -/

/-- R180, R96, R101: a step in which the Host moves runs the decoded command, in the state with the word taken from the agenda and
the ports of the last step cleared (log 4, 10, 11). READSNAP starts with RXCOUNT and REPORTSTATS with RDCNT TX, and in the middle
of a program's pseudo-instruction the Host offers its next command; the Host then acts on the response (log 22). -/
def Obligations.StepRunsTheDecodedCommand : Prop :=
  ∀ s : State, s.env.event = none → s.held = none →
    let s0 := { s with rsp := none, raised := none }
    (∀ w rest i, s.env.job = none → s.env.agenda = .cmd w :: rest → decodeCmd w = .ok i →
      step s = exec i { s0 with env := { s.env with agenda := rest, program := true } }) ∧
    (∀ rest, s.env.job = none → s.env.agenda = .readsnap :: rest →
      step s = hear (some .snapCount)
        (exec .rxcount
          { s0 with env := { s.env with agenda := rest, program := true, job := some .snapCount } })) ∧
    (∀ rest, s.env.job = none → s.env.agenda = .reportstats :: rest →
      step s = hear (some .reportTx)
        (exec .rdcntTx
          { s0 with env := { s.env with agenda := rest, program := true, job := some .reportTx } })) ∧
    (∀ j i, s.env.job = some j → s.env.program = true → decodeCmd (jobWord j) = .ok i →
      step s = hear (some j) (exec i s0))

/-- R100, D29: a step of a `WAIT` runs TICK with the level the Line agent supplies in each of its modes; a free level is the free
value at the counter, which moves on (log 3). -/
def Obligations.StepOfAWaitRunsATick : Prop :=
  ∀ (s : State) (n : Nat) (rest : List Item),
    s.env.event = none → s.held = none → s.env.job = none → s.env.agenda = .wait (n + 1) :: rest →
    let run := fun (level : Bool) (m : LineMode) (d : Nat) =>
      exec .tick { s with
        rsp := none
        raised := none
        rxIn := level
        env := { s.env with agenda := .wait n :: rest, line := m, draws := d } }
    (s.env.line = .idle → step s = run true .idle s.env.draws) ∧
    (s.env.line = .loopback → step s = run (if s.txOE then s.txLine else true) .loopback s.env.draws) ∧
    (∀ l ls o, s.env.line = .levels (l :: ls) o → step s = run l (.levels ls o) s.env.draws) ∧
    (∀ l, s.env.line = .levels [] (some l) → step s = run l (.levels [] (some l)) s.env.draws) ∧
    (s.env.line = .free → step s = run (Config.freeLevel s.env.draws) .free (s.env.draws + 1)) ∧
    (s.env.line = .levels [] none →
      step s = run (Config.freeLevel s.env.draws) (.levels [] none) (s.env.draws + 1))

/-- R98: a step in which a trace names an event runs that event, with a level from the Line agent for those that read one; an unused
identifier is refused; a Host in the middle of a pseudo-instruction listens as in every step (log 5, 14, 22). -/
def Obligations.StepRunsATracedEvent : Prop :=
  ∀ (s : State) (id : EventId), s.env.event = some id →
    let s0 := { s with rsp := none, raised := none, env := { s.env with event := none } }
    (∀ i, decodeEvt id = .ok i → i ∈ [Instr.tick, .edgeLatch, .rxSample] →
      step s = hear s.env.job (exec i (supplyLevel s0))) ∧
    (∀ i, decodeEvt id = .ok i → i ∉ [Instr.tick, .edgeLatch, .rxSample] →
      step s = hear s.env.job (exec i s0)) ∧
    (∀ e, decodeEvt id = .error e → step s = .refused (.unusedEvent id))

/-- R181, R100: while a word of a test program is held, its last word too, a step is a tick that consumes none of the program, and
the step right after the hold is lifted runs the held command; a Host in the middle of a pseudo-instruction hears the response
(log 4, 7, 22). -/
def Obligations.HeldWordWaitsOnTicksAndThenRuns : Prop :=
  ∀ (s : State) (w : Word) (i : Instr),
    s.env.event = none → s.held = some w → decodeCmd w = .ok i →
    (s.env.agenda = [] ∧ s.env.program = true ∨ ∃ item rest, s.env.agenda = item :: rest ∧ item ≠ .reset) →
    (holds w s = true →
      step s = hear s.env.job (exec .tick (supplyLevel { s with rsp := none, raised := none }))) ∧
    (holds w s = false → step s = hear s.env.job (exec i { s with rsp := none, raised := none, held := none }))

/-- R8, R9: where no script fixes the schedule, any agent may move next: the free turn decides, and what the Host begins may be
anything. While a word is held a moving Host can only try that word, and while the hold lasts the Tick agent moves; in the middle of
a pseudo-instruction it can only go on with it (R181, R191; log 4, 7, 22). -/
def Obligations.UnscriptedStepTakesTheFreeTurn : Prop :=
  ∀ s : State, s.env.event = none → s.env.agenda = [] → (s.held ≠ none ∨ s.env.job ≠ none → s.env.program = false) →
    let s0 := { s with rsp := none, raised := none, env := { s.env with draws := s.env.draws + 1 } }
    let accept := fun (w : Word) (u : State) =>
      match decodeCmd w with
      | .ok i => hear u.env.job (exec i u)
      | .error _ => .next (raise (.illegalCommand w) u)
    let begun := fun (job : Option Job) => { s0 with env := { s0.env with program := false, job := job } }
    step s =
      match Config.freeTurn s.env.draws with
      | .tick => hear s.env.job (exec .tick (supplyLevel s0))
      | .reset => .next { State.resetWith s.params with rxIn := s.rxIn, held := s.held, env := s0.env }
      | .host o =>
        match s.held, s.env.job with
        | some v, _ =>
          if holds v s then hear s.env.job (exec .tick (supplyLevel s0)) else accept v { s0 with held := none }
        | none, some j => accept (jobWord j) s0
        | none, none =>
          match o with
          | .word w => accept w (begun none)
          | .readsnap => accept 0x40000000 (begun (some .snapCount))
          | .reportstats => accept 0x50000000 (begun (some .reportTx))

/-! ## Invariants -/

/-- R42, R43: the reset state satisfies the invariants, for every legal choice of the parameters. The invariants' rules about `held`
and `env.event` are about the model's own fields (log 5, 7). -/
def Obligations.ResetSatisfiesTheInvariants : Prop :=
  ∀ p : Params, p.Legal → Inv (State.resetWith p)

/-- R42: every step of every agent keeps the invariants (with the ranges of R11, R14, R34, the schedules of R131, and R181, R212; the
rules about `held` and `env.event` are about the model's own fields, log 5, 7). -/
def Obligations.EveryStepKeepsTheInvariants : Prop :=
  ∀ s t : State, Inv s → step s = .next t → Inv t

/-- R9, R220: from a state that satisfies the invariants every step has a next state: the model never stops. -/
def Obligations.EveryStepFromTheInvariantsProceeds : Prop :=
  ∀ s : State, Inv s → Proceeds (step s)

/-- R38, R63: every step keeps both storages in canonical form, in any state. -/
def Obligations.EveryStepKeepsTheStorageCanonical : Prop :=
  ∀ s t : State, Memory.wf s.txFifo.mem = true → Memory.wf s.rxFifo.mem = true → step s = .next t →
    Memory.wf t.txFifo.mem = true ∧ Memory.wf t.rxFifo.mem = true

/-- R10: no step changes a parameter. -/
def Obligations.ParametersNeverChange : Prop :=
  ∀ s t : State, step s = .next t → t.params = s.params

/-- R6, R23, R24, R126: once configured, the block stays configured with the same divisor, driven output and pull-up until reset. -/
def Obligations.BaudIsFixedOnceConfigured : Prop :=
  ∀ s t : State, s.configured = true → step s = .next t → ¬ TakesReset s →
    t.configured = true ∧ t.ticksPerBit = s.ticksPerBit ∧
      (s.txOE = true → t.txOE = true) ∧ (s.rxPullEn = true → t.rxPullEn = true)

/-- R39: in a step that is neither reset nor CLRCNT each counter stays or grows by one, modulo 2^32: `txCount` only as a byte
leaves the TX FIFO and its frame starts, `rxCount` only as a byte completes, and `edgeCount` only as the engine begins to sample. -/
def Obligations.CountersMoveByOne : Prop :=
  ∀ s t : State, Inv s → step s = .next t → ¬ TakesReset s → ¬ TakesClear s →
    (t.txCount = s.txCount ∨
      (t.txCount = s.txCount + 1 ∧ t.txFifo.tail = (s.txFifo.tail + 1) % s.params.nTx ∧ t.bitsRemaining = 9)) ∧
    (t.rxCount = s.rxCount ∨ (t.rxCount = s.rxCount + 1 ∧ s.rxState = .sampling ∧ t.rxState = .idle)) ∧
    (t.edgeCount = s.edgeCount ∨
      (t.edgeCount = s.edgeCount + 1 ∧ s.rxState = .idle ∧ t.rxState = .sampling))

/-! ## The ring buffers -/

/-- R62, R67: with its indices in range a FIFO is full exactly at `N - 1` bytes and empty exactly at 0, and never holds more. -/
def Obligations.FifoIsFullExactlyAtCapacity : Prop :=
  ∀ (q : FifoId) (s : State), 2 ≤ slots s q → IndicesOk q s →
    (full q s = true ↔ fifoCount q s = slots s q - 1) ∧ (empty q s = true ↔ fifoCount q s = 0) ∧
      fifoCount q s ≤ slots s q - 1

/-- R76, R64, R65 for the TX FIFO: TXPUT appends its byte and TX_LOAD takes the oldest, which it frames. -/
def Obligations.TxFifoIsAQueue : Prop :=
  ∀ (s t : State) (b : Byte), 2 ≤ s.params.nTx → IndicesOk .tx s → Memory.wf s.txFifo.mem = true →
    (s.configured = true → full .tx s = false → exec (.txput b) s = .next t →
      contents .tx t = contents .tx s ++ [b]) ∧
    (empty .tx s = false → exec .txLoad s = .next t →
      ∃ c, contents .tx s = c :: contents .tx t ∧ t.frame = c.zeroExtend 10 ||| 0x100)

/-- R76, R64, R65 for the RX FIFO: RX_DONE appends its byte unless the FIFO is full, and RXGET takes the oldest, which it
returns. -/
def Obligations.RxFifoIsAQueue : Prop :=
  ∀ s t : State, 2 ≤ s.params.nRx → IndicesOk .rx s → Memory.wf s.rxFifo.mem = true →
    (full .rx s = false → exec .rxDone s = .next t → contents .rx t = contents .rx s ++ [s.accumulator]) ∧
    (full .rx s = true → exec .rxDone s = .next t → contents .rx t = contents .rx s) ∧
    (empty .rx s = false → exec .rxget s = .next t →
      ∃ c, contents .rx s = c :: contents .rx t ∧ t.rsp = some (0x100 ||| c.zeroExtend 32))

/-- R81: no instruction tells apart two states that differ only in FIFO slots holding no byte, so nothing depends on what reset left
in the storage (log 8). -/
def Obligations.UnheldSlotsAreNeverObserved : Prop :=
  ∀ (i : Instr) (s t s' : State), 2 ≤ s.params.nTx → 2 ≤ s.params.nRx → IndicesOk .tx s → IndicesOk .rx s →
    Memory.wf s.txFifo.mem = true → Memory.wf s.rxFifo.mem = true →
    Memory.wf t.txFifo.mem = true → Memory.wf t.rxFifo.mem = true → SameContents s t → exec i s = .next s' → ∃ t', exec i t = .next t' ∧ SameContents s' t'

/-- R191: a READSNAP of a test program, where no tick comes between its commands (R100), takes one step for the count and one for
each byte; it leaves every byte that waited, in order, and the terminator in the buffer, returns whether there was one, and empties
the RX FIFO. In every other interleaving too, a step in the middle of the drain leaves what the buffer will hold as it was at the
count, and keeps a byte that arrives in the FIFO for the next call (log 22). -/
def Obligations.ReadsnapDrainsWhatIsWaiting : Prop :=
  (∀ (s : State) (rest : List Item), Inv s → s.params.nRx ≤ 2 ^ 32 → s.held = none → s.env.job = none →
    s.env.agenda = .readsnap :: rest →
    ∃ t, Host.Core.run core (fifoCount .rx s + 1) s = .next t ∧ t.env.agenda = rest ∧ t.env.job = none ∧
      t.env.snap = some { buffer := contents .rx s ++ [0], any := decide (contents .rx s ≠ []) } ∧
      contents .rx t = [] ∧ t.timer = s.timer) ∧
  (∀ (s t : State) (got : List Byte) (more : Nat), Inv s → s.held = none → s.env.job = some (.snapGet got more) →
    more < fifoCount .rx s → step s = .next t → ¬ TakesReset s →
    (∃ (got' : List Byte) (more' : Nat) (late : List Byte), t.env.job = some (.snapGet got' more') ∧
      more' < fifoCount .rx t ∧ late.length ≤ 1 ∧
      got' ++ (contents .rx t).take (more' + 1) = got ++ (contents .rx s).take (more + 1) ∧
      (contents .rx t).drop (more' + 1) = (contents .rx s).drop (more + 1) ++ late) ∨
    (t.env.job = none ∧
      t.env.snap = some { buffer := got ++ (contents .rx s).take (more + 1) ++ [0], any := true } ∧
      contents .rx t = (contents .rx s).drop (more + 1)))

/-! ## Independence of the two directions -/

/-- R150: what a tick does to the TX side depends on the TX side and the clock alone: not on `rx_in`, nor on any RX-side state. -/
def Obligations.TxSideIgnoresTheRxSide : Prop :=
  ∀ s t s' t' : State, clockView s = clockView t → txView s = txView t →
    exec .tick s = .next s' → exec .tick t = .next t' → clockView s' = clockView t' ∧ txView s' = txView t'

/-- R168: what a tick does to the RX side depends on the level, the RX side and the clock alone: not on any TX-side state. -/
def Obligations.RxSideIgnoresTheTxSide : Prop :=
  ∀ s t s' t' : State, clockView s = clockView t → rxView s = rxView t → s.rxIn = t.rxIn →
    exec .tick s = .next s' → exec .tick t = .next t' → clockView s' = clockView t' ∧ rxView s' = rxView t'

/-! ## Timing in ticks -/

/-- R128, R131: an armed TX channel does nothing before the tick its compare value names, whatever the levels on `rx_in` and whether
or not the counter wraps in between, and its event fires in exactly that tick. -/
def Obligations.TxCompareFiresAfterItsDelay : Prop :=
  ∀ (s : State) (levels : List Bool), Inv s → s.txState = .framing →
    levels.length < ticksUntil s.params s.timer s.txCmp →
    ∃ t, runTicks levels s = .next t ∧ txView t = txView s ∧
      (txMatch (advanceTimer t) = true ↔ levels.length + 1 = ticksUntil s.params s.timer s.txCmp)

/-- R147: every transmitted byte occupies exactly 10 bit periods. The next tick is the TX_LOAD of `b`; then, `j` ticks later, the line
carries the start bit, the data bits least significant first, or the stop bit, according to `j div p`. -/
def Obligations.TransmittedByteTakesTenBitPeriods : Prop :=
  ∀ (s : State) (b : Byte) (queued : List Byte) (levels : List Bool), Inv s → s.txState = .framing →
    s.bitsRemaining = 0 → contents .tx s = b :: queued → ticksUntil s.params s.timer s.txCmp = 1 →
    0 < levels.length → levels.length ≤ 10 * s.ticksPerBit →
    ∃ t, runTicks levels s = .next t ∧ t.txState = .framing ∧ t.txCount = s.txCount + 1 ∧
      t.txLine =
        (let k := (levels.length - 1) / s.ticksPerBit
         if k = 0 then false else if k = 9 then true else b.getLsbD (k - 1))

/-- R147, R149: the tick right after those 10 bit periods loads the next byte if one is queued, else leaves the engine Idle with the
line high. -/
def Obligations.NextFrameOrIdleFollowsTheStopBit : Prop :=
  ∀ (s : State) (b : Byte) (queued : List Byte) (levels : List Bool), Inv s → s.txState = .framing →
    s.bitsRemaining = 0 → contents .tx s = b :: queued → ticksUntil s.params s.timer s.txCmp = 1 →
    levels.length = 10 * s.ticksPerBit + 1 →
    ∃ t, runTicks levels s = .next t ∧
      (queued = [] → t.txState = .idle ∧ t.txLine = true ∧ t.txCount = s.txCount + 1) ∧
      (queued ≠ [] → t.txState = .framing ∧ t.txLine = false ∧ t.txCount = s.txCount + 2)

/-- R165, R166: a falling edge on an armed detector makes exactly one byte: `8p + p div 2` ticks later, made of the eight levels
sampled at `p + p div 2 + k p` ticks after the edge, whatever the line does in between. -/
def Obligations.FallingEdgeMakesOneByteOfTheSampledLevels : Prop :=
  ∀ (s : State) (levels : List Bool), Inv s → edgeArmed s = true → s.edgeFlag = false → s.rxPrev = true →
    levels.head? = some false →
    levels.length = 8 * s.ticksPerBit + s.ticksPerBit / 2 + 1 →
    ∃ (t : State) (c : Byte), runTicks levels s = .next t ∧ t.rxState = .idle ∧ t.edgeFlag = false ∧
      t.accumulator = c ∧ t.edgeCount = s.edgeCount + 1 ∧
      (∀ k, k < 8 → c.getLsbD k = levels.getD (s.ticksPerBit + s.ticksPerBit / 2 + k * s.ticksPerBit) false) ∧
      contents .rx t = (if full .rx s then contents .rx s else contents .rx s ++ [c])

/-- R183: from any state of a configured block whose TX FIFO is full, some tick among the next `10 * ticksPerBit` frees a slot, so a
hold lasts no longer in any run where ticks keep coming. -/
def Obligations.HoldEndsWithinTenBitPeriods : Prop :=
  ∀ (s : State) (levels : List Bool), Inv s → full .tx s = true → levels.length = 10 * s.ticksPerBit →
    ∃ k t, k ≤ levels.length ∧ runTicks (levels.take k) s = .next t ∧ full .tx t = false

/-- R148: a byte queued on an Idle engine starts `ticksPerBit` ticks after its TXPUT. -/
def Obligations.ByteOnAnIdleEngineStartsOneBitPeriodLater : Prop :=
  ∀ (s t : State) (b : Byte) (levels : List Bool), Inv s → s.configured = true → s.txState = .idle →
    exec (.txput b) s = .next t → levels.length = s.ticksPerBit →
    ∃ t1 t2, runTicks levels.dropLast t = .next t1 ∧ t1.txLine = true ∧ t1.txCount = s.txCount ∧
      runTicks levels t = .next t2 ∧ t2.txLine = false ∧ t2.txCount = s.txCount + 1 ∧
      t2.frame = b.zeroExtend 10 ||| 0x100

/-- R167: over a loop-back wire the byte received equals the byte sent, and the receiver is Idle again before the next frame. The
next tick is the TX_LOAD of `b`, the line is high and the edge detector armed with nothing pending. -/
def Obligations.LoopBackDeliversTheByteSent : Prop :=
  ∀ (s : State) (b : Byte) (queued : List Byte), Inv s → s.txState = .framing → s.bitsRemaining = 0 →
    contents .tx s = b :: queued → ticksUntil s.params s.timer s.txCmp = 1 → s.txOE = true → s.txLine = true →
    s.rxState = .idle → s.rxPrev = true → s.edgeFlag = false → full .rx s = false →
    ∃ t, loopTicks (8 * s.ticksPerBit + s.ticksPerBit / 2 + 2) s = .next t ∧ t.rxState = .idle ∧
      t.edgeFlag = false ∧ contents .rx t = contents .rx s ++ [b]

/-- R167, R76: over a loop-back wire the bytes received equal the bytes sent, in order, as long as the RX FIFO does not fill, whatever
is queued. The start is that of the statement before, and `10 p` ticks later per byte the engine is Idle. -/
def Obligations.LoopBackDeliversEveryByteInOrder : Prop :=
  ∀ s : State, Inv s → s.txState = .framing → s.bitsRemaining = 0 → contents .tx s ≠ [] →
    ticksUntil s.params s.timer s.txCmp = 1 → s.txOE = true → s.txLine = true →
    s.rxState = .idle → s.rxPrev = true → s.edgeFlag = false →
    (contents .rx s).length + (contents .tx s).length ≤ s.params.nRx - 1 →
    ∃ t, loopTicks (10 * s.ticksPerBit * (contents .tx s).length + 1) s = .next t ∧ t.txState = .idle ∧
      t.txLine = true ∧ contents .tx t = [] ∧ contents .rx t = contents .rx s ++ contents .tx s
end

