-- ==== Sys2Proof/Laws/Decode.lean ====
section
/-! SUPPORT. The fields of a command word: what packing puts where, and that the three fields are the whole word. -/

namespace Sys2Proof

@[simp] theorem opField_packCmd (op sel : BitVec 4) (arg : BitVec 24) : opField (packCmd op sel arg) = op := by
  unfold opField packCmd
  ext i hi
  simp
  grind

@[simp] theorem selField_packCmd (op sel : BitVec 4) (arg : BitVec 24) : selField (packCmd op sel arg) = sel := by
  unfold selField packCmd
  ext i hi
  simp
  grind

@[simp] theorem argField_packCmd (op sel : BitVec 4) (arg : BitVec 24) : argField (packCmd op sel arg) = arg := by
  unfold argField packCmd
  ext i hi
  simp
  grind

/-- A word is its three fields. -/
theorem packCmd_fields (w : Word) : packCmd (opField w) (selField w) (argField w) = w := by
  unfold packCmd opField selField argField
  ext i hi
  simp
  grind

/-- The word of a `TXPUT` decodes to it. -/
@[simp] theorem decodeCmd_txputWord (b : Byte) : decodeCmd (txputWord b) = .ok (.txput b) := by
  have h1 : BitVec.extractLsb' 8 16 (BitVec.setWidth 24 b) = 0#16 := by
    ext i hi
    simp
  have h2 : BitVec.extractLsb' 0 8 (BitVec.setWidth 24 b) = b := by
    ext i hi
    simp
    grind
  simp [txputWord, decodeCmd, decodeTxput, h1, h2]

/-- Only the word of a `TXPUT` decodes to it. -/
theorem eq_txputWord_of_decodeCmd {w : Word} {b : Byte} (h : decodeCmd w = .ok (.txput b)) : w = txputWord b := by
  have hw := packCmd_fields w
  simp only [decodeCmd, decodeConfig, decodeTxput, decodePlain, decodeRdcnt] at h
  generalize opField w = o at *
  generalize selField w = s at *
  generalize argField w = a at *
  subst hw
  repeat' split at h
  all_goals cases h
  next h1 h2 h3 =>
    simp only [not_not] at h2 h3
    subst h1 h2
    have ha : BitVec.zeroExtend 24 (BitVec.extractLsb' 0 8 a) = a := by
      ext i hi
      have hb := congrArg (fun v => v.getLsbD (i - 8)) h3
      simp at hb
      simp
      grind
    rw [txputWord, ha]

end Sys2Proof
end

