-- ==== Sys2Proof/Laws/State.lean ====
section
/-! SUPPORT. One lemma per field per update of State: what each named update leaves in each field. -/

namespace Sys2Proof.Machine

/-! ## respond -/

@[simp] theorem respond_params (w : Word) (s : State) : (respond w s).params = s.params := rfl
@[simp] theorem respond_configured (w : Word) (s : State) : (respond w s).configured = s.configured := rfl
@[simp] theorem respond_ticksPerBit (w : Word) (s : State) : (respond w s).ticksPerBit = s.ticksPerBit := rfl
@[simp] theorem respond_timer (w : Word) (s : State) : (respond w s).timer = s.timer := rfl
@[simp] theorem respond_txCmp (w : Word) (s : State) : (respond w s).txCmp = s.txCmp := rfl
@[simp] theorem respond_rxCmp (w : Word) (s : State) : (respond w s).rxCmp = s.rxCmp := rfl
@[simp] theorem respond_txState (w : Word) (s : State) : (respond w s).txState = s.txState := rfl
@[simp] theorem respond_frame (w : Word) (s : State) : (respond w s).frame = s.frame := rfl
@[simp] theorem respond_bitsRemaining (w : Word) (s : State) : (respond w s).bitsRemaining = s.bitsRemaining := rfl
@[simp] theorem respond_txLine (w : Word) (s : State) : (respond w s).txLine = s.txLine := rfl
@[simp] theorem respond_txOE (w : Word) (s : State) : (respond w s).txOE = s.txOE := rfl
@[simp] theorem respond_rxState (w : Word) (s : State) : (respond w s).rxState = s.rxState := rfl
@[simp] theorem respond_accumulator (w : Word) (s : State) : (respond w s).accumulator = s.accumulator := rfl
@[simp] theorem respond_bitsSampled (w : Word) (s : State) : (respond w s).bitsSampled = s.bitsSampled := rfl
@[simp] theorem respond_rxPrev (w : Word) (s : State) : (respond w s).rxPrev = s.rxPrev := rfl
@[simp] theorem respond_edgeFlag (w : Word) (s : State) : (respond w s).edgeFlag = s.edgeFlag := rfl
@[simp] theorem respond_rxPullEn (w : Word) (s : State) : (respond w s).rxPullEn = s.rxPullEn := rfl
@[simp] theorem respond_txFifo (w : Word) (s : State) : (respond w s).txFifo = s.txFifo := rfl
@[simp] theorem respond_rxFifo (w : Word) (s : State) : (respond w s).rxFifo = s.rxFifo := rfl
@[simp] theorem respond_txCount (w : Word) (s : State) : (respond w s).txCount = s.txCount := rfl
@[simp] theorem respond_rxCount (w : Word) (s : State) : (respond w s).rxCount = s.rxCount := rfl
@[simp] theorem respond_edgeCount (w : Word) (s : State) : (respond w s).edgeCount = s.edgeCount := rfl
@[simp] theorem respond_fault (w : Word) (s : State) : (respond w s).fault = s.fault := rfl
@[simp] theorem respond_rxIn (w : Word) (s : State) : (respond w s).rxIn = s.rxIn := rfl
@[simp] theorem respond_rsp (w : Word) (s : State) : (respond w s).rsp = some w := rfl
@[simp] theorem respond_raised (w : Word) (s : State) : (respond w s).raised = s.raised := rfl
@[simp] theorem respond_held (w : Word) (s : State) : (respond w s).held = s.held := rfl
@[simp] theorem respond_env (w : Word) (s : State) : (respond w s).env = s.env := rfl

/-! ## hold -/

@[simp] theorem hold_params (w : Word) (s : State) : (hold w s).params = s.params := rfl
@[simp] theorem hold_configured (w : Word) (s : State) : (hold w s).configured = s.configured := rfl
@[simp] theorem hold_ticksPerBit (w : Word) (s : State) : (hold w s).ticksPerBit = s.ticksPerBit := rfl
@[simp] theorem hold_timer (w : Word) (s : State) : (hold w s).timer = s.timer := rfl
@[simp] theorem hold_txCmp (w : Word) (s : State) : (hold w s).txCmp = s.txCmp := rfl
@[simp] theorem hold_rxCmp (w : Word) (s : State) : (hold w s).rxCmp = s.rxCmp := rfl
@[simp] theorem hold_txState (w : Word) (s : State) : (hold w s).txState = s.txState := rfl
@[simp] theorem hold_frame (w : Word) (s : State) : (hold w s).frame = s.frame := rfl
@[simp] theorem hold_bitsRemaining (w : Word) (s : State) : (hold w s).bitsRemaining = s.bitsRemaining := rfl
@[simp] theorem hold_txLine (w : Word) (s : State) : (hold w s).txLine = s.txLine := rfl
@[simp] theorem hold_txOE (w : Word) (s : State) : (hold w s).txOE = s.txOE := rfl
@[simp] theorem hold_rxState (w : Word) (s : State) : (hold w s).rxState = s.rxState := rfl
@[simp] theorem hold_accumulator (w : Word) (s : State) : (hold w s).accumulator = s.accumulator := rfl
@[simp] theorem hold_bitsSampled (w : Word) (s : State) : (hold w s).bitsSampled = s.bitsSampled := rfl
@[simp] theorem hold_rxPrev (w : Word) (s : State) : (hold w s).rxPrev = s.rxPrev := rfl
@[simp] theorem hold_edgeFlag (w : Word) (s : State) : (hold w s).edgeFlag = s.edgeFlag := rfl
@[simp] theorem hold_rxPullEn (w : Word) (s : State) : (hold w s).rxPullEn = s.rxPullEn := rfl
@[simp] theorem hold_txFifo (w : Word) (s : State) : (hold w s).txFifo = s.txFifo := rfl
@[simp] theorem hold_rxFifo (w : Word) (s : State) : (hold w s).rxFifo = s.rxFifo := rfl
@[simp] theorem hold_txCount (w : Word) (s : State) : (hold w s).txCount = s.txCount := rfl
@[simp] theorem hold_rxCount (w : Word) (s : State) : (hold w s).rxCount = s.rxCount := rfl
@[simp] theorem hold_edgeCount (w : Word) (s : State) : (hold w s).edgeCount = s.edgeCount := rfl
@[simp] theorem hold_fault (w : Word) (s : State) : (hold w s).fault = s.fault := rfl
@[simp] theorem hold_rxIn (w : Word) (s : State) : (hold w s).rxIn = s.rxIn := rfl
@[simp] theorem hold_rsp (w : Word) (s : State) : (hold w s).rsp = s.rsp := rfl
@[simp] theorem hold_raised (w : Word) (s : State) : (hold w s).raised = s.raised := rfl
@[simp] theorem hold_held (w : Word) (s : State) : (hold w s).held = some w := rfl
@[simp] theorem hold_env (w : Word) (s : State) : (hold w s).env = s.env := rfl

/-! ## raise -/

@[simp] theorem raise_params (r : Raised) (s : State) : (raise r s).params = s.params := rfl
@[simp] theorem raise_configured (r : Raised) (s : State) : (raise r s).configured = s.configured := rfl
@[simp] theorem raise_ticksPerBit (r : Raised) (s : State) : (raise r s).ticksPerBit = s.ticksPerBit := rfl
@[simp] theorem raise_timer (r : Raised) (s : State) : (raise r s).timer = s.timer := rfl
@[simp] theorem raise_txCmp (r : Raised) (s : State) : (raise r s).txCmp = s.txCmp := rfl
@[simp] theorem raise_rxCmp (r : Raised) (s : State) : (raise r s).rxCmp = s.rxCmp := rfl
@[simp] theorem raise_txState (r : Raised) (s : State) : (raise r s).txState = s.txState := rfl
@[simp] theorem raise_frame (r : Raised) (s : State) : (raise r s).frame = s.frame := rfl
@[simp] theorem raise_bitsRemaining (r : Raised) (s : State) : (raise r s).bitsRemaining = s.bitsRemaining := rfl
@[simp] theorem raise_txLine (r : Raised) (s : State) : (raise r s).txLine = s.txLine := rfl
@[simp] theorem raise_txOE (r : Raised) (s : State) : (raise r s).txOE = s.txOE := rfl
@[simp] theorem raise_rxState (r : Raised) (s : State) : (raise r s).rxState = s.rxState := rfl
@[simp] theorem raise_accumulator (r : Raised) (s : State) : (raise r s).accumulator = s.accumulator := rfl
@[simp] theorem raise_bitsSampled (r : Raised) (s : State) : (raise r s).bitsSampled = s.bitsSampled := rfl
@[simp] theorem raise_rxPrev (r : Raised) (s : State) : (raise r s).rxPrev = s.rxPrev := rfl
@[simp] theorem raise_edgeFlag (r : Raised) (s : State) : (raise r s).edgeFlag = s.edgeFlag := rfl
@[simp] theorem raise_rxPullEn (r : Raised) (s : State) : (raise r s).rxPullEn = s.rxPullEn := rfl
@[simp] theorem raise_txFifo (r : Raised) (s : State) : (raise r s).txFifo = s.txFifo := rfl
@[simp] theorem raise_rxFifo (r : Raised) (s : State) : (raise r s).rxFifo = s.rxFifo := rfl
@[simp] theorem raise_txCount (r : Raised) (s : State) : (raise r s).txCount = s.txCount := rfl
@[simp] theorem raise_rxCount (r : Raised) (s : State) : (raise r s).rxCount = s.rxCount := rfl
@[simp] theorem raise_edgeCount (r : Raised) (s : State) : (raise r s).edgeCount = s.edgeCount := rfl
@[simp] theorem raise_fault (r : Raised) (s : State) : (raise r s).fault = if s.fault = 0 then faultCode r else s.fault := rfl
@[simp] theorem raise_rxIn (r : Raised) (s : State) : (raise r s).rxIn = s.rxIn := rfl
@[simp] theorem raise_rsp (r : Raised) (s : State) : (raise r s).rsp = some 0 := rfl
@[simp] theorem raise_raised (r : Raised) (s : State) : (raise r s).raised = some r := rfl
@[simp] theorem raise_held (r : Raised) (s : State) : (raise r s).held = s.held := rfl
@[simp] theorem raise_env (r : Raised) (s : State) : (raise r s).env = s.env := rfl

/-! ## driveRx -/

@[simp] theorem driveRx_params (l : Bool) (s : State) : (driveRx l s).params = s.params := rfl
@[simp] theorem driveRx_configured (l : Bool) (s : State) : (driveRx l s).configured = s.configured := rfl
@[simp] theorem driveRx_ticksPerBit (l : Bool) (s : State) : (driveRx l s).ticksPerBit = s.ticksPerBit := rfl
@[simp] theorem driveRx_timer (l : Bool) (s : State) : (driveRx l s).timer = s.timer := rfl
@[simp] theorem driveRx_txCmp (l : Bool) (s : State) : (driveRx l s).txCmp = s.txCmp := rfl
@[simp] theorem driveRx_rxCmp (l : Bool) (s : State) : (driveRx l s).rxCmp = s.rxCmp := rfl
@[simp] theorem driveRx_txState (l : Bool) (s : State) : (driveRx l s).txState = s.txState := rfl
@[simp] theorem driveRx_frame (l : Bool) (s : State) : (driveRx l s).frame = s.frame := rfl
@[simp] theorem driveRx_bitsRemaining (l : Bool) (s : State) : (driveRx l s).bitsRemaining = s.bitsRemaining := rfl
@[simp] theorem driveRx_txLine (l : Bool) (s : State) : (driveRx l s).txLine = s.txLine := rfl
@[simp] theorem driveRx_txOE (l : Bool) (s : State) : (driveRx l s).txOE = s.txOE := rfl
@[simp] theorem driveRx_rxState (l : Bool) (s : State) : (driveRx l s).rxState = s.rxState := rfl
@[simp] theorem driveRx_accumulator (l : Bool) (s : State) : (driveRx l s).accumulator = s.accumulator := rfl
@[simp] theorem driveRx_bitsSampled (l : Bool) (s : State) : (driveRx l s).bitsSampled = s.bitsSampled := rfl
@[simp] theorem driveRx_rxPrev (l : Bool) (s : State) : (driveRx l s).rxPrev = s.rxPrev := rfl
@[simp] theorem driveRx_edgeFlag (l : Bool) (s : State) : (driveRx l s).edgeFlag = s.edgeFlag := rfl
@[simp] theorem driveRx_rxPullEn (l : Bool) (s : State) : (driveRx l s).rxPullEn = s.rxPullEn := rfl
@[simp] theorem driveRx_txFifo (l : Bool) (s : State) : (driveRx l s).txFifo = s.txFifo := rfl
@[simp] theorem driveRx_rxFifo (l : Bool) (s : State) : (driveRx l s).rxFifo = s.rxFifo := rfl
@[simp] theorem driveRx_txCount (l : Bool) (s : State) : (driveRx l s).txCount = s.txCount := rfl
@[simp] theorem driveRx_rxCount (l : Bool) (s : State) : (driveRx l s).rxCount = s.rxCount := rfl
@[simp] theorem driveRx_edgeCount (l : Bool) (s : State) : (driveRx l s).edgeCount = s.edgeCount := rfl
@[simp] theorem driveRx_fault (l : Bool) (s : State) : (driveRx l s).fault = s.fault := rfl
@[simp] theorem driveRx_rxIn (l : Bool) (s : State) : (driveRx l s).rxIn = l := rfl
@[simp] theorem driveRx_rsp (l : Bool) (s : State) : (driveRx l s).rsp = s.rsp := rfl
@[simp] theorem driveRx_raised (l : Bool) (s : State) : (driveRx l s).raised = s.raised := rfl
@[simp] theorem driveRx_held (l : Bool) (s : State) : (driveRx l s).held = s.held := rfl
@[simp] theorem driveRx_env (l : Bool) (s : State) : (driveRx l s).env = s.env := rfl

/-! ## advanceTimer -/

@[simp] theorem advanceTimer_params (s : State) : (advanceTimer s).params = s.params := rfl
@[simp] theorem advanceTimer_configured (s : State) : (advanceTimer s).configured = s.configured := rfl
@[simp] theorem advanceTimer_ticksPerBit (s : State) : (advanceTimer s).ticksPerBit = s.ticksPerBit := rfl
@[simp] theorem advanceTimer_timer (s : State) : (advanceTimer s).timer = wrap s.params (s.timer + 1) := rfl
@[simp] theorem advanceTimer_txCmp (s : State) : (advanceTimer s).txCmp = s.txCmp := rfl
@[simp] theorem advanceTimer_rxCmp (s : State) : (advanceTimer s).rxCmp = s.rxCmp := rfl
@[simp] theorem advanceTimer_txState (s : State) : (advanceTimer s).txState = s.txState := rfl
@[simp] theorem advanceTimer_frame (s : State) : (advanceTimer s).frame = s.frame := rfl
@[simp] theorem advanceTimer_bitsRemaining (s : State) : (advanceTimer s).bitsRemaining = s.bitsRemaining := rfl
@[simp] theorem advanceTimer_txLine (s : State) : (advanceTimer s).txLine = s.txLine := rfl
@[simp] theorem advanceTimer_txOE (s : State) : (advanceTimer s).txOE = s.txOE := rfl
@[simp] theorem advanceTimer_rxState (s : State) : (advanceTimer s).rxState = s.rxState := rfl
@[simp] theorem advanceTimer_accumulator (s : State) : (advanceTimer s).accumulator = s.accumulator := rfl
@[simp] theorem advanceTimer_bitsSampled (s : State) : (advanceTimer s).bitsSampled = s.bitsSampled := rfl
@[simp] theorem advanceTimer_rxPrev (s : State) : (advanceTimer s).rxPrev = s.rxPrev := rfl
@[simp] theorem advanceTimer_edgeFlag (s : State) : (advanceTimer s).edgeFlag = s.edgeFlag := rfl
@[simp] theorem advanceTimer_rxPullEn (s : State) : (advanceTimer s).rxPullEn = s.rxPullEn := rfl
@[simp] theorem advanceTimer_txFifo (s : State) : (advanceTimer s).txFifo = s.txFifo := rfl
@[simp] theorem advanceTimer_rxFifo (s : State) : (advanceTimer s).rxFifo = s.rxFifo := rfl
@[simp] theorem advanceTimer_txCount (s : State) : (advanceTimer s).txCount = s.txCount := rfl
@[simp] theorem advanceTimer_rxCount (s : State) : (advanceTimer s).rxCount = s.rxCount := rfl
@[simp] theorem advanceTimer_edgeCount (s : State) : (advanceTimer s).edgeCount = s.edgeCount := rfl
@[simp] theorem advanceTimer_fault (s : State) : (advanceTimer s).fault = s.fault := rfl
@[simp] theorem advanceTimer_rxIn (s : State) : (advanceTimer s).rxIn = s.rxIn := rfl
@[simp] theorem advanceTimer_rsp (s : State) : (advanceTimer s).rsp = s.rsp := rfl
@[simp] theorem advanceTimer_raised (s : State) : (advanceTimer s).raised = s.raised := rfl
@[simp] theorem advanceTimer_held (s : State) : (advanceTimer s).held = s.held := rfl
@[simp] theorem advanceTimer_env (s : State) : (advanceTimer s).env = s.env := rfl

/-! ## edgeLatch -/

@[simp] theorem edgeLatch_params (l : Bool) (s : State) : (edgeLatch l s).params = s.params := rfl
@[simp] theorem edgeLatch_configured (l : Bool) (s : State) : (edgeLatch l s).configured = s.configured := rfl
@[simp] theorem edgeLatch_ticksPerBit (l : Bool) (s : State) : (edgeLatch l s).ticksPerBit = s.ticksPerBit := rfl
@[simp] theorem edgeLatch_timer (l : Bool) (s : State) : (edgeLatch l s).timer = s.timer := rfl
@[simp] theorem edgeLatch_txCmp (l : Bool) (s : State) : (edgeLatch l s).txCmp = s.txCmp := rfl
@[simp] theorem edgeLatch_rxCmp (l : Bool) (s : State) : (edgeLatch l s).rxCmp = s.rxCmp := rfl
@[simp] theorem edgeLatch_txState (l : Bool) (s : State) : (edgeLatch l s).txState = s.txState := rfl
@[simp] theorem edgeLatch_frame (l : Bool) (s : State) : (edgeLatch l s).frame = s.frame := rfl
@[simp] theorem edgeLatch_bitsRemaining (l : Bool) (s : State) : (edgeLatch l s).bitsRemaining = s.bitsRemaining := rfl
@[simp] theorem edgeLatch_txLine (l : Bool) (s : State) : (edgeLatch l s).txLine = s.txLine := rfl
@[simp] theorem edgeLatch_txOE (l : Bool) (s : State) : (edgeLatch l s).txOE = s.txOE := rfl
@[simp] theorem edgeLatch_rxState (l : Bool) (s : State) : (edgeLatch l s).rxState = s.rxState := rfl
@[simp] theorem edgeLatch_accumulator (l : Bool) (s : State) : (edgeLatch l s).accumulator = s.accumulator := rfl
@[simp] theorem edgeLatch_bitsSampled (l : Bool) (s : State) : (edgeLatch l s).bitsSampled = s.bitsSampled := rfl
@[simp] theorem edgeLatch_rxPrev (l : Bool) (s : State) : (edgeLatch l s).rxPrev = l := rfl
@[simp] theorem edgeLatch_edgeFlag (l : Bool) (s : State) : (edgeLatch l s).edgeFlag = if fallingEdge l s then true else s.edgeFlag := rfl
@[simp] theorem edgeLatch_rxPullEn (l : Bool) (s : State) : (edgeLatch l s).rxPullEn = s.rxPullEn := rfl
@[simp] theorem edgeLatch_txFifo (l : Bool) (s : State) : (edgeLatch l s).txFifo = s.txFifo := rfl
@[simp] theorem edgeLatch_rxFifo (l : Bool) (s : State) : (edgeLatch l s).rxFifo = s.rxFifo := rfl
@[simp] theorem edgeLatch_txCount (l : Bool) (s : State) : (edgeLatch l s).txCount = s.txCount := rfl
@[simp] theorem edgeLatch_rxCount (l : Bool) (s : State) : (edgeLatch l s).rxCount = s.rxCount := rfl
@[simp] theorem edgeLatch_edgeCount (l : Bool) (s : State) : (edgeLatch l s).edgeCount = s.edgeCount := rfl
@[simp] theorem edgeLatch_fault (l : Bool) (s : State) : (edgeLatch l s).fault = s.fault := rfl
@[simp] theorem edgeLatch_rxIn (l : Bool) (s : State) : (edgeLatch l s).rxIn = s.rxIn := rfl
@[simp] theorem edgeLatch_rsp (l : Bool) (s : State) : (edgeLatch l s).rsp = s.rsp := rfl
@[simp] theorem edgeLatch_raised (l : Bool) (s : State) : (edgeLatch l s).raised = s.raised := rfl
@[simp] theorem edgeLatch_held (l : Bool) (s : State) : (edgeLatch l s).held = s.held := rfl
@[simp] theorem edgeLatch_env (l : Bool) (s : State) : (edgeLatch l s).env = s.env := rfl

/-! ## rxEdge -/

@[simp] theorem rxEdge_params (s : State) : (rxEdge s).params = s.params := rfl
@[simp] theorem rxEdge_configured (s : State) : (rxEdge s).configured = s.configured := rfl
@[simp] theorem rxEdge_ticksPerBit (s : State) : (rxEdge s).ticksPerBit = s.ticksPerBit := rfl
@[simp] theorem rxEdge_timer (s : State) : (rxEdge s).timer = s.timer := rfl
@[simp] theorem rxEdge_txCmp (s : State) : (rxEdge s).txCmp = s.txCmp := rfl
@[simp] theorem rxEdge_rxCmp (s : State) : (rxEdge s).rxCmp = wrap s.params (s.timer + firstSampleDelay s.ticksPerBit) := rfl
@[simp] theorem rxEdge_txState (s : State) : (rxEdge s).txState = s.txState := rfl
@[simp] theorem rxEdge_frame (s : State) : (rxEdge s).frame = s.frame := rfl
@[simp] theorem rxEdge_bitsRemaining (s : State) : (rxEdge s).bitsRemaining = s.bitsRemaining := rfl
@[simp] theorem rxEdge_txLine (s : State) : (rxEdge s).txLine = s.txLine := rfl
@[simp] theorem rxEdge_txOE (s : State) : (rxEdge s).txOE = s.txOE := rfl
@[simp] theorem rxEdge_rxState (s : State) : (rxEdge s).rxState = .sampling := rfl
@[simp] theorem rxEdge_accumulator (s : State) : (rxEdge s).accumulator = 0 := rfl
@[simp] theorem rxEdge_bitsSampled (s : State) : (rxEdge s).bitsSampled = 0 := rfl
@[simp] theorem rxEdge_rxPrev (s : State) : (rxEdge s).rxPrev = s.rxPrev := rfl
@[simp] theorem rxEdge_edgeFlag (s : State) : (rxEdge s).edgeFlag = false := rfl
@[simp] theorem rxEdge_rxPullEn (s : State) : (rxEdge s).rxPullEn = s.rxPullEn := rfl
@[simp] theorem rxEdge_txFifo (s : State) : (rxEdge s).txFifo = s.txFifo := rfl
@[simp] theorem rxEdge_rxFifo (s : State) : (rxEdge s).rxFifo = s.rxFifo := rfl
@[simp] theorem rxEdge_txCount (s : State) : (rxEdge s).txCount = s.txCount := rfl
@[simp] theorem rxEdge_rxCount (s : State) : (rxEdge s).rxCount = s.rxCount := rfl
@[simp] theorem rxEdge_edgeCount (s : State) : (rxEdge s).edgeCount = s.edgeCount + 1 := rfl
@[simp] theorem rxEdge_fault (s : State) : (rxEdge s).fault = s.fault := rfl
@[simp] theorem rxEdge_rxIn (s : State) : (rxEdge s).rxIn = s.rxIn := rfl
@[simp] theorem rxEdge_rsp (s : State) : (rxEdge s).rsp = s.rsp := rfl
@[simp] theorem rxEdge_raised (s : State) : (rxEdge s).raised = s.raised := rfl
@[simp] theorem rxEdge_held (s : State) : (rxEdge s).held = s.held := rfl
@[simp] theorem rxEdge_env (s : State) : (rxEdge s).env = s.env := rfl

/-! ## endByte -/

@[simp] theorem endByte_params (st : Bool) (s : State) : (endByte st s).params = s.params := rfl
@[simp] theorem endByte_configured (st : Bool) (s : State) : (endByte st s).configured = s.configured := rfl
@[simp] theorem endByte_ticksPerBit (st : Bool) (s : State) : (endByte st s).ticksPerBit = s.ticksPerBit := rfl
@[simp] theorem endByte_timer (st : Bool) (s : State) : (endByte st s).timer = s.timer := rfl
@[simp] theorem endByte_txCmp (st : Bool) (s : State) : (endByte st s).txCmp = s.txCmp := rfl
@[simp] theorem endByte_rxCmp (st : Bool) (s : State) : (endByte st s).rxCmp = s.rxCmp := rfl
@[simp] theorem endByte_txState (st : Bool) (s : State) : (endByte st s).txState = s.txState := rfl
@[simp] theorem endByte_frame (st : Bool) (s : State) : (endByte st s).frame = s.frame := rfl
@[simp] theorem endByte_bitsRemaining (st : Bool) (s : State) : (endByte st s).bitsRemaining = s.bitsRemaining := rfl
@[simp] theorem endByte_txLine (st : Bool) (s : State) : (endByte st s).txLine = s.txLine := rfl
@[simp] theorem endByte_txOE (st : Bool) (s : State) : (endByte st s).txOE = s.txOE := rfl
@[simp] theorem endByte_rxState (st : Bool) (s : State) : (endByte st s).rxState = .idle := rfl
@[simp] theorem endByte_accumulator (st : Bool) (s : State) : (endByte st s).accumulator = s.accumulator := rfl
@[simp] theorem endByte_bitsSampled (st : Bool) (s : State) : (endByte st s).bitsSampled = s.bitsSampled := rfl
@[simp] theorem endByte_rxPrev (st : Bool) (s : State) : (endByte st s).rxPrev = s.rxPrev := rfl
@[simp] theorem endByte_edgeFlag (st : Bool) (s : State) : (endByte st s).edgeFlag = false := rfl
@[simp] theorem endByte_rxPullEn (st : Bool) (s : State) : (endByte st s).rxPullEn = s.rxPullEn := rfl
@[simp] theorem endByte_txFifo (st : Bool) (s : State) : (endByte st s).txFifo = s.txFifo := rfl
@[simp] theorem endByte_rxFifo (st : Bool) (s : State) : (endByte st s).rxFifo = s.rxFifo := rfl
@[simp] theorem endByte_txCount (st : Bool) (s : State) : (endByte st s).txCount = s.txCount := rfl
@[simp] theorem endByte_rxCount (st : Bool) (s : State) : (endByte st s).rxCount = if st || s.params.rxCountDrops then s.rxCount + 1 else s.rxCount := rfl
@[simp] theorem endByte_edgeCount (st : Bool) (s : State) : (endByte st s).edgeCount = s.edgeCount := rfl
@[simp] theorem endByte_fault (st : Bool) (s : State) : (endByte st s).fault = s.fault := rfl
@[simp] theorem endByte_rxIn (st : Bool) (s : State) : (endByte st s).rxIn = s.rxIn := rfl
@[simp] theorem endByte_rsp (st : Bool) (s : State) : (endByte st s).rsp = s.rsp := rfl
@[simp] theorem endByte_raised (st : Bool) (s : State) : (endByte st s).raised = s.raised := rfl
@[simp] theorem endByte_held (st : Bool) (s : State) : (endByte st s).held = s.held := rfl
@[simp] theorem endByte_env (st : Bool) (s : State) : (endByte st s).env = s.env := rfl

/-! ## sampleBit -/

@[simp] theorem sampleBit_params (l : Bool) (s : State) : (sampleBit l s).params = s.params := rfl
@[simp] theorem sampleBit_configured (l : Bool) (s : State) : (sampleBit l s).configured = s.configured := rfl
@[simp] theorem sampleBit_ticksPerBit (l : Bool) (s : State) : (sampleBit l s).ticksPerBit = s.ticksPerBit := rfl
@[simp] theorem sampleBit_timer (l : Bool) (s : State) : (sampleBit l s).timer = s.timer := rfl
@[simp] theorem sampleBit_txCmp (l : Bool) (s : State) : (sampleBit l s).txCmp = s.txCmp := rfl
@[simp] theorem sampleBit_rxCmp (l : Bool) (s : State) : (sampleBit l s).rxCmp = wrap s.params (s.rxCmp + s.ticksPerBit) := rfl
@[simp] theorem sampleBit_txState (l : Bool) (s : State) : (sampleBit l s).txState = s.txState := rfl
@[simp] theorem sampleBit_frame (l : Bool) (s : State) : (sampleBit l s).frame = s.frame := rfl
@[simp] theorem sampleBit_bitsRemaining (l : Bool) (s : State) : (sampleBit l s).bitsRemaining = s.bitsRemaining := rfl
@[simp] theorem sampleBit_txLine (l : Bool) (s : State) : (sampleBit l s).txLine = s.txLine := rfl
@[simp] theorem sampleBit_txOE (l : Bool) (s : State) : (sampleBit l s).txOE = s.txOE := rfl
@[simp] theorem sampleBit_rxState (l : Bool) (s : State) : (sampleBit l s).rxState = s.rxState := rfl
@[simp] theorem sampleBit_accumulator (l : Bool) (s : State) : (sampleBit l s).accumulator = shiftIn s.accumulator l := rfl
@[simp] theorem sampleBit_bitsSampled (l : Bool) (s : State) : (sampleBit l s).bitsSampled = s.bitsSampled + 1 := rfl
@[simp] theorem sampleBit_rxPrev (l : Bool) (s : State) : (sampleBit l s).rxPrev = s.rxPrev := rfl
@[simp] theorem sampleBit_edgeFlag (l : Bool) (s : State) : (sampleBit l s).edgeFlag = s.edgeFlag := rfl
@[simp] theorem sampleBit_rxPullEn (l : Bool) (s : State) : (sampleBit l s).rxPullEn = s.rxPullEn := rfl
@[simp] theorem sampleBit_txFifo (l : Bool) (s : State) : (sampleBit l s).txFifo = s.txFifo := rfl
@[simp] theorem sampleBit_rxFifo (l : Bool) (s : State) : (sampleBit l s).rxFifo = s.rxFifo := rfl
@[simp] theorem sampleBit_txCount (l : Bool) (s : State) : (sampleBit l s).txCount = s.txCount := rfl
@[simp] theorem sampleBit_rxCount (l : Bool) (s : State) : (sampleBit l s).rxCount = s.rxCount := rfl
@[simp] theorem sampleBit_edgeCount (l : Bool) (s : State) : (sampleBit l s).edgeCount = s.edgeCount := rfl
@[simp] theorem sampleBit_fault (l : Bool) (s : State) : (sampleBit l s).fault = s.fault := rfl
@[simp] theorem sampleBit_rxIn (l : Bool) (s : State) : (sampleBit l s).rxIn = s.rxIn := rfl
@[simp] theorem sampleBit_rsp (l : Bool) (s : State) : (sampleBit l s).rsp = s.rsp := rfl
@[simp] theorem sampleBit_raised (l : Bool) (s : State) : (sampleBit l s).raised = s.raised := rfl
@[simp] theorem sampleBit_held (l : Bool) (s : State) : (sampleBit l s).held = s.held := rfl
@[simp] theorem sampleBit_env (l : Bool) (s : State) : (sampleBit l s).env = s.env := rfl

/-! ## kick -/

@[simp] theorem kick_params (s : State) : (kick s).params = s.params := by unfold kick; split <;> rfl
@[simp] theorem kick_configured (s : State) : (kick s).configured = s.configured := by unfold kick; split <;> rfl
@[simp] theorem kick_ticksPerBit (s : State) : (kick s).ticksPerBit = s.ticksPerBit := by unfold kick; split <;> rfl
@[simp] theorem kick_timer (s : State) : (kick s).timer = s.timer := by unfold kick; split <;> rfl
@[simp] theorem kick_txCmp (s : State) : (kick s).txCmp = if s.txState = .idle then wrap s.params (s.timer + s.ticksPerBit) else s.txCmp := by unfold kick; split <;> rfl
@[simp] theorem kick_rxCmp (s : State) : (kick s).rxCmp = s.rxCmp := by unfold kick; split <;> rfl
@[simp] theorem kick_txState (s : State) : (kick s).txState = .framing := by
  unfold kick; split
  · rfl
  · rename_i h; cases hs : s.txState <;> simp_all
@[simp] theorem kick_frame (s : State) : (kick s).frame = s.frame := by unfold kick; split <;> rfl
@[simp] theorem kick_bitsRemaining (s : State) : (kick s).bitsRemaining = s.bitsRemaining := by unfold kick; split <;> rfl
@[simp] theorem kick_txLine (s : State) : (kick s).txLine = s.txLine := by unfold kick; split <;> rfl
@[simp] theorem kick_txOE (s : State) : (kick s).txOE = s.txOE := by unfold kick; split <;> rfl
@[simp] theorem kick_rxState (s : State) : (kick s).rxState = s.rxState := by unfold kick; split <;> rfl
@[simp] theorem kick_accumulator (s : State) : (kick s).accumulator = s.accumulator := by unfold kick; split <;> rfl
@[simp] theorem kick_bitsSampled (s : State) : (kick s).bitsSampled = s.bitsSampled := by unfold kick; split <;> rfl
@[simp] theorem kick_rxPrev (s : State) : (kick s).rxPrev = s.rxPrev := by unfold kick; split <;> rfl
@[simp] theorem kick_edgeFlag (s : State) : (kick s).edgeFlag = s.edgeFlag := by unfold kick; split <;> rfl
@[simp] theorem kick_rxPullEn (s : State) : (kick s).rxPullEn = s.rxPullEn := by unfold kick; split <;> rfl
@[simp] theorem kick_txFifo (s : State) : (kick s).txFifo = s.txFifo := by unfold kick; split <;> rfl
@[simp] theorem kick_rxFifo (s : State) : (kick s).rxFifo = s.rxFifo := by unfold kick; split <;> rfl
@[simp] theorem kick_txCount (s : State) : (kick s).txCount = s.txCount := by unfold kick; split <;> rfl
@[simp] theorem kick_rxCount (s : State) : (kick s).rxCount = s.rxCount := by unfold kick; split <;> rfl
@[simp] theorem kick_edgeCount (s : State) : (kick s).edgeCount = s.edgeCount := by unfold kick; split <;> rfl
@[simp] theorem kick_fault (s : State) : (kick s).fault = s.fault := by unfold kick; split <;> rfl
@[simp] theorem kick_rxIn (s : State) : (kick s).rxIn = s.rxIn := by unfold kick; split <;> rfl
@[simp] theorem kick_rsp (s : State) : (kick s).rsp = s.rsp := by unfold kick; split <;> rfl
@[simp] theorem kick_raised (s : State) : (kick s).raised = s.raised := by unfold kick; split <;> rfl
@[simp] theorem kick_held (s : State) : (kick s).held = s.held := by unfold kick; split <;> rfl
@[simp] theorem kick_env (s : State) : (kick s).env = s.env := by unfold kick; split <;> rfl

/-! ## txShift -/

@[simp] theorem txShift_params (s : State) : (txShift s).params = s.params := rfl
@[simp] theorem txShift_configured (s : State) : (txShift s).configured = s.configured := rfl
@[simp] theorem txShift_ticksPerBit (s : State) : (txShift s).ticksPerBit = s.ticksPerBit := rfl
@[simp] theorem txShift_timer (s : State) : (txShift s).timer = s.timer := rfl
@[simp] theorem txShift_txCmp (s : State) : (txShift s).txCmp = wrap s.params (s.txCmp + s.ticksPerBit) := rfl
@[simp] theorem txShift_rxCmp (s : State) : (txShift s).rxCmp = s.rxCmp := rfl
@[simp] theorem txShift_txState (s : State) : (txShift s).txState = s.txState := rfl
@[simp] theorem txShift_frame (s : State) : (txShift s).frame = s.frame >>> 1 := rfl
@[simp] theorem txShift_bitsRemaining (s : State) : (txShift s).bitsRemaining = s.bitsRemaining - 1 := rfl
@[simp] theorem txShift_txLine (s : State) : (txShift s).txLine = lineBit s.frame := rfl
@[simp] theorem txShift_txOE (s : State) : (txShift s).txOE = s.txOE := rfl
@[simp] theorem txShift_rxState (s : State) : (txShift s).rxState = s.rxState := rfl
@[simp] theorem txShift_accumulator (s : State) : (txShift s).accumulator = s.accumulator := rfl
@[simp] theorem txShift_bitsSampled (s : State) : (txShift s).bitsSampled = s.bitsSampled := rfl
@[simp] theorem txShift_rxPrev (s : State) : (txShift s).rxPrev = s.rxPrev := rfl
@[simp] theorem txShift_edgeFlag (s : State) : (txShift s).edgeFlag = s.edgeFlag := rfl
@[simp] theorem txShift_rxPullEn (s : State) : (txShift s).rxPullEn = s.rxPullEn := rfl
@[simp] theorem txShift_txFifo (s : State) : (txShift s).txFifo = s.txFifo := rfl
@[simp] theorem txShift_rxFifo (s : State) : (txShift s).rxFifo = s.rxFifo := rfl
@[simp] theorem txShift_txCount (s : State) : (txShift s).txCount = s.txCount := rfl
@[simp] theorem txShift_rxCount (s : State) : (txShift s).rxCount = s.rxCount := rfl
@[simp] theorem txShift_edgeCount (s : State) : (txShift s).edgeCount = s.edgeCount := rfl
@[simp] theorem txShift_fault (s : State) : (txShift s).fault = s.fault := rfl
@[simp] theorem txShift_rxIn (s : State) : (txShift s).rxIn = s.rxIn := rfl
@[simp] theorem txShift_rsp (s : State) : (txShift s).rsp = s.rsp := rfl
@[simp] theorem txShift_raised (s : State) : (txShift s).raised = s.raised := rfl
@[simp] theorem txShift_held (s : State) : (txShift s).held = s.held := rfl
@[simp] theorem txShift_env (s : State) : (txShift s).env = s.env := rfl

/-! ## startFrame -/

@[simp] theorem startFrame_params (b : Byte) (s : State) : (startFrame b s).params = s.params := rfl
@[simp] theorem startFrame_configured (b : Byte) (s : State) : (startFrame b s).configured = s.configured := rfl
@[simp] theorem startFrame_ticksPerBit (b : Byte) (s : State) : (startFrame b s).ticksPerBit = s.ticksPerBit := rfl
@[simp] theorem startFrame_timer (b : Byte) (s : State) : (startFrame b s).timer = s.timer := rfl
@[simp] theorem startFrame_txCmp (b : Byte) (s : State) : (startFrame b s).txCmp = wrap s.params (s.txCmp + s.ticksPerBit) := rfl
@[simp] theorem startFrame_rxCmp (b : Byte) (s : State) : (startFrame b s).rxCmp = s.rxCmp := rfl
@[simp] theorem startFrame_txState (b : Byte) (s : State) : (startFrame b s).txState = s.txState := rfl
@[simp] theorem startFrame_frame (b : Byte) (s : State) : (startFrame b s).frame = buildFrame b >>> 1 := rfl
@[simp] theorem startFrame_bitsRemaining (b : Byte) (s : State) : (startFrame b s).bitsRemaining = 9 := rfl
@[simp] theorem startFrame_txLine (b : Byte) (s : State) : (startFrame b s).txLine = lineBit (buildFrame b) := rfl
@[simp] theorem startFrame_txOE (b : Byte) (s : State) : (startFrame b s).txOE = s.txOE := rfl
@[simp] theorem startFrame_rxState (b : Byte) (s : State) : (startFrame b s).rxState = s.rxState := rfl
@[simp] theorem startFrame_accumulator (b : Byte) (s : State) : (startFrame b s).accumulator = s.accumulator := rfl
@[simp] theorem startFrame_bitsSampled (b : Byte) (s : State) : (startFrame b s).bitsSampled = s.bitsSampled := rfl
@[simp] theorem startFrame_rxPrev (b : Byte) (s : State) : (startFrame b s).rxPrev = s.rxPrev := rfl
@[simp] theorem startFrame_edgeFlag (b : Byte) (s : State) : (startFrame b s).edgeFlag = s.edgeFlag := rfl
@[simp] theorem startFrame_rxPullEn (b : Byte) (s : State) : (startFrame b s).rxPullEn = s.rxPullEn := rfl
@[simp] theorem startFrame_txFifo (b : Byte) (s : State) : (startFrame b s).txFifo = s.txFifo := rfl
@[simp] theorem startFrame_rxFifo (b : Byte) (s : State) : (startFrame b s).rxFifo = s.rxFifo := rfl
@[simp] theorem startFrame_txCount (b : Byte) (s : State) : (startFrame b s).txCount = s.txCount + 1 := rfl
@[simp] theorem startFrame_rxCount (b : Byte) (s : State) : (startFrame b s).rxCount = s.rxCount := rfl
@[simp] theorem startFrame_edgeCount (b : Byte) (s : State) : (startFrame b s).edgeCount = s.edgeCount := rfl
@[simp] theorem startFrame_fault (b : Byte) (s : State) : (startFrame b s).fault = s.fault := rfl
@[simp] theorem startFrame_rxIn (b : Byte) (s : State) : (startFrame b s).rxIn = s.rxIn := rfl
@[simp] theorem startFrame_rsp (b : Byte) (s : State) : (startFrame b s).rsp = s.rsp := rfl
@[simp] theorem startFrame_raised (b : Byte) (s : State) : (startFrame b s).raised = s.raised := rfl
@[simp] theorem startFrame_held (b : Byte) (s : State) : (startFrame b s).held = s.held := rfl
@[simp] theorem startFrame_env (b : Byte) (s : State) : (startFrame b s).env = s.env := rfl

/-! ## txIdle -/

@[simp] theorem txIdle_params (s : State) : (txIdle s).params = s.params := rfl
@[simp] theorem txIdle_configured (s : State) : (txIdle s).configured = s.configured := rfl
@[simp] theorem txIdle_ticksPerBit (s : State) : (txIdle s).ticksPerBit = s.ticksPerBit := rfl
@[simp] theorem txIdle_timer (s : State) : (txIdle s).timer = s.timer := rfl
@[simp] theorem txIdle_txCmp (s : State) : (txIdle s).txCmp = s.txCmp := rfl
@[simp] theorem txIdle_rxCmp (s : State) : (txIdle s).rxCmp = s.rxCmp := rfl
@[simp] theorem txIdle_txState (s : State) : (txIdle s).txState = .idle := rfl
@[simp] theorem txIdle_frame (s : State) : (txIdle s).frame = s.frame := rfl
@[simp] theorem txIdle_bitsRemaining (s : State) : (txIdle s).bitsRemaining = s.bitsRemaining := rfl
@[simp] theorem txIdle_txLine (s : State) : (txIdle s).txLine = true := rfl
@[simp] theorem txIdle_txOE (s : State) : (txIdle s).txOE = s.txOE := rfl
@[simp] theorem txIdle_rxState (s : State) : (txIdle s).rxState = s.rxState := rfl
@[simp] theorem txIdle_accumulator (s : State) : (txIdle s).accumulator = s.accumulator := rfl
@[simp] theorem txIdle_bitsSampled (s : State) : (txIdle s).bitsSampled = s.bitsSampled := rfl
@[simp] theorem txIdle_rxPrev (s : State) : (txIdle s).rxPrev = s.rxPrev := rfl
@[simp] theorem txIdle_edgeFlag (s : State) : (txIdle s).edgeFlag = s.edgeFlag := rfl
@[simp] theorem txIdle_rxPullEn (s : State) : (txIdle s).rxPullEn = s.rxPullEn := rfl
@[simp] theorem txIdle_txFifo (s : State) : (txIdle s).txFifo = s.txFifo := rfl
@[simp] theorem txIdle_rxFifo (s : State) : (txIdle s).rxFifo = s.rxFifo := rfl
@[simp] theorem txIdle_txCount (s : State) : (txIdle s).txCount = s.txCount := rfl
@[simp] theorem txIdle_rxCount (s : State) : (txIdle s).rxCount = s.rxCount := rfl
@[simp] theorem txIdle_edgeCount (s : State) : (txIdle s).edgeCount = s.edgeCount := rfl
@[simp] theorem txIdle_fault (s : State) : (txIdle s).fault = s.fault := rfl
@[simp] theorem txIdle_rxIn (s : State) : (txIdle s).rxIn = s.rxIn := rfl
@[simp] theorem txIdle_rsp (s : State) : (txIdle s).rsp = s.rsp := rfl
@[simp] theorem txIdle_raised (s : State) : (txIdle s).raised = s.raised := rfl
@[simp] theorem txIdle_held (s : State) : (txIdle s).held = s.held := rfl
@[simp] theorem txIdle_env (s : State) : (txIdle s).env = s.env := rfl

/-! ## configure -/

@[simp] theorem configure_params (baud : Word) (s : State) : (configure baud s).params = s.params := rfl
@[simp] theorem configure_configured (baud : Word) (s : State) : (configure baud s).configured = true := rfl
@[simp] theorem configure_ticksPerBit (baud : Word) (s : State) : (configure baud s).ticksPerBit = divisor s.params baud := rfl
@[simp] theorem configure_timer (baud : Word) (s : State) : (configure baud s).timer = s.timer := rfl
@[simp] theorem configure_txCmp (baud : Word) (s : State) : (configure baud s).txCmp = s.txCmp := rfl
@[simp] theorem configure_rxCmp (baud : Word) (s : State) : (configure baud s).rxCmp = s.rxCmp := rfl
@[simp] theorem configure_txState (baud : Word) (s : State) : (configure baud s).txState = s.txState := rfl
@[simp] theorem configure_frame (baud : Word) (s : State) : (configure baud s).frame = s.frame := rfl
@[simp] theorem configure_bitsRemaining (baud : Word) (s : State) : (configure baud s).bitsRemaining = s.bitsRemaining := rfl
@[simp] theorem configure_txLine (baud : Word) (s : State) : (configure baud s).txLine = true := rfl
@[simp] theorem configure_txOE (baud : Word) (s : State) : (configure baud s).txOE = true := rfl
@[simp] theorem configure_rxState (baud : Word) (s : State) : (configure baud s).rxState = s.rxState := rfl
@[simp] theorem configure_accumulator (baud : Word) (s : State) : (configure baud s).accumulator = s.accumulator := rfl
@[simp] theorem configure_bitsSampled (baud : Word) (s : State) : (configure baud s).bitsSampled = s.bitsSampled := rfl
@[simp] theorem configure_rxPrev (baud : Word) (s : State) : (configure baud s).rxPrev = s.rxPrev := rfl
@[simp] theorem configure_edgeFlag (baud : Word) (s : State) : (configure baud s).edgeFlag = false := rfl
@[simp] theorem configure_rxPullEn (baud : Word) (s : State) : (configure baud s).rxPullEn = true := rfl
@[simp] theorem configure_txFifo (baud : Word) (s : State) : (configure baud s).txFifo = s.txFifo := rfl
@[simp] theorem configure_rxFifo (baud : Word) (s : State) : (configure baud s).rxFifo = s.rxFifo := rfl
@[simp] theorem configure_txCount (baud : Word) (s : State) : (configure baud s).txCount = s.txCount := rfl
@[simp] theorem configure_rxCount (baud : Word) (s : State) : (configure baud s).rxCount = s.rxCount := rfl
@[simp] theorem configure_edgeCount (baud : Word) (s : State) : (configure baud s).edgeCount = s.edgeCount := rfl
@[simp] theorem configure_fault (baud : Word) (s : State) : (configure baud s).fault = s.fault := rfl
@[simp] theorem configure_rxIn (baud : Word) (s : State) : (configure baud s).rxIn = s.rxIn := rfl
@[simp] theorem configure_rsp (baud : Word) (s : State) : (configure baud s).rsp = s.rsp := rfl
@[simp] theorem configure_raised (baud : Word) (s : State) : (configure baud s).raised = s.raised := rfl
@[simp] theorem configure_held (baud : Word) (s : State) : (configure baud s).held = s.held := rfl
@[simp] theorem configure_env (baud : Word) (s : State) : (configure baud s).env = s.env := rfl

/-! ## clearCounters -/

@[simp] theorem clearCounters_params (s : State) : (clearCounters s).params = s.params := rfl
@[simp] theorem clearCounters_configured (s : State) : (clearCounters s).configured = s.configured := rfl
@[simp] theorem clearCounters_ticksPerBit (s : State) : (clearCounters s).ticksPerBit = s.ticksPerBit := rfl
@[simp] theorem clearCounters_timer (s : State) : (clearCounters s).timer = s.timer := rfl
@[simp] theorem clearCounters_txCmp (s : State) : (clearCounters s).txCmp = s.txCmp := rfl
@[simp] theorem clearCounters_rxCmp (s : State) : (clearCounters s).rxCmp = s.rxCmp := rfl
@[simp] theorem clearCounters_txState (s : State) : (clearCounters s).txState = s.txState := rfl
@[simp] theorem clearCounters_frame (s : State) : (clearCounters s).frame = s.frame := rfl
@[simp] theorem clearCounters_bitsRemaining (s : State) : (clearCounters s).bitsRemaining = s.bitsRemaining := rfl
@[simp] theorem clearCounters_txLine (s : State) : (clearCounters s).txLine = s.txLine := rfl
@[simp] theorem clearCounters_txOE (s : State) : (clearCounters s).txOE = s.txOE := rfl
@[simp] theorem clearCounters_rxState (s : State) : (clearCounters s).rxState = s.rxState := rfl
@[simp] theorem clearCounters_accumulator (s : State) : (clearCounters s).accumulator = s.accumulator := rfl
@[simp] theorem clearCounters_bitsSampled (s : State) : (clearCounters s).bitsSampled = s.bitsSampled := rfl
@[simp] theorem clearCounters_rxPrev (s : State) : (clearCounters s).rxPrev = s.rxPrev := rfl
@[simp] theorem clearCounters_edgeFlag (s : State) : (clearCounters s).edgeFlag = s.edgeFlag := rfl
@[simp] theorem clearCounters_rxPullEn (s : State) : (clearCounters s).rxPullEn = s.rxPullEn := rfl
@[simp] theorem clearCounters_txFifo (s : State) : (clearCounters s).txFifo = s.txFifo := rfl
@[simp] theorem clearCounters_rxFifo (s : State) : (clearCounters s).rxFifo = s.rxFifo := rfl
@[simp] theorem clearCounters_txCount (s : State) : (clearCounters s).txCount = 0 := rfl
@[simp] theorem clearCounters_rxCount (s : State) : (clearCounters s).rxCount = 0 := rfl
@[simp] theorem clearCounters_edgeCount (s : State) : (clearCounters s).edgeCount = 0 := rfl
@[simp] theorem clearCounters_fault (s : State) : (clearCounters s).fault = s.fault := rfl
@[simp] theorem clearCounters_rxIn (s : State) : (clearCounters s).rxIn = s.rxIn := rfl
@[simp] theorem clearCounters_rsp (s : State) : (clearCounters s).rsp = s.rsp := rfl
@[simp] theorem clearCounters_raised (s : State) : (clearCounters s).raised = s.raised := rfl
@[simp] theorem clearCounters_held (s : State) : (clearCounters s).held = s.held := rfl
@[simp] theorem clearCounters_env (s : State) : (clearCounters s).env = s.env := rfl

/-! ## clearPorts -/

@[simp] theorem clearPorts_params (s : State) : (clearPorts s).params = s.params := rfl
@[simp] theorem clearPorts_configured (s : State) : (clearPorts s).configured = s.configured := rfl
@[simp] theorem clearPorts_ticksPerBit (s : State) : (clearPorts s).ticksPerBit = s.ticksPerBit := rfl
@[simp] theorem clearPorts_timer (s : State) : (clearPorts s).timer = s.timer := rfl
@[simp] theorem clearPorts_txCmp (s : State) : (clearPorts s).txCmp = s.txCmp := rfl
@[simp] theorem clearPorts_rxCmp (s : State) : (clearPorts s).rxCmp = s.rxCmp := rfl
@[simp] theorem clearPorts_txState (s : State) : (clearPorts s).txState = s.txState := rfl
@[simp] theorem clearPorts_frame (s : State) : (clearPorts s).frame = s.frame := rfl
@[simp] theorem clearPorts_bitsRemaining (s : State) : (clearPorts s).bitsRemaining = s.bitsRemaining := rfl
@[simp] theorem clearPorts_txLine (s : State) : (clearPorts s).txLine = s.txLine := rfl
@[simp] theorem clearPorts_txOE (s : State) : (clearPorts s).txOE = s.txOE := rfl
@[simp] theorem clearPorts_rxState (s : State) : (clearPorts s).rxState = s.rxState := rfl
@[simp] theorem clearPorts_accumulator (s : State) : (clearPorts s).accumulator = s.accumulator := rfl
@[simp] theorem clearPorts_bitsSampled (s : State) : (clearPorts s).bitsSampled = s.bitsSampled := rfl
@[simp] theorem clearPorts_rxPrev (s : State) : (clearPorts s).rxPrev = s.rxPrev := rfl
@[simp] theorem clearPorts_edgeFlag (s : State) : (clearPorts s).edgeFlag = s.edgeFlag := rfl
@[simp] theorem clearPorts_rxPullEn (s : State) : (clearPorts s).rxPullEn = s.rxPullEn := rfl
@[simp] theorem clearPorts_txFifo (s : State) : (clearPorts s).txFifo = s.txFifo := rfl
@[simp] theorem clearPorts_rxFifo (s : State) : (clearPorts s).rxFifo = s.rxFifo := rfl
@[simp] theorem clearPorts_txCount (s : State) : (clearPorts s).txCount = s.txCount := rfl
@[simp] theorem clearPorts_rxCount (s : State) : (clearPorts s).rxCount = s.rxCount := rfl
@[simp] theorem clearPorts_edgeCount (s : State) : (clearPorts s).edgeCount = s.edgeCount := rfl
@[simp] theorem clearPorts_fault (s : State) : (clearPorts s).fault = s.fault := rfl
@[simp] theorem clearPorts_rxIn (s : State) : (clearPorts s).rxIn = s.rxIn := rfl
@[simp] theorem clearPorts_rsp (s : State) : (clearPorts s).rsp = none := rfl
@[simp] theorem clearPorts_raised (s : State) : (clearPorts s).raised = none := rfl
@[simp] theorem clearPorts_held (s : State) : (clearPorts s).held = s.held := rfl
@[simp] theorem clearPorts_env (s : State) : (clearPorts s).env = s.env := rfl

/-! ## setAgenda -/

@[simp] theorem setAgenda_params (items : List Item) (s : State) : (setAgenda items s).params = s.params := rfl
@[simp] theorem setAgenda_configured (items : List Item) (s : State) : (setAgenda items s).configured = s.configured := rfl
@[simp] theorem setAgenda_ticksPerBit (items : List Item) (s : State) : (setAgenda items s).ticksPerBit = s.ticksPerBit := rfl
@[simp] theorem setAgenda_timer (items : List Item) (s : State) : (setAgenda items s).timer = s.timer := rfl
@[simp] theorem setAgenda_txCmp (items : List Item) (s : State) : (setAgenda items s).txCmp = s.txCmp := rfl
@[simp] theorem setAgenda_rxCmp (items : List Item) (s : State) : (setAgenda items s).rxCmp = s.rxCmp := rfl
@[simp] theorem setAgenda_txState (items : List Item) (s : State) : (setAgenda items s).txState = s.txState := rfl
@[simp] theorem setAgenda_frame (items : List Item) (s : State) : (setAgenda items s).frame = s.frame := rfl
@[simp] theorem setAgenda_bitsRemaining (items : List Item) (s : State) : (setAgenda items s).bitsRemaining = s.bitsRemaining := rfl
@[simp] theorem setAgenda_txLine (items : List Item) (s : State) : (setAgenda items s).txLine = s.txLine := rfl
@[simp] theorem setAgenda_txOE (items : List Item) (s : State) : (setAgenda items s).txOE = s.txOE := rfl
@[simp] theorem setAgenda_rxState (items : List Item) (s : State) : (setAgenda items s).rxState = s.rxState := rfl
@[simp] theorem setAgenda_accumulator (items : List Item) (s : State) : (setAgenda items s).accumulator = s.accumulator := rfl
@[simp] theorem setAgenda_bitsSampled (items : List Item) (s : State) : (setAgenda items s).bitsSampled = s.bitsSampled := rfl
@[simp] theorem setAgenda_rxPrev (items : List Item) (s : State) : (setAgenda items s).rxPrev = s.rxPrev := rfl
@[simp] theorem setAgenda_edgeFlag (items : List Item) (s : State) : (setAgenda items s).edgeFlag = s.edgeFlag := rfl
@[simp] theorem setAgenda_rxPullEn (items : List Item) (s : State) : (setAgenda items s).rxPullEn = s.rxPullEn := rfl
@[simp] theorem setAgenda_txFifo (items : List Item) (s : State) : (setAgenda items s).txFifo = s.txFifo := rfl
@[simp] theorem setAgenda_rxFifo (items : List Item) (s : State) : (setAgenda items s).rxFifo = s.rxFifo := rfl
@[simp] theorem setAgenda_txCount (items : List Item) (s : State) : (setAgenda items s).txCount = s.txCount := rfl
@[simp] theorem setAgenda_rxCount (items : List Item) (s : State) : (setAgenda items s).rxCount = s.rxCount := rfl
@[simp] theorem setAgenda_edgeCount (items : List Item) (s : State) : (setAgenda items s).edgeCount = s.edgeCount := rfl
@[simp] theorem setAgenda_fault (items : List Item) (s : State) : (setAgenda items s).fault = s.fault := rfl
@[simp] theorem setAgenda_rxIn (items : List Item) (s : State) : (setAgenda items s).rxIn = s.rxIn := rfl
@[simp] theorem setAgenda_rsp (items : List Item) (s : State) : (setAgenda items s).rsp = s.rsp := rfl
@[simp] theorem setAgenda_raised (items : List Item) (s : State) : (setAgenda items s).raised = s.raised := rfl
@[simp] theorem setAgenda_held (items : List Item) (s : State) : (setAgenda items s).held = s.held := rfl
@[simp] theorem setAgenda_env (items : List Item) (s : State) : (setAgenda items s).env = { s.env with agenda := items } := rfl

/-! ## setLine -/

@[simp] theorem setLine_params (m : LineMode) (s : State) : (setLine m s).params = s.params := rfl
@[simp] theorem setLine_configured (m : LineMode) (s : State) : (setLine m s).configured = s.configured := rfl
@[simp] theorem setLine_ticksPerBit (m : LineMode) (s : State) : (setLine m s).ticksPerBit = s.ticksPerBit := rfl
@[simp] theorem setLine_timer (m : LineMode) (s : State) : (setLine m s).timer = s.timer := rfl
@[simp] theorem setLine_txCmp (m : LineMode) (s : State) : (setLine m s).txCmp = s.txCmp := rfl
@[simp] theorem setLine_rxCmp (m : LineMode) (s : State) : (setLine m s).rxCmp = s.rxCmp := rfl
@[simp] theorem setLine_txState (m : LineMode) (s : State) : (setLine m s).txState = s.txState := rfl
@[simp] theorem setLine_frame (m : LineMode) (s : State) : (setLine m s).frame = s.frame := rfl
@[simp] theorem setLine_bitsRemaining (m : LineMode) (s : State) : (setLine m s).bitsRemaining = s.bitsRemaining := rfl
@[simp] theorem setLine_txLine (m : LineMode) (s : State) : (setLine m s).txLine = s.txLine := rfl
@[simp] theorem setLine_txOE (m : LineMode) (s : State) : (setLine m s).txOE = s.txOE := rfl
@[simp] theorem setLine_rxState (m : LineMode) (s : State) : (setLine m s).rxState = s.rxState := rfl
@[simp] theorem setLine_accumulator (m : LineMode) (s : State) : (setLine m s).accumulator = s.accumulator := rfl
@[simp] theorem setLine_bitsSampled (m : LineMode) (s : State) : (setLine m s).bitsSampled = s.bitsSampled := rfl
@[simp] theorem setLine_rxPrev (m : LineMode) (s : State) : (setLine m s).rxPrev = s.rxPrev := rfl
@[simp] theorem setLine_edgeFlag (m : LineMode) (s : State) : (setLine m s).edgeFlag = s.edgeFlag := rfl
@[simp] theorem setLine_rxPullEn (m : LineMode) (s : State) : (setLine m s).rxPullEn = s.rxPullEn := rfl
@[simp] theorem setLine_txFifo (m : LineMode) (s : State) : (setLine m s).txFifo = s.txFifo := rfl
@[simp] theorem setLine_rxFifo (m : LineMode) (s : State) : (setLine m s).rxFifo = s.rxFifo := rfl
@[simp] theorem setLine_txCount (m : LineMode) (s : State) : (setLine m s).txCount = s.txCount := rfl
@[simp] theorem setLine_rxCount (m : LineMode) (s : State) : (setLine m s).rxCount = s.rxCount := rfl
@[simp] theorem setLine_edgeCount (m : LineMode) (s : State) : (setLine m s).edgeCount = s.edgeCount := rfl
@[simp] theorem setLine_fault (m : LineMode) (s : State) : (setLine m s).fault = s.fault := rfl
@[simp] theorem setLine_rxIn (m : LineMode) (s : State) : (setLine m s).rxIn = s.rxIn := rfl
@[simp] theorem setLine_rsp (m : LineMode) (s : State) : (setLine m s).rsp = s.rsp := rfl
@[simp] theorem setLine_raised (m : LineMode) (s : State) : (setLine m s).raised = s.raised := rfl
@[simp] theorem setLine_held (m : LineMode) (s : State) : (setLine m s).held = s.held := rfl
@[simp] theorem setLine_env (m : LineMode) (s : State) : (setLine m s).env = { s.env with line := m } := rfl

/-! ## countDraw -/

@[simp] theorem countDraw_params (s : State) : (countDraw s).params = s.params := rfl
@[simp] theorem countDraw_configured (s : State) : (countDraw s).configured = s.configured := rfl
@[simp] theorem countDraw_ticksPerBit (s : State) : (countDraw s).ticksPerBit = s.ticksPerBit := rfl
@[simp] theorem countDraw_timer (s : State) : (countDraw s).timer = s.timer := rfl
@[simp] theorem countDraw_txCmp (s : State) : (countDraw s).txCmp = s.txCmp := rfl
@[simp] theorem countDraw_rxCmp (s : State) : (countDraw s).rxCmp = s.rxCmp := rfl
@[simp] theorem countDraw_txState (s : State) : (countDraw s).txState = s.txState := rfl
@[simp] theorem countDraw_frame (s : State) : (countDraw s).frame = s.frame := rfl
@[simp] theorem countDraw_bitsRemaining (s : State) : (countDraw s).bitsRemaining = s.bitsRemaining := rfl
@[simp] theorem countDraw_txLine (s : State) : (countDraw s).txLine = s.txLine := rfl
@[simp] theorem countDraw_txOE (s : State) : (countDraw s).txOE = s.txOE := rfl
@[simp] theorem countDraw_rxState (s : State) : (countDraw s).rxState = s.rxState := rfl
@[simp] theorem countDraw_accumulator (s : State) : (countDraw s).accumulator = s.accumulator := rfl
@[simp] theorem countDraw_bitsSampled (s : State) : (countDraw s).bitsSampled = s.bitsSampled := rfl
@[simp] theorem countDraw_rxPrev (s : State) : (countDraw s).rxPrev = s.rxPrev := rfl
@[simp] theorem countDraw_edgeFlag (s : State) : (countDraw s).edgeFlag = s.edgeFlag := rfl
@[simp] theorem countDraw_rxPullEn (s : State) : (countDraw s).rxPullEn = s.rxPullEn := rfl
@[simp] theorem countDraw_txFifo (s : State) : (countDraw s).txFifo = s.txFifo := rfl
@[simp] theorem countDraw_rxFifo (s : State) : (countDraw s).rxFifo = s.rxFifo := rfl
@[simp] theorem countDraw_txCount (s : State) : (countDraw s).txCount = s.txCount := rfl
@[simp] theorem countDraw_rxCount (s : State) : (countDraw s).rxCount = s.rxCount := rfl
@[simp] theorem countDraw_edgeCount (s : State) : (countDraw s).edgeCount = s.edgeCount := rfl
@[simp] theorem countDraw_fault (s : State) : (countDraw s).fault = s.fault := rfl
@[simp] theorem countDraw_rxIn (s : State) : (countDraw s).rxIn = s.rxIn := rfl
@[simp] theorem countDraw_rsp (s : State) : (countDraw s).rsp = s.rsp := rfl
@[simp] theorem countDraw_raised (s : State) : (countDraw s).raised = s.raised := rfl
@[simp] theorem countDraw_held (s : State) : (countDraw s).held = s.held := rfl
@[simp] theorem countDraw_env (s : State) : (countDraw s).env = { s.env with draws := s.env.draws + 1 } := rfl

/-! ## setEvent -/

@[simp] theorem setEvent_params (e : Option EventId) (s : State) : (setEvent e s).params = s.params := rfl
@[simp] theorem setEvent_configured (e : Option EventId) (s : State) : (setEvent e s).configured = s.configured := rfl
@[simp] theorem setEvent_ticksPerBit (e : Option EventId) (s : State) : (setEvent e s).ticksPerBit = s.ticksPerBit := rfl
@[simp] theorem setEvent_timer (e : Option EventId) (s : State) : (setEvent e s).timer = s.timer := rfl
@[simp] theorem setEvent_txCmp (e : Option EventId) (s : State) : (setEvent e s).txCmp = s.txCmp := rfl
@[simp] theorem setEvent_rxCmp (e : Option EventId) (s : State) : (setEvent e s).rxCmp = s.rxCmp := rfl
@[simp] theorem setEvent_txState (e : Option EventId) (s : State) : (setEvent e s).txState = s.txState := rfl
@[simp] theorem setEvent_frame (e : Option EventId) (s : State) : (setEvent e s).frame = s.frame := rfl
@[simp] theorem setEvent_bitsRemaining (e : Option EventId) (s : State) : (setEvent e s).bitsRemaining = s.bitsRemaining := rfl
@[simp] theorem setEvent_txLine (e : Option EventId) (s : State) : (setEvent e s).txLine = s.txLine := rfl
@[simp] theorem setEvent_txOE (e : Option EventId) (s : State) : (setEvent e s).txOE = s.txOE := rfl
@[simp] theorem setEvent_rxState (e : Option EventId) (s : State) : (setEvent e s).rxState = s.rxState := rfl
@[simp] theorem setEvent_accumulator (e : Option EventId) (s : State) : (setEvent e s).accumulator = s.accumulator := rfl
@[simp] theorem setEvent_bitsSampled (e : Option EventId) (s : State) : (setEvent e s).bitsSampled = s.bitsSampled := rfl
@[simp] theorem setEvent_rxPrev (e : Option EventId) (s : State) : (setEvent e s).rxPrev = s.rxPrev := rfl
@[simp] theorem setEvent_edgeFlag (e : Option EventId) (s : State) : (setEvent e s).edgeFlag = s.edgeFlag := rfl
@[simp] theorem setEvent_rxPullEn (e : Option EventId) (s : State) : (setEvent e s).rxPullEn = s.rxPullEn := rfl
@[simp] theorem setEvent_txFifo (e : Option EventId) (s : State) : (setEvent e s).txFifo = s.txFifo := rfl
@[simp] theorem setEvent_rxFifo (e : Option EventId) (s : State) : (setEvent e s).rxFifo = s.rxFifo := rfl
@[simp] theorem setEvent_txCount (e : Option EventId) (s : State) : (setEvent e s).txCount = s.txCount := rfl
@[simp] theorem setEvent_rxCount (e : Option EventId) (s : State) : (setEvent e s).rxCount = s.rxCount := rfl
@[simp] theorem setEvent_edgeCount (e : Option EventId) (s : State) : (setEvent e s).edgeCount = s.edgeCount := rfl
@[simp] theorem setEvent_fault (e : Option EventId) (s : State) : (setEvent e s).fault = s.fault := rfl
@[simp] theorem setEvent_rxIn (e : Option EventId) (s : State) : (setEvent e s).rxIn = s.rxIn := rfl
@[simp] theorem setEvent_rsp (e : Option EventId) (s : State) : (setEvent e s).rsp = s.rsp := rfl
@[simp] theorem setEvent_raised (e : Option EventId) (s : State) : (setEvent e s).raised = s.raised := rfl
@[simp] theorem setEvent_held (e : Option EventId) (s : State) : (setEvent e s).held = s.held := rfl
@[simp] theorem setEvent_env (e : Option EventId) (s : State) : (setEvent e s).env = { s.env with event := e } := rfl

/-! ## setHost -/

@[simp] theorem setHost_params (program : Bool) (job : Option Job) (s : State) : (setHost program job s).params = s.params := rfl
@[simp] theorem setHost_configured (program : Bool) (job : Option Job) (s : State) : (setHost program job s).configured = s.configured := rfl
@[simp] theorem setHost_ticksPerBit (program : Bool) (job : Option Job) (s : State) : (setHost program job s).ticksPerBit = s.ticksPerBit := rfl
@[simp] theorem setHost_timer (program : Bool) (job : Option Job) (s : State) : (setHost program job s).timer = s.timer := rfl
@[simp] theorem setHost_txCmp (program : Bool) (job : Option Job) (s : State) : (setHost program job s).txCmp = s.txCmp := rfl
@[simp] theorem setHost_rxCmp (program : Bool) (job : Option Job) (s : State) : (setHost program job s).rxCmp = s.rxCmp := rfl
@[simp] theorem setHost_txState (program : Bool) (job : Option Job) (s : State) : (setHost program job s).txState = s.txState := rfl
@[simp] theorem setHost_frame (program : Bool) (job : Option Job) (s : State) : (setHost program job s).frame = s.frame := rfl
@[simp] theorem setHost_bitsRemaining (program : Bool) (job : Option Job) (s : State) : (setHost program job s).bitsRemaining = s.bitsRemaining := rfl
@[simp] theorem setHost_txLine (program : Bool) (job : Option Job) (s : State) : (setHost program job s).txLine = s.txLine := rfl
@[simp] theorem setHost_txOE (program : Bool) (job : Option Job) (s : State) : (setHost program job s).txOE = s.txOE := rfl
@[simp] theorem setHost_rxState (program : Bool) (job : Option Job) (s : State) : (setHost program job s).rxState = s.rxState := rfl
@[simp] theorem setHost_accumulator (program : Bool) (job : Option Job) (s : State) : (setHost program job s).accumulator = s.accumulator := rfl
@[simp] theorem setHost_bitsSampled (program : Bool) (job : Option Job) (s : State) : (setHost program job s).bitsSampled = s.bitsSampled := rfl
@[simp] theorem setHost_rxPrev (program : Bool) (job : Option Job) (s : State) : (setHost program job s).rxPrev = s.rxPrev := rfl
@[simp] theorem setHost_edgeFlag (program : Bool) (job : Option Job) (s : State) : (setHost program job s).edgeFlag = s.edgeFlag := rfl
@[simp] theorem setHost_rxPullEn (program : Bool) (job : Option Job) (s : State) : (setHost program job s).rxPullEn = s.rxPullEn := rfl
@[simp] theorem setHost_txFifo (program : Bool) (job : Option Job) (s : State) : (setHost program job s).txFifo = s.txFifo := rfl
@[simp] theorem setHost_rxFifo (program : Bool) (job : Option Job) (s : State) : (setHost program job s).rxFifo = s.rxFifo := rfl
@[simp] theorem setHost_txCount (program : Bool) (job : Option Job) (s : State) : (setHost program job s).txCount = s.txCount := rfl
@[simp] theorem setHost_rxCount (program : Bool) (job : Option Job) (s : State) : (setHost program job s).rxCount = s.rxCount := rfl
@[simp] theorem setHost_edgeCount (program : Bool) (job : Option Job) (s : State) : (setHost program job s).edgeCount = s.edgeCount := rfl
@[simp] theorem setHost_fault (program : Bool) (job : Option Job) (s : State) : (setHost program job s).fault = s.fault := rfl
@[simp] theorem setHost_rxIn (program : Bool) (job : Option Job) (s : State) : (setHost program job s).rxIn = s.rxIn := rfl
@[simp] theorem setHost_rsp (program : Bool) (job : Option Job) (s : State) : (setHost program job s).rsp = s.rsp := rfl
@[simp] theorem setHost_raised (program : Bool) (job : Option Job) (s : State) : (setHost program job s).raised = s.raised := rfl
@[simp] theorem setHost_held (program : Bool) (job : Option Job) (s : State) : (setHost program job s).held = s.held := rfl
@[simp] theorem setHost_env (program : Bool) (job : Option Job) (s : State) : (setHost program job s).env = { s.env with program := program, job := job } := rfl

/-! ## setJob -/

@[simp] theorem setJob_params (job : Option Job) (s : State) : (setJob job s).params = s.params := rfl
@[simp] theorem setJob_configured (job : Option Job) (s : State) : (setJob job s).configured = s.configured := rfl
@[simp] theorem setJob_ticksPerBit (job : Option Job) (s : State) : (setJob job s).ticksPerBit = s.ticksPerBit := rfl
@[simp] theorem setJob_timer (job : Option Job) (s : State) : (setJob job s).timer = s.timer := rfl
@[simp] theorem setJob_txCmp (job : Option Job) (s : State) : (setJob job s).txCmp = s.txCmp := rfl
@[simp] theorem setJob_rxCmp (job : Option Job) (s : State) : (setJob job s).rxCmp = s.rxCmp := rfl
@[simp] theorem setJob_txState (job : Option Job) (s : State) : (setJob job s).txState = s.txState := rfl
@[simp] theorem setJob_frame (job : Option Job) (s : State) : (setJob job s).frame = s.frame := rfl
@[simp] theorem setJob_bitsRemaining (job : Option Job) (s : State) : (setJob job s).bitsRemaining = s.bitsRemaining := rfl
@[simp] theorem setJob_txLine (job : Option Job) (s : State) : (setJob job s).txLine = s.txLine := rfl
@[simp] theorem setJob_txOE (job : Option Job) (s : State) : (setJob job s).txOE = s.txOE := rfl
@[simp] theorem setJob_rxState (job : Option Job) (s : State) : (setJob job s).rxState = s.rxState := rfl
@[simp] theorem setJob_accumulator (job : Option Job) (s : State) : (setJob job s).accumulator = s.accumulator := rfl
@[simp] theorem setJob_bitsSampled (job : Option Job) (s : State) : (setJob job s).bitsSampled = s.bitsSampled := rfl
@[simp] theorem setJob_rxPrev (job : Option Job) (s : State) : (setJob job s).rxPrev = s.rxPrev := rfl
@[simp] theorem setJob_edgeFlag (job : Option Job) (s : State) : (setJob job s).edgeFlag = s.edgeFlag := rfl
@[simp] theorem setJob_rxPullEn (job : Option Job) (s : State) : (setJob job s).rxPullEn = s.rxPullEn := rfl
@[simp] theorem setJob_txFifo (job : Option Job) (s : State) : (setJob job s).txFifo = s.txFifo := rfl
@[simp] theorem setJob_rxFifo (job : Option Job) (s : State) : (setJob job s).rxFifo = s.rxFifo := rfl
@[simp] theorem setJob_txCount (job : Option Job) (s : State) : (setJob job s).txCount = s.txCount := rfl
@[simp] theorem setJob_rxCount (job : Option Job) (s : State) : (setJob job s).rxCount = s.rxCount := rfl
@[simp] theorem setJob_edgeCount (job : Option Job) (s : State) : (setJob job s).edgeCount = s.edgeCount := rfl
@[simp] theorem setJob_fault (job : Option Job) (s : State) : (setJob job s).fault = s.fault := rfl
@[simp] theorem setJob_rxIn (job : Option Job) (s : State) : (setJob job s).rxIn = s.rxIn := rfl
@[simp] theorem setJob_rsp (job : Option Job) (s : State) : (setJob job s).rsp = s.rsp := rfl
@[simp] theorem setJob_raised (job : Option Job) (s : State) : (setJob job s).raised = s.raised := rfl
@[simp] theorem setJob_held (job : Option Job) (s : State) : (setJob job s).held = s.held := rfl
@[simp] theorem setJob_env (job : Option Job) (s : State) : (setJob job s).env = { s.env with job := job } := rfl

/-! ## endSnap -/

@[simp] theorem endSnap_params (got : List Byte) (s : State) : (endSnap got s).params = s.params := rfl
@[simp] theorem endSnap_configured (got : List Byte) (s : State) : (endSnap got s).configured = s.configured := rfl
@[simp] theorem endSnap_ticksPerBit (got : List Byte) (s : State) : (endSnap got s).ticksPerBit = s.ticksPerBit := rfl
@[simp] theorem endSnap_timer (got : List Byte) (s : State) : (endSnap got s).timer = s.timer := rfl
@[simp] theorem endSnap_txCmp (got : List Byte) (s : State) : (endSnap got s).txCmp = s.txCmp := rfl
@[simp] theorem endSnap_rxCmp (got : List Byte) (s : State) : (endSnap got s).rxCmp = s.rxCmp := rfl
@[simp] theorem endSnap_txState (got : List Byte) (s : State) : (endSnap got s).txState = s.txState := rfl
@[simp] theorem endSnap_frame (got : List Byte) (s : State) : (endSnap got s).frame = s.frame := rfl
@[simp] theorem endSnap_bitsRemaining (got : List Byte) (s : State) : (endSnap got s).bitsRemaining = s.bitsRemaining := rfl
@[simp] theorem endSnap_txLine (got : List Byte) (s : State) : (endSnap got s).txLine = s.txLine := rfl
@[simp] theorem endSnap_txOE (got : List Byte) (s : State) : (endSnap got s).txOE = s.txOE := rfl
@[simp] theorem endSnap_rxState (got : List Byte) (s : State) : (endSnap got s).rxState = s.rxState := rfl
@[simp] theorem endSnap_accumulator (got : List Byte) (s : State) : (endSnap got s).accumulator = s.accumulator := rfl
@[simp] theorem endSnap_bitsSampled (got : List Byte) (s : State) : (endSnap got s).bitsSampled = s.bitsSampled := rfl
@[simp] theorem endSnap_rxPrev (got : List Byte) (s : State) : (endSnap got s).rxPrev = s.rxPrev := rfl
@[simp] theorem endSnap_edgeFlag (got : List Byte) (s : State) : (endSnap got s).edgeFlag = s.edgeFlag := rfl
@[simp] theorem endSnap_rxPullEn (got : List Byte) (s : State) : (endSnap got s).rxPullEn = s.rxPullEn := rfl
@[simp] theorem endSnap_txFifo (got : List Byte) (s : State) : (endSnap got s).txFifo = s.txFifo := rfl
@[simp] theorem endSnap_rxFifo (got : List Byte) (s : State) : (endSnap got s).rxFifo = s.rxFifo := rfl
@[simp] theorem endSnap_txCount (got : List Byte) (s : State) : (endSnap got s).txCount = s.txCount := rfl
@[simp] theorem endSnap_rxCount (got : List Byte) (s : State) : (endSnap got s).rxCount = s.rxCount := rfl
@[simp] theorem endSnap_edgeCount (got : List Byte) (s : State) : (endSnap got s).edgeCount = s.edgeCount := rfl
@[simp] theorem endSnap_fault (got : List Byte) (s : State) : (endSnap got s).fault = s.fault := rfl
@[simp] theorem endSnap_rxIn (got : List Byte) (s : State) : (endSnap got s).rxIn = s.rxIn := rfl
@[simp] theorem endSnap_rsp (got : List Byte) (s : State) : (endSnap got s).rsp = s.rsp := rfl
@[simp] theorem endSnap_raised (got : List Byte) (s : State) : (endSnap got s).raised = s.raised := rfl
@[simp] theorem endSnap_held (got : List Byte) (s : State) : (endSnap got s).held = s.held := rfl
@[simp] theorem endSnap_env (got : List Byte) (s : State) : (endSnap got s).env = { s.env with job := none, snap := some { buffer := got ++ [0], any := decide (got ≠ []) } } := rfl

/-! ## release -/

@[simp] theorem release_params (s : State) : (release s).params = s.params := rfl
@[simp] theorem release_configured (s : State) : (release s).configured = s.configured := rfl
@[simp] theorem release_ticksPerBit (s : State) : (release s).ticksPerBit = s.ticksPerBit := rfl
@[simp] theorem release_timer (s : State) : (release s).timer = s.timer := rfl
@[simp] theorem release_txCmp (s : State) : (release s).txCmp = s.txCmp := rfl
@[simp] theorem release_rxCmp (s : State) : (release s).rxCmp = s.rxCmp := rfl
@[simp] theorem release_txState (s : State) : (release s).txState = s.txState := rfl
@[simp] theorem release_frame (s : State) : (release s).frame = s.frame := rfl
@[simp] theorem release_bitsRemaining (s : State) : (release s).bitsRemaining = s.bitsRemaining := rfl
@[simp] theorem release_txLine (s : State) : (release s).txLine = s.txLine := rfl
@[simp] theorem release_txOE (s : State) : (release s).txOE = s.txOE := rfl
@[simp] theorem release_rxState (s : State) : (release s).rxState = s.rxState := rfl
@[simp] theorem release_accumulator (s : State) : (release s).accumulator = s.accumulator := rfl
@[simp] theorem release_bitsSampled (s : State) : (release s).bitsSampled = s.bitsSampled := rfl
@[simp] theorem release_rxPrev (s : State) : (release s).rxPrev = s.rxPrev := rfl
@[simp] theorem release_edgeFlag (s : State) : (release s).edgeFlag = s.edgeFlag := rfl
@[simp] theorem release_rxPullEn (s : State) : (release s).rxPullEn = s.rxPullEn := rfl
@[simp] theorem release_txFifo (s : State) : (release s).txFifo = s.txFifo := rfl
@[simp] theorem release_rxFifo (s : State) : (release s).rxFifo = s.rxFifo := rfl
@[simp] theorem release_txCount (s : State) : (release s).txCount = s.txCount := rfl
@[simp] theorem release_rxCount (s : State) : (release s).rxCount = s.rxCount := rfl
@[simp] theorem release_edgeCount (s : State) : (release s).edgeCount = s.edgeCount := rfl
@[simp] theorem release_fault (s : State) : (release s).fault = s.fault := rfl
@[simp] theorem release_rxIn (s : State) : (release s).rxIn = s.rxIn := rfl
@[simp] theorem release_rsp (s : State) : (release s).rsp = s.rsp := rfl
@[simp] theorem release_raised (s : State) : (release s).raised = s.raised := rfl
@[simp] theorem release_held (s : State) : (release s).held = none := rfl
@[simp] theorem release_env (s : State) : (release s).env = s.env := rfl

/-! ## setFifo -/

@[simp] theorem setFifo_params (q : FifoId) (f : Fifo) (s : State) : (setFifo q f s).params = s.params := by cases q <;> rfl
@[simp] theorem setFifo_configured (q : FifoId) (f : Fifo) (s : State) : (setFifo q f s).configured = s.configured := by cases q <;> rfl
@[simp] theorem setFifo_ticksPerBit (q : FifoId) (f : Fifo) (s : State) : (setFifo q f s).ticksPerBit = s.ticksPerBit := by cases q <;> rfl
@[simp] theorem setFifo_timer (q : FifoId) (f : Fifo) (s : State) : (setFifo q f s).timer = s.timer := by cases q <;> rfl
@[simp] theorem setFifo_txCmp (q : FifoId) (f : Fifo) (s : State) : (setFifo q f s).txCmp = s.txCmp := by cases q <;> rfl
@[simp] theorem setFifo_rxCmp (q : FifoId) (f : Fifo) (s : State) : (setFifo q f s).rxCmp = s.rxCmp := by cases q <;> rfl
@[simp] theorem setFifo_txState (q : FifoId) (f : Fifo) (s : State) : (setFifo q f s).txState = s.txState := by cases q <;> rfl
@[simp] theorem setFifo_frame (q : FifoId) (f : Fifo) (s : State) : (setFifo q f s).frame = s.frame := by cases q <;> rfl
@[simp] theorem setFifo_bitsRemaining (q : FifoId) (f : Fifo) (s : State) : (setFifo q f s).bitsRemaining = s.bitsRemaining := by cases q <;> rfl
@[simp] theorem setFifo_txLine (q : FifoId) (f : Fifo) (s : State) : (setFifo q f s).txLine = s.txLine := by cases q <;> rfl
@[simp] theorem setFifo_txOE (q : FifoId) (f : Fifo) (s : State) : (setFifo q f s).txOE = s.txOE := by cases q <;> rfl
@[simp] theorem setFifo_rxState (q : FifoId) (f : Fifo) (s : State) : (setFifo q f s).rxState = s.rxState := by cases q <;> rfl
@[simp] theorem setFifo_accumulator (q : FifoId) (f : Fifo) (s : State) : (setFifo q f s).accumulator = s.accumulator := by cases q <;> rfl
@[simp] theorem setFifo_bitsSampled (q : FifoId) (f : Fifo) (s : State) : (setFifo q f s).bitsSampled = s.bitsSampled := by cases q <;> rfl
@[simp] theorem setFifo_rxPrev (q : FifoId) (f : Fifo) (s : State) : (setFifo q f s).rxPrev = s.rxPrev := by cases q <;> rfl
@[simp] theorem setFifo_edgeFlag (q : FifoId) (f : Fifo) (s : State) : (setFifo q f s).edgeFlag = s.edgeFlag := by cases q <;> rfl
@[simp] theorem setFifo_rxPullEn (q : FifoId) (f : Fifo) (s : State) : (setFifo q f s).rxPullEn = s.rxPullEn := by cases q <;> rfl
@[simp] theorem setFifo_txFifo (q : FifoId) (f : Fifo) (s : State) : (setFifo q f s).txFifo = match q with | .tx => f | .rx => s.txFifo := by cases q <;> rfl
@[simp] theorem setFifo_rxFifo (q : FifoId) (f : Fifo) (s : State) : (setFifo q f s).rxFifo = match q with | .tx => s.rxFifo | .rx => f := by cases q <;> rfl
@[simp] theorem setFifo_txCount (q : FifoId) (f : Fifo) (s : State) : (setFifo q f s).txCount = s.txCount := by cases q <;> rfl
@[simp] theorem setFifo_rxCount (q : FifoId) (f : Fifo) (s : State) : (setFifo q f s).rxCount = s.rxCount := by cases q <;> rfl
@[simp] theorem setFifo_edgeCount (q : FifoId) (f : Fifo) (s : State) : (setFifo q f s).edgeCount = s.edgeCount := by cases q <;> rfl
@[simp] theorem setFifo_fault (q : FifoId) (f : Fifo) (s : State) : (setFifo q f s).fault = s.fault := by cases q <;> rfl
@[simp] theorem setFifo_rxIn (q : FifoId) (f : Fifo) (s : State) : (setFifo q f s).rxIn = s.rxIn := by cases q <;> rfl
@[simp] theorem setFifo_rsp (q : FifoId) (f : Fifo) (s : State) : (setFifo q f s).rsp = s.rsp := by cases q <;> rfl
@[simp] theorem setFifo_raised (q : FifoId) (f : Fifo) (s : State) : (setFifo q f s).raised = s.raised := by cases q <;> rfl
@[simp] theorem setFifo_held (q : FifoId) (f : Fifo) (s : State) : (setFifo q f s).held = s.held := by cases q <;> rfl
@[simp] theorem setFifo_env (q : FifoId) (f : Fifo) (s : State) : (setFifo q f s).env = s.env := by cases q <;> rfl

end Sys2Proof.Machine
end

