-- ==== Sys2Proof/Laws/Agents.lean ====
section
/-! SUPPORT. What fetching can do: it touches only the ports, the held word and the environment, and without a trace it fetches a tick, a decoded command, an illegal word, a directive or reset. -/

namespace Sys2Proof.Machine

/-- A state with other ports, held word and environment: all that fetching changes. -/
def withPorts (s : State) (l : Bool) (h : Option Word) (e : Env) : State :=
  { s with rsp := none, raised := none, rxIn := l, held := h, env := e }

/-- What the Line agent supplies changes `rx_in` and the environment only, and keeps the agenda and the event port. -/
theorem supplyLevel_spec (s : State) :
    ∃ l e, supplyLevel s = { s with rxIn := l, env := e } ∧ e.event = s.env.event ∧ e.agenda = s.env.agenda := by
  unfold supplyLevel
  split
  all_goals exact ⟨_, _, rfl, rfl, rfl⟩

/-- The Line agent leaves the Host where it stands. -/
@[simp] theorem supplyLevel_job (s : State) : (supplyLevel s).env.job = s.env.job := by
  unfold supplyLevel
  split <;> rfl

/-- A fetched result: which state it may carry, and what it may ask to run when no trace names an event. -/
def FetchedOk (s : State) (r : Fetched × State) : Prop :=
  (∃ l h e, r.2 = withPorts s l h e ∧ (h = s.held ∨ h = none) ∧ e.event = none) ∧
  (∀ i, r.1 = .run i → s.env.event = none → i = .tick ∨ ∃ w, decodeCmd w = .ok i) ∧
  (∀ id, r.1 = .unused id → s.env.event = some id) ∧
  (r.1 = .reset → r.2.rxIn = s.rxIn ∧ r.2.held = s.held)

theorem tickTurn_ok {s u : State} (hu : ∃ l h e, u = withPorts s l h e ∧ (h = s.held ∨ h = none) ∧ e.event = none) :
    FetchedOk s (tickTurn u) := by
  obtain ⟨l, h, e, rfl, hh, he⟩ := hu
  refine ⟨?_, ?_, ?_, fun h => by cases h⟩
  · obtain ⟨l', e', hs, hev, -⟩ := supplyLevel_spec (withPorts s l h e)
    exact ⟨l', h, e', by simp only [tickTurn, hs]; rfl, hh, by rw [hev]; exact he⟩
  · intro i hi _
    cases hi
    exact .inl rfl
  · intro id hi
    cases hi

theorem offer_ok (w : Word) {s u : State}
    (hu : ∃ l h e, u = withPorts s l h e ∧ (h = s.held ∨ h = none) ∧ e.event = none) : FetchedOk s (offer w u) := by
  unfold offer
  split
  · next i hd =>
    refine ⟨hu, ?_, ?_, fun h => by cases h⟩
    · intro j hj _
      cases hj
      exact .inr ⟨w, hd⟩
    · intro id hi
      cases hi
  · refine ⟨hu, ?_, ?_, fun h => by cases h⟩
    · intro j hj
      cases hj
    · intro id hi
      cases hi

theorem begin_ok (program : Bool) (o : Offer) {s u : State}
    (hu : ∃ l h e, u = withPorts s l h e ∧ (h = s.held ∨ h = none) ∧ e.event = none) :
    FetchedOk s (begin program o u) := by
  obtain ⟨l, h, e, rfl, hh, he⟩ := hu
  cases o <;> exact offer_ok _ ⟨l, h, _, rfl, hh, he⟩

theorem retry_ok (w : Word) {s u : State}
    (hu : ∃ l h e, u = withPorts s l h e ∧ (h = s.held ∨ h = none) ∧ e.event = none) : FetchedOk s (retry w u) := by
  unfold retry
  split
  · exact tickTurn_ok hu
  · apply offer_ok
    obtain ⟨l, h, e, rfl, -, he⟩ := hu
    exact ⟨l, none, e, rfl, .inr rfl, he⟩

/-- A turn in which neither Host nor Tick moves leaves `rx_in` and the held word. -/
theorem other_ok {f : Fetched} (h1 : ∀ i, f ≠ .run i) (h2 : ∀ id, f ≠ .unused id) {s : State} {e : Env}
    (he : e.event = none) : FetchedOk s (f, { clearPorts s with env := e }) :=
  ⟨⟨s.rxIn, s.held, e, rfl, .inl rfl, he⟩, fun i hi => absurd hi (h1 i), fun id hi => absurd hi (h2 id),
    fun _ => ⟨rfl, rfl⟩⟩

/-- The state a turn starts in, whatever it does to the environment but ask for an event. -/
theorem turn_ports (s : State) (e : Env) (he : e.event = none) :
    ∃ l h e', ({ clearPorts s with env := e } : State) = withPorts s l h e' ∧ (h = s.held ∨ h = none) ∧
      e'.event = none :=
  ⟨s.rxIn, s.held, e, rfl, .inl rfl, he⟩

theorem freeTurn_ok {host : Offer → State → Fetched × State} {s : State} (hev : s.env.event = none)
    (hh : ∀ o u, (∃ l h e, u = withPorts s l h e ∧ (h = s.held ∨ h = none) ∧ e.event = none) →
      FetchedOk s (host o u)) : FetchedOk s (freeTurn host (clearPorts s)) := by
  unfold freeTurn
  split
  · exact hh _ _ (turn_ports s { s.env with draws := s.env.draws + 1 } hev)
  · exact tickTurn_ok (turn_ports s { s.env with draws := s.env.draws + 1 } hev)
  · exact other_ok (e := { s.env with draws := s.env.draws + 1 }) (by simp) (by simp) hev

theorem nextTurn_ok {s : State} (hev : s.env.event = none) : FetchedOk s (nextTurn (clearPorts s)) := by
  unfold nextTurn
  split
  · exact freeTurn_ok hev fun o _ hu => begin_ok false o hu
  · exact begin_ok _ _ (turn_ports s { s.env with agenda := _ } hev)
  · exact other_ok (e := { s.env with agenda := _ }) (by simp) (by simp) hev
  · exact tickTurn_ok (turn_ports s { s.env with agenda := _ } hev)
  · exact other_ok (e := { s.env with agenda := _, line := _ }) (by simp) (by simp) hev
  · exact begin_ok _ _ (turn_ports s { s.env with agenda := _ } hev)
  · exact begin_ok _ _ (turn_ports s { s.env with agenda := _ } hev)
  · exact other_ok (e := { s.env with agenda := _ }) (by simp) (by simp) hev

theorem jobTurn_ok (j : Job) {s : State} (hev : s.env.event = none) : FetchedOk s (jobTurn j (clearPorts s)) := by
  unfold jobTurn
  split
  · exact offer_ok _ (turn_ports s s.env hev)
  · exact freeTurn_ok hev fun _ _ hu => offer_ok _ hu

theorem heldTurn_ok (w : Word) {s : State} (hev : s.env.event = none) :
    FetchedOk s (heldTurn w (clearPorts s)) := by
  unfold heldTurn
  split
  · exact other_ok (e := { s.env with agenda := _ }) (by simp) (by simp) hev
  · split
    · exact retry_ok w (turn_ports s s.env hev)
    · exact freeTurn_ok hev fun _ _ hu => retry_ok w hu

theorem eventTurn_ok {s : State} {id : EventId} (hev : s.env.event = some id) :
    FetchedOk s (eventTurn id (setEvent none (clearPorts s))) := by
  unfold eventTurn
  split
  · refine ⟨?_, ?_, ?_, fun h => by cases h⟩
    · dsimp only
      split
      · exact (tickTurn_ok (s := s) (turn_ports s { s.env with event := none } rfl)).1
      · exact turn_ports s { s.env with event := none } rfl
    · intro j _ hn
      rw [hn] at hev
      cases hev
    · intro id hi
      cases hi
  · refine ⟨turn_ports s { s.env with event := none } rfl, ?_, ?_, fun h => by cases h⟩
    · intro j hj
      cases hj
    · intro id' hi
      cases hi
      exact hev

/-- Everything fetching can do. -/
theorem fetch_ok (s : State) : FetchedOk s (fetch s) := by
  unfold fetch
  split
  · next id hev => exact eventTurn_ok hev
  · next hev =>
    split
    · exact heldTurn_ok _ hev
    · split
      · exact jobTurn_ok _ hev
      · exact nextTurn_ok hev

/-- A listening Host changes only its own part of the environment. -/
theorem listen_spec (j : Job) (s : State) :
    ∃ job snap, listen j s = { s with env := { s.env with job := job, snap := snap } } := by
  unfold listen
  split
  · exact ⟨_, _, rfl⟩
  · unfold respondedTo
    split
    · unfold countHeard
      split <;> exact ⟨_, _, rfl⟩
    · unfold byteHeard
      split <;> exact ⟨_, _, rfl⟩
    all_goals exact ⟨_, _, rfl⟩

/-- A step that a Host in the middle of a pseudo-instruction hears is that step, but for the Host's own part of the
environment. -/
theorem hear_next {job : Option Job} {o : Host.Outcome State Fault Refusal} {t : State} (h : hear job o = .next t) :
    ∃ t' job' snap, o = .next t' ∧ t = { t' with env := { t'.env with job := job', snap := snap } } := by
  cases job with
  | none => exact ⟨t, _, _, h, rfl⟩
  | some j =>
    cases o with
    | next t' =>
      obtain ⟨job', snap, hl⟩ := listen_spec j t'
      cases h
      exact ⟨t', job', snap, rfl, hl⟩
    | fault f => cases h
    | refused r => cases h

/-- A step that has a next state has one however the Host listens. -/
theorem hear_proceeds (job : Option Job) (t : State) : ∃ t', hear job (.next t) = .next t' := by
  cases job with
  | none => exact ⟨t, rfl⟩
  | some j => exact ⟨listen j t, rfl⟩

/-- Everything a step can do when it answers. -/
theorem step_cases {s t : State} (h : step s = .next t) :
    (∃ i t' job snap, (fetch s).1 = .run i ∧ exec i (fetch s).2 = .next t' ∧
      t = { t' with env := { t'.env with job := job, snap := snap } }) ∨
    (∃ w, (fetch s).1 = .illegal w ∧ t = raise (.illegalCommand w) (fetch s).2) ∨
    ((fetch s).1 = .reset ∧ t = resetBlock (fetch s).2) ∨
    ((fetch s).1 = .directive ∧ t = (fetch s).2) := by
  unfold step at h
  generalize fetch s = r at h ⊢
  obtain ⟨f, u⟩ := r
  cases f with
  | run i =>
    obtain ⟨t', job, snap, hx, ht⟩ := hear_next h
    exact .inl ⟨i, t', job, snap, rfl, hx, ht⟩
  | illegal w => cases h; exact .inr (.inl ⟨w, rfl, rfl⟩)
  | unused id => cases h
  | reset => cases h; exact .inr (.inr (.inl ⟨rfl, rfl⟩))
  | directive => cases h; exact .inr (.inr (.inr ⟨rfl, rfl⟩))

/-! ## What each form of agenda fetches -/

/-- A scripted command is offered (R100). -/
theorem fetch_cmd {s : State} {w : Word} {rest : List Item} (h1 : s.env.event = none) (h2 : s.held = none)
    (h : s.env.job = none) (h3 : s.env.agenda = .cmd w :: rest) :
    fetch s = offer w (setHost true none (setAgenda rest (clearPorts s))) := by
  have h' : (clearPorts s).env.agenda = .cmd w :: rest := h3
  simp only [fetch, h1, h2, h, nextTurn, h', begin]

/-- A scripted `READSNAP` starts with its count (R191). -/
theorem fetch_readsnap {s : State} {rest : List Item} (h1 : s.env.event = none) (h2 : s.held = none)
    (h : s.env.job = none) (h3 : s.env.agenda = .readsnap :: rest) :
    fetch s = (.run .rxcount, setHost true (some .snapCount) (setAgenda rest (clearPorts s))) := by
  have h' : (clearPorts s).env.agenda = .readsnap :: rest := h3
  simp only [fetch, h1, h2, h, nextTurn, h', begin]
  rfl

/-- A scripted `REPORTSTATS` starts with the first counter (R192). -/
theorem fetch_reportstats {s : State} {rest : List Item} (h1 : s.env.event = none) (h2 : s.held = none)
    (h : s.env.job = none) (h3 : s.env.agenda = .reportstats :: rest) :
    fetch s = (.run .rdcntTx, setHost true (some .reportTx) (setAgenda rest (clearPorts s))) := by
  have h' : (clearPorts s).env.agenda = .reportstats :: rest := h3
  simp only [fetch, h1, h2, h, nextTurn, h', begin]
  rfl

/-- A `WAIT` with ticks left is a tick (R100). -/
theorem fetch_wait {s : State} {n : Nat} {rest : List Item} (h1 : s.env.event = none) (h2 : s.held = none)
    (h : s.env.job = none) (h3 : s.env.agenda = .wait (n + 1) :: rest) :
    fetch s = tickTurn (setAgenda (.wait n :: rest) (clearPorts s)) := by
  have h' : (clearPorts s).env.agenda = .wait (n + 1) :: rest := h3
  simp only [fetch, h1, h2, h, nextTurn, h']

/-- In the middle of a pseudo-instruction of a test program the Host goes on with it at once (R100). -/
theorem fetch_job {s : State} {j : Job} (h1 : s.env.event = none) (h2 : s.held = none) (h3 : s.env.job = some j)
    (h4 : scripted s = true) : fetch s = offer (jobWord j) (clearPorts s) := by
  have h : scripted (clearPorts s) = true := h4
  simp only [fetch, h1, h2, h3, jobTurn]
  exact if_pos h

/-- A word that a test program has the Host hold, its last one too, is tried at each turn but a reset clock (R100, R181). -/
theorem fetch_held {s : State} {w : Word} (h1 : s.env.event = none) (h2 : s.held = some w) (h3 : scripted s = true)
    (h4 : ∀ rest, s.env.agenda ≠ .reset :: rest) : fetch s = retry w (clearPorts s) := by
  have h : scripted (clearPorts s) = true := h3
  simp only [fetch, h1, h2, heldTurn]
  split
  · next rest h' => exact absurd h' (h4 rest)
  · exact if_pos h

/-- An event a trace names is dispatched (R98). -/
theorem fetch_event {s : State} {id : EventId} (h : s.env.event = some id) :
    fetch s = eventTurn id (setEvent none (clearPorts s)) := by
  simp only [fetch, h]

end Sys2Proof.Machine
end

