-- ==== Sys2Proof/Laws/Memory.lean ====
section
/-! SUPPORT. FIFO storage: a read after a write, and that a write keeps the canonical form. -/

namespace Sys2Proof.Machine

@[simp] theorem read_nil (i : Nat) : Memory.read [] i = unwrittenByte := rfl

@[simp] theorem read_cons (k : Nat) (v : Byte) (rest : Memory) (i : Nat) :
    Memory.read ((k, v) :: rest) i = if i = k then v else Memory.read rest i := rfl

/-- An entry is read back, if the rest lists nothing for its slot. -/
theorem read_entry_same (i : Nat) (b : Byte) (rest : Memory) (h : Memory.read rest i = unwrittenByte) :
    Memory.read (Memory.entry i b rest) i = b := by
  unfold Memory.entry
  split
  · next hb => rw [h, hb]
  · simp

/-- An entry hides nothing of another slot. -/
theorem read_entry_other {i a : Nat} (b : Byte) (rest : Memory) (h : a ≠ i) :
    Memory.read (Memory.entry i b rest) a = Memory.read rest a := by
  unfold Memory.entry
  split
  · rfl
  · simp [h]

/-- A slot below the first listed one reads as unwritten. -/
theorem read_below_of_wfFrom {m : Memory} {lo i : Nat} (h : Memory.wfFrom lo m = true) (hi : i < lo) :
    Memory.read m i = unwrittenByte := by
  induction m generalizing lo with
  | nil => rfl
  | cons c rest ih =>
    obtain ⟨k, v⟩ := c
    simp only [Memory.wfFrom, Bool.and_eq_true, decide_eq_true_eq] at h
    have hk : i ≠ k := by omega
    rw [read_cons, if_neg hk]
    exact ih h.2 (by omega)

/-- A smaller lower bound holds as well. -/
theorem wfFrom_mono {m : Memory} {lo lo' : Nat} (h : Memory.wfFrom lo m = true) (hl : lo' ≤ lo) :
    Memory.wfFrom lo' m = true := by
  cases m with
  | nil => rfl
  | cons c rest =>
    obtain ⟨k, v⟩ := c
    simp only [Memory.wfFrom, Bool.and_eq_true, decide_eq_true_eq] at h ⊢
    exact ⟨⟨by omega, h.1.2⟩, h.2⟩

/-- The canonical form of an entry before a canonical rest. -/
theorem wfFrom_entry {i lo : Nat} (b : Byte) {rest : Memory} (hlo : lo ≤ i)
    (h : Memory.wfFrom (i + 1) rest = true) : Memory.wfFrom lo (Memory.entry i b rest) = true := by
  unfold Memory.entry
  split
  · exact wfFrom_mono h (by omega)
  · next hb => simp [Memory.wfFrom, hb, h, hlo]

/-- A write keeps the canonical form, above any lower bound the slot respects. -/
theorem wfFrom_write {m : Memory} {lo : Nat} (i : Nat) (b : Byte) (h : Memory.wfFrom lo m = true) (hlo : lo ≤ i) :
    Memory.wfFrom lo (Memory.write m i b) = true := by
  induction m generalizing lo with
  | nil => exact wfFrom_entry b hlo rfl
  | cons c rest ih =>
    obtain ⟨k, v⟩ := c
    have h' := h
    simp only [Memory.wfFrom, Bool.and_eq_true, decide_eq_true_eq] at h'
    obtain ⟨⟨hk, hv⟩, hr⟩ := h'
    simp only [Memory.write]
    split
    · next hik => exact wfFrom_entry b hlo (by simp [Memory.wfFrom, hv, hr]; omega)
    · split
      · next _ hik => subst hik; exact wfFrom_entry b hlo hr
      · simp only [Memory.wfFrom, Bool.and_eq_true, decide_eq_true_eq]
        exact ⟨⟨hk, hv⟩, ih hr (by omega)⟩

/-- A write keeps the canonical form. -/
theorem wf_write {m : Memory} (i : Nat) (b : Byte) (h : Memory.wf m = true) : Memory.wf (Memory.write m i b) = true :=
  wfFrom_write i b h (Nat.zero_le i)

/-- A write changes no other slot. -/
theorem read_write_other (m : Memory) {i a : Nat} (b : Byte) (h : a ≠ i) :
    Memory.read (Memory.write m i b) a = Memory.read m a := by
  induction m with
  | nil => exact read_entry_other b [] h
  | cons c rest ih =>
    obtain ⟨k, v⟩ := c
    simp only [Memory.write]
    split
    · exact read_entry_other b _ h
    · split
      · next _ hik => subst hik; rw [read_entry_other b rest h, read_cons, if_neg h]
      · rw [read_cons, read_cons, ih]

/-- A written slot of a canonical storage reads back. -/
theorem read_write_same_from {m : Memory} {lo : Nat} (i : Nat) (b : Byte) (h : Memory.wfFrom lo m = true) :
    Memory.read (Memory.write m i b) i = b := by
  induction m generalizing lo with
  | nil => exact read_entry_same i b [] rfl
  | cons c rest ih =>
    obtain ⟨k, v⟩ := c
    simp only [Memory.wfFrom, Bool.and_eq_true, decide_eq_true_eq] at h
    simp only [Memory.write]
    split
    · next hik =>
      exact read_entry_same i b _ (read_below_of_wfFrom (lo := k) (by simp [Memory.wfFrom, h.1.2, h.2]) hik)
    · split
      · next _ hik => exact read_entry_same i b rest (read_below_of_wfFrom h.2 (by omega))
      · next _ hik => rw [read_cons, if_neg hik]; exact ih h.2

/-- A written slot of a canonical storage reads back. -/
theorem read_write_same {m : Memory} (i : Nat) (b : Byte) (h : Memory.wf m = true) :
    Memory.read (Memory.write m i b) i = b :=
  read_write_same_from i b h

/-- An entry below the slot count keeps the storage below it. -/
theorem below_entry {n i : Nat} (b : Byte) {rest : Memory} (hi : i < n) (h : Memory.below n rest = true) :
    Memory.below n (Memory.entry i b rest) = true := by
  unfold Memory.entry
  split
  · exact h
  · simp [Memory.below, hi, h]

/-- A write of an existing slot lists no slot that does not exist. -/
theorem below_write {m : Memory} {n : Nat} (i : Nat) (b : Byte) (hi : i < n) (h : Memory.below n m = true) :
    Memory.below n (Memory.write m i b) = true := by
  induction m with
  | nil => exact below_entry b hi rfl
  | cons c rest ih =>
    obtain ⟨k, v⟩ := c
    have h' := h
    simp only [Memory.below, Bool.and_eq_true, decide_eq_true_eq] at h'
    simp only [Memory.write]
    split
    · exact below_entry b hi h
    · split
      · exact below_entry b hi h'.2
      · simp [Memory.below, h'.1, ih h'.2]

end Sys2Proof.Machine
end

