-- ==== Sys2Proof/Laws/Fifo.lean ====
section
/-! SUPPORT. The ring buffers: what FifoPut and FifoGet can do, said once, and the bytes they hold. -/

namespace Sys2Proof.Machine

/-! ## Accessors of a written ring buffer -/

@[simp] theorem slots_setFifo (q q' : FifoId) (f : Fifo) (s : State) : slots (setFifo q f s) q' = slots s q' := by
  cases q <;> cases q' <;> rfl

@[simp] theorem fifo_setFifo_same (q : FifoId) (f : Fifo) (s : State) : fifo (setFifo q f s) q = f := by
  cases q <;> rfl

@[simp] theorem fifo_setFifo_tx_rx (f : Fifo) (s : State) : fifo (setFifo .tx f s) .rx = fifo s .rx := rfl

@[simp] theorem fifo_setFifo_rx_tx (f : Fifo) (s : State) : fifo (setFifo .rx f s) .tx = fifo s .tx := rfl

@[simp] theorem setFifo_setFifo (q : FifoId) (f g : Fifo) (s : State) :
    setFifo q f (setFifo q g s) = setFifo q f s := by
  cases q <;> rfl

/-- The ring buffer after a stored byte. -/
def Fifo.pushed (n : Nat) (b : Byte) (f : Fifo) : Fifo :=
  { f with mem := Memory.write f.mem f.head b, head := (f.head + 1) % n }

/-- The ring buffer after a removed byte. -/
def Fifo.popped (n : Nat) (f : Fifo) : Fifo := { f with tail := (f.tail + 1) % n }

/-! ## The primitives -/

theorem fifoPut_full {q : FifoId} (b : Byte) {s : State} (h : full q s = true) :
    fifoPut q b s = .ok (false, s) := by
  simp [fifoPut, h]

theorem fifoPut_room {q : FifoId} (b : Byte) {s : State} (h : full q s = false) (hi : (fifo s q).head < slots s q) :
    fifoPut q b s = .ok (true, setFifo q ((fifo s q).pushed (slots s q) b) s) := by
  simp [fifoPut, h, memWrite, hi, advanceHead, Fifo.pushed]

/-- Everything FifoPut can do when it answers. -/
theorem fifoPut_cases {q : FifoId} {b : Byte} {s s' : State} {st : Bool} (h : fifoPut q b s = .ok (st, s')) :
    (full q s = true ∧ st = false ∧ s' = s) ∨
    (full q s = false ∧ (fifo s q).head < slots s q ∧ st = true ∧
      s' = setFifo q ((fifo s q).pushed (slots s q) b) s) := by
  cases hf : full q s with
  | true => rw [fifoPut_full b hf] at h; cases h; simp
  | false =>
    by_cases hi : (fifo s q).head < slots s q
    · rw [fifoPut_room b hf hi] at h; cases h; simp [hi]
    · simp [fifoPut, hf, memWrite, hi] at h

theorem fifoGet_empty {q : FifoId} {s : State} (h : empty q s = true) : fifoGet q s = .ok (false, 0, s) := by
  simp [fifoGet, h]

theorem fifoGet_some {q : FifoId} {s : State} (h : empty q s = false) (hi : (fifo s q).tail < slots s q) :
    fifoGet q s = .ok (true, Memory.read (fifo s q).mem (fifo s q).tail,
      setFifo q ((fifo s q).popped (slots s q)) s) := by
  simp [fifoGet, h, memRead, hi, advanceTail, Fifo.popped]

/-- Everything FifoGet can do when it answers. -/
theorem fifoGet_cases {q : FifoId} {b : Byte} {s s' : State} {ok : Bool} (h : fifoGet q s = .ok (ok, b, s')) :
    (empty q s = true ∧ ok = false ∧ b = 0 ∧ s' = s) ∨
    (empty q s = false ∧ (fifo s q).tail < slots s q ∧ ok = true ∧
      b = Memory.read (fifo s q).mem (fifo s q).tail ∧
      s' = setFifo q ((fifo s q).popped (slots s q)) s) := by
  cases he : empty q s with
  | true => rw [fifoGet_empty he] at h; cases h; simp
  | false =>
    by_cases hi : (fifo s q).tail < slots s q
    · rw [fifoGet_some he hi] at h; cases h; simp [hi]
    · simp [fifoGet, he, memRead, hi] at h

/-! ## Index arithmetic -/

theorem mod_of_lt_twice {n a : Nat} (h : a < 2 * n) : a % n = if a < n then a else a - n := by
  split
  · next h1 => exact Nat.mod_eq_of_lt h1
  · next h1 =>
    rw [Nat.mod_eq_sub_mod (by omega), Nat.mod_eq_of_lt (by omega)]

/-- The count of two indices in range, without a remainder. -/
theorem ringCount {n h t : Nat} (hh : h < n) (ht : t < n) :
    (h + n - t) % n = if t ≤ h then h - t else h + n - t := by
  rw [mod_of_lt_twice (by omega)]
  split <;> split <;> omega

theorem fifoCount_eq {q : FifoId} {s : State} (h : IndicesOk q s) :
    fifoCount q s = if (fifo s q).tail ≤ (fifo s q).head then (fifo s q).head - (fifo s q).tail
      else (fifo s q).head + slots s q - (fifo s q).tail :=
  ringCount h.1 h.2

theorem fifoCount_lt {q : FifoId} {s : State} (h : IndicesOk q s) : fifoCount q s < slots s q :=
  Nat.mod_lt _ (by have := h.1; omega)

/-! ## The bytes held -/

/-- The bytes between two indices of a storage, the oldest first. -/
def ringBytes (n : Nat) (f : Fifo) : List Byte :=
  (List.range ((f.head + n - f.tail) % n)).map fun k => Memory.read f.mem ((f.tail + k) % n)

theorem contents_eq (q : FifoId) (s : State) : contents q s = ringBytes (slots s q) (fifo s q) := rfl

theorem length_contents (q : FifoId) (s : State) : (contents q s).length = fifoCount q s := by
  simp [contents]

/-- A stored byte is the newest. -/
theorem ringBytes_pushed {n : Nat} (b : Byte) {f : Fifo} (hh : f.head < n) (ht : f.tail < n)
    (hroom : (f.head + 1) % n ≠ f.tail) (hwf : Memory.wf f.mem = true) :
    ringBytes n (f.pushed n b) = ringBytes n f ++ [b] := by
  have hmod := mod_of_lt_twice (n := n) (a := f.head + 1) (by omega)
  have hc : ((f.head + 1) % n + n - f.tail) % n = (f.head + n - f.tail) % n + 1 := by
    rw [ringCount (Nat.mod_lt _ (by omega)) ht, ringCount hh ht]
    rw [hmod] at hroom ⊢
    split_ifs at hroom ⊢ <;> omega
  have hlast : (f.tail + (f.head + n - f.tail) % n) % n = f.head := by
    rw [ringCount hh ht, mod_of_lt_twice (by split <;> omega)]
    split <;> split <;> omega
  simp only [ringBytes, Fifo.pushed, hc, List.range_succ, List.map_append, List.map_cons, List.map_nil, hlast,
    read_write_same _ _ hwf]
  congr 1
  apply List.map_congr_left
  intro k hk
  rw [List.mem_range, ringCount hh ht] at hk
  apply read_write_other
  rw [mod_of_lt_twice (by split at hk <;> omega)]
  split at hk <;> split <;> omega

/-- A removed byte was the oldest. -/
theorem ringBytes_popped {n : Nat} {f : Fifo} (hh : f.head < n) (ht : f.tail < n) (hne : f.head ≠ f.tail) :
    ringBytes n f = Memory.read f.mem f.tail :: ringBytes n (f.popped n) := by
  have hmod := mod_of_lt_twice (n := n) (a := f.tail + 1) (by omega)
  have hc : (f.head + n - f.tail) % n = (f.head + n - (f.tail + 1) % n) % n + 1 := by
    rw [ringCount hh ht, ringCount hh (Nat.mod_lt _ (by omega)), hmod]
    split_ifs <;> omega
  simp only [ringBytes, Fifo.popped, hc, List.range_succ_eq_map, List.map_cons, List.map_map, Nat.add_zero,
    Nat.mod_eq_of_lt ht]
  congr 1
  apply List.map_congr_left
  intro k _
  simp only [Function.comp]
  congr 1
  rw [Nat.mod_add_mod]
  congr 1
  omega

/-- A FIFO with its indices in range is empty exactly when it holds no byte. -/
theorem empty_iff_contents {q : FifoId} {s : State} (h : IndicesOk q s) : empty q s = true ↔ contents q s = [] := by
  rw [← List.length_eq_zero_iff, length_contents, fifoCount_eq h]
  have h1 := h.1
  have h2 := h.2
  simp only [empty, beq_iff_eq]
  split <;> omega

/-- A FIFO with its indices in range is full exactly when it holds `N - 1` bytes. -/
theorem full_iff_contents {q : FifoId} {s : State} (hn : 2 ≤ slots s q) (h : IndicesOk q s) :
    full q s = true ↔ (contents q s).length = slots s q - 1 := by
  rw [length_contents, fifoCount_eq h]
  have h1 := h.1
  have h2 := h.2
  have hmod := mod_of_lt_twice (n := slots s q) (a := (fifo s q).head + 1) (by omega)
  simp only [full, beq_iff_eq, hmod]
  split <;> split <;> omega

end Sys2Proof.Machine
end

