-- ==== Sys2Proof/Laws/Schedule.lean ====
section
/-! SUPPORT. Schedules on the wrapping counter (40_bitclock R128 to R131): how many ticks until a compare value, and how a tick and a new schedule change that number. -/

namespace Sys2Proof.Machine

theorem wrap_lt (p : Params) (v : Nat) : wrap p v < 2 ^ p.tw := Nat.mod_lt _ (by positivity)

theorem wrap_of_lt {p : Params} {v : Nat} (h : v < 2 ^ p.tw) : wrap p v = v := Nat.mod_eq_of_lt h

theorem ticksUntil_eq {p : Params} {timer cmp : Nat} (ht : timer < 2 ^ p.tw) (hc : cmp < 2 ^ p.tw) :
    ticksUntil p timer cmp = if timer ≤ cmp then cmp - timer else cmp + 2 ^ p.tw - timer :=
  ringCount hc ht

/-- The compare value is reached exactly when no tick is left. -/
theorem ticksUntil_eq_zero {p : Params} {timer cmp : Nat} (ht : timer < 2 ^ p.tw) (hc : cmp < 2 ^ p.tw) :
    ticksUntil p timer cmp = 0 ↔ timer = cmp := by
  rw [ticksUntil_eq ht hc]
  split <;> omega

/-- A tick takes one off, whether or not the counter wraps (R131). -/
theorem ticksUntil_advance {p : Params} {timer cmp : Nat} (ht : timer < 2 ^ p.tw) (hc : cmp < 2 ^ p.tw)
    (h : 1 ≤ ticksUntil p timer cmp) : ticksUntil p (wrap p (timer + 1)) cmp = ticksUntil p timer cmp - 1 := by
  have hw : wrap p (timer + 1) = if timer + 1 < 2 ^ p.tw then timer + 1 else timer + 1 - 2 ^ p.tw :=
    mod_of_lt_twice (by omega)
  rw [ticksUntil_eq (wrap_lt p _) hc]
  rw [ticksUntil_eq ht hc] at h ⊢
  rw [hw]
  split_ifs at h ⊢ <;> omega

/-- A schedule of `d` ticks made at a counter value is `d` ticks away from it (R131). -/
theorem ticksUntil_schedule {p : Params} {timer d : Nat} (ht : timer < 2 ^ p.tw) (hd : d < 2 ^ p.tw) :
    ticksUntil p timer (wrap p (timer + d)) = d := by
  have hw : wrap p (timer + d) = if timer + d < 2 ^ p.tw then timer + d else timer + d - 2 ^ p.tw :=
    mod_of_lt_twice (by omega)
  rw [ticksUntil_eq ht (wrap_lt p _), hw]
  split_ifs <;> omega

end Sys2Proof.Machine
end

