-- ==== Sys2Proof/Laws/Engines.lean ====
section
/-! SUPPORT. What the engines, the two parts of a tick and TXPUT can do, said once. -/

namespace Sys2Proof.Machine

/-- Kick as one update: a Framing engine is Framing already (R141). -/
theorem kick_eq (s : State) :
    kick s = { s with
      txCmp := if s.txState = .idle then wrap s.params (s.timer + s.ticksPerBit) else s.txCmp
      txState := .framing } := by
  ext1 <;> simp

/-- The start bit of a frame is low (R144). -/
theorem lineBit_buildFrame (b : Byte) : lineBit (buildFrame b) = false := by
  revert b
  decide

/-- What a load keeps of the frame (R144, R146). -/
theorem buildFrame_shifted (b : Byte) : buildFrame b >>> 1 = b.zeroExtend 10 ||| 0x100 := by
  revert b
  decide

/-- The TX state after a load of a non-empty FIFO. -/
def loaded (s : State) : State :=
  startFrame (Memory.read s.txFifo.mem s.txFifo.tail) (setFifo .tx (s.txFifo.popped s.params.nTx) s)

/-- Everything TX_LOAD can do when it answers. -/
theorem txLoad_cases {s t : State} (h : txLoad s = .ok t) :
    (empty .tx s = true ∧ t = startFrame 0 s) ∨
    (empty .tx s = false ∧ s.txFifo.tail < s.params.nTx ∧ t = loaded s) := by
  unfold txLoad at h
  split at h
  · cases h
  · next hg =>
    cases h
    rcases fifoGet_cases hg with ⟨he, rfl, rfl, rfl⟩ | ⟨he, hi, rfl, rfl, rfl⟩
    · exact .inl ⟨he, rfl⟩
    · exact .inr ⟨he, hi, rfl⟩

theorem txLoad_ok {s : State} (he : empty .tx s = false) (hi : s.txFifo.tail < s.params.nTx) :
    txLoad s = .ok (loaded s) := by
  simp only [txLoad, fifoGet_some he hi]
  rfl

/-- Everything the TX part of a tick can do when it answers (R127, R142). -/
theorem txPart_cases {s t : State} (h : txPart s = .ok t) :
    (txMatch s = false ∧ t = s) ∨
    (txMatch s = true ∧ 0 < s.bitsRemaining ∧ t = txShift s) ∨
    (txMatch s = true ∧ ¬ 0 < s.bitsRemaining ∧ empty .tx s = true ∧ t = txIdle s) ∨
    (txMatch s = true ∧ ¬ 0 < s.bitsRemaining ∧ empty .tx s = false ∧ s.txFifo.tail < s.params.nTx ∧
      t = loaded s) := by
  unfold txPart txEvent at h
  cases hm : txMatch s with
  | false => simp [hm] at h; simp [h]
  | true =>
    by_cases hb : 0 < s.bitsRemaining
    · simp only [hm, hb, if_true] at h
      cases h
      exact .inr (.inl ⟨rfl, hb, rfl⟩)
    · cases he : empty .tx s with
      | true =>
        simp only [hm, hb, he, if_true, if_false] at h
        cases h
        exact .inr (.inr (.inl ⟨rfl, hb, rfl, rfl⟩))
      | false =>
        simp only [hm, hb, he, if_true, if_false, Bool.false_eq_true] at h
        rcases txLoad_cases h with ⟨he', -⟩ | ⟨-, hi, rfl⟩
        · rw [he] at he'; cases he'
        · exact .inr (.inr (.inr ⟨rfl, hb, rfl, hi, rfl⟩))

/-- The TX part of a tick always answers while the tail is in range. -/
theorem txPart_ok {s : State} (hi : s.txFifo.tail < s.params.nTx) : ∃ t, txPart s = .ok t := by
  unfold txPart txEvent
  split
  · split
    · exact ⟨_, rfl⟩
    · split
      · exact ⟨_, rfl⟩
      · next he => exact ⟨_, txLoad_ok (by simpa using he) hi⟩
  · exact ⟨_, rfl⟩

/-- The RX state after a byte that found room. -/
def byteStored (s : State) : State :=
  endByte true (setFifo .rx (s.rxFifo.pushed s.params.nRx s.accumulator) s)

/-- Everything RX_DONE can do when it answers (R164). -/
theorem rxDone_cases {s t : State} (h : rxDone s = .ok t) :
    (full .rx s = true ∧ t = endByte false s) ∨
    (full .rx s = false ∧ s.rxFifo.head < s.params.nRx ∧ t = byteStored s) := by
  unfold rxDone at h
  split at h
  · cases h
  · next hp =>
    cases h
    rcases fifoPut_cases hp with ⟨hf, rfl, rfl⟩ | ⟨hf, hi, rfl, rfl⟩
    · exact .inl ⟨hf, rfl⟩
    · exact .inr ⟨hf, hi, rfl⟩

theorem rxDone_full {s : State} (h : full .rx s = true) : rxDone s = .ok (endByte false s) := by
  simp [rxDone, fifoPut_full s.accumulator h]

theorem rxDone_room {s : State} (h : full .rx s = false) (hi : s.rxFifo.head < s.params.nRx) :
    rxDone s = .ok (byteStored s) := by
  simp only [rxDone, fifoPut_room s.accumulator h hi]
  rfl

theorem rxDone_ok {s : State} (hi : s.rxFifo.head < s.params.nRx) : ∃ t, rxDone s = .ok t := by
  cases h : full .rx s with
  | true => exact ⟨_, rxDone_full h⟩
  | false => exact ⟨_, rxDone_room h hi⟩

/-- Everything RX_SAMPLE can do when it answers (R163). -/
theorem rxSample_cases {l : Bool} {s t : State} (h : rxSample l s = .ok t) :
    (s.bitsSampled + 1 ≠ 8 ∧ t = sampleBit l s) ∨
    (s.bitsSampled + 1 = 8 ∧ full .rx s = true ∧ t = endByte false (sampleBit l s)) ∨
    (s.bitsSampled + 1 = 8 ∧ full .rx s = false ∧ s.rxFifo.head < s.params.nRx ∧ t = byteStored (sampleBit l s)) := by
  unfold rxSample at h
  split at h
  · next hb =>
    rcases rxDone_cases h with ⟨hf, rfl⟩ | ⟨hf, hi, rfl⟩
    · exact .inr (.inl ⟨hb, hf, rfl⟩)
    · exact .inr (.inr ⟨hb, hf, hi, rfl⟩)
  · next hb =>
    cases h
    exact .inl ⟨hb, rfl⟩

theorem rxSample_ok (l : Bool) {s : State} (hi : s.rxFifo.head < s.params.nRx) : ∃ t, rxSample l s = .ok t := by
  unfold rxSample
  split
  · exact rxDone_ok hi
  · exact ⟨_, rfl⟩

/-- Everything the RX part of a tick can do when it answers (R127). -/
theorem rxPart_cases {l : Bool} {s t : State} (h : rxPart l s = .ok t) :
    (edgeTaken s = true ∧ t = rxEdge s) ∨
    (edgeTaken s = false ∧ rxMatch s = true ∧ rxSample l s = .ok t) ∨
    (edgeTaken s = false ∧ rxMatch s = false ∧ t = s) := by
  unfold rxPart at h
  cases he : edgeTaken s with
  | true => simp [he] at h; simp [h]
  | false =>
    cases hm : rxMatch s with
    | true => simp [he, hm] at h; simp [h]
    | false => simp [he, hm] at h; simp [h]

theorem rxPart_ok (l : Bool) {s : State} (hi : s.rxFifo.head < s.params.nRx) : ∃ t, rxPart l s = .ok t := by
  unfold rxPart
  split
  · exact ⟨_, rfl⟩
  · split
    · exact rxSample_ok l hi
    · exact ⟨_, rfl⟩

/-- A tick that answers is its two parts, one after the other (R127). -/
theorem tick_cases {l : Bool} {s t : State} (h : tick l s = .ok t) :
    ∃ u, rxPart l (edgeLatch l (advanceTimer s)) = .ok u ∧ txPart u = .ok t := by
  unfold tick at h
  split at h
  · cases h
  · next u hu => exact ⟨u, hu, h⟩

/-- TXPUT as one update where it queues its byte (R182). -/
theorem execTxput_room (b : Byte) {s : State} (hc : s.configured = true) (hf : full .tx s = false)
    (hi : s.txFifo.head < s.params.nTx) :
    execTxput b s = .next (respond 0 (kick (setFifo .tx (s.txFifo.pushed s.params.nTx b) s))) := by
  simp only [execTxput, hc, hf, fifoPut_room b hf hi]
  rfl

/-- Everything TXPUT can do when it answers (R182). -/
theorem execTxput_cases {b : Byte} {s t : State} (h : execTxput b s = .next t) :
    (s.configured = false ∧ t = raise (.notConfigured b) s) ∨
    (s.configured = true ∧ full .tx s = true ∧ t = hold (txputWord b) s) ∨
    (s.configured = true ∧ full .tx s = false ∧ s.txFifo.head < s.params.nTx ∧
      t = respond 0 (kick (setFifo .tx (s.txFifo.pushed s.params.nTx b) s))) := by
  cases hc : s.configured with
  | false => simp [execTxput, hc] at h; simp [h]
  | true =>
    cases hf : full .tx s with
    | true => simp [execTxput, hc, hf] at h; simp [h]
    | false =>
      by_cases hi : s.txFifo.head < s.params.nTx
      · rw [execTxput_room b hc hf hi] at h
        cases h
        exact .inr (.inr ⟨rfl, rfl, hi, rfl⟩)
      · have hi' : ¬ (fifo s .tx).head < slots s .tx := hi
        simp [execTxput, hc, hf, fifoPut, memWrite, hi'] at h

/-- Everything RXGET can do when it answers (R185). -/
theorem execRxget_cases {s t : State} (h : execRxget s = .next t) :
    (empty .rx s = true ∧ t = respond 0 s) ∨
    (empty .rx s = false ∧ s.rxFifo.tail < s.params.nRx ∧
      t = respond (0x100 ||| (Memory.read s.rxFifo.mem s.rxFifo.tail).zeroExtend 32)
        (setFifo .rx (s.rxFifo.popped s.params.nRx) s)) := by
  unfold execRxget at h
  split at h
  · contradiction
  · next hg =>
    cases h
    rcases fifoGet_cases hg with ⟨he, rfl, rfl, rfl⟩ | ⟨he, hi, rfl, rfl, rfl⟩
    · exact .inl ⟨he, rfl⟩
    · exact .inr ⟨he, hi, rfl⟩

end Sys2Proof.Machine
end

