-- ==== Sys2Proof/Laws/PerInstr.lean ====
section
/-! SUPPORT. Statements per instruction: the encoding of each is selected by its own row of the opcode map (30_encoding R93), or is the identifier of its event (R98). -/

namespace Sys2Proof.Laws.EncodedByItsRow

/-- A command's word is selected by the row with its mnemonic; an event's identifier names it. -/
def Statement (i : Instr) : Prop :=
  i.wellFormed = true →
    match encode i with
    | .cmd w => ∃ r ∈ cmdRows, r.mnemonic = mnemonic i ∧ r.selects w = true
    | .evt id => decodeEvt id = .ok i

theorem config (baud : Word) : Statement (.config baud) := by
  intro _
  refine ⟨⟨"CONFIG", 0x10000000, 0xFF000000⟩, by decide, rfl, ?_⟩
  simp only [CmdRow.selects, beq_iff_eq, packCmd]
  ext i hi
  simp
  interval_cases i <;> simp

theorem txput (b : Byte) : Statement (.txput b) := by
  intro _
  refine ⟨⟨"TXPUT", 0x20000000, 0xFFFFFF00⟩, by decide, rfl, ?_⟩
  simp only [CmdRow.selects, beq_iff_eq, txputWord, packCmd]
  ext i hi
  simp
  interval_cases i <;> simp

theorem rxget : Statement .rxget := fun _ => ⟨⟨"RXGET", 0x30000000, 0xFFFFFFFF⟩, by decide, rfl, by decide⟩

theorem rxcount : Statement .rxcount := fun _ => ⟨⟨"RXCOUNT", 0x40000000, 0xFFFFFFFF⟩, by decide, rfl, by decide⟩

theorem rdcntTx : Statement .rdcntTx := fun _ => ⟨⟨"RDCNT_TX", 0x50000000, 0xFFFFFFFF⟩, by decide, rfl, by decide⟩

theorem rdcntRx : Statement .rdcntRx := fun _ => ⟨⟨"RDCNT_RX", 0x51000000, 0xFFFFFFFF⟩, by decide, rfl, by decide⟩

theorem rdcntEdge : Statement .rdcntEdge :=
  fun _ => ⟨⟨"RDCNT_EDGE", 0x52000000, 0xFFFFFFFF⟩, by decide, rfl, by decide⟩

theorem clrcnt : Statement .clrcnt := fun _ => ⟨⟨"CLRCNT", 0x60000000, 0xFFFFFFFF⟩, by decide, rfl, by decide⟩

theorem rdstat : Statement .rdstat := fun _ => ⟨⟨"RDSTAT", 0x70000000, 0xFFFFFFFF⟩, by decide, rfl, by decide⟩

theorem tick : Statement .tick := fun _ => rfl

theorem txShift : Statement .txShift := fun _ => rfl

theorem txLoad : Statement .txLoad := fun _ => rfl

theorem txIdle : Statement .txIdle := fun _ => rfl

theorem rxEdge : Statement .rxEdge := fun _ => rfl

theorem rxSample : Statement .rxSample := fun _ => rfl

theorem rxDone : Statement .rxDone := fun _ => rfl

theorem kick : Statement .kick := fun _ => rfl

theorem edgeLatch : Statement .edgeLatch := fun _ => rfl

end Sys2Proof.Laws.EncodedByItsRow
end

