-- ==== Sys2Proof/Machine/HostProgram.lean ====
section
/-! DEFINITION. The host side of the command language: assembler operands (30_encoding R99) and the pseudo-instructions (30_encoding R101, 43_host_api R190 to R193; log 18). -/

namespace Sys2Proof.Machine

/-- A line of a host program, its operand as written (R99). -/
inductive AsmLine where
  | config (baud : Nat)
  | txput (byte : Nat)
  /-- `TXPUT 'c'`: the code of `c` (R99, 93 G2: ASCII). -/
  | txputChar (c : Char)
  | rxget
  | rxcount
  | rdcntTx
  | rdcntRx
  | rdcntEdge
  | clrcnt
  | rdstat
  deriving DecidableEq, Repr

/-- The word of a line; an operand out of range is an assembly error, not a word (R99). -/
def assemble : AsmLine → Option Word
  | .config baud => if baud < 2 ^ 24 then some (packCmd 0x1 0 (BitVec.ofNat 24 baud)) else none
  | .txput b => if b < 256 then some (txputWord (BitVec.ofNat 8 b)) else none
  | .txputChar c => if c.toNat < 128 then some (txputWord (BitVec.ofNat 8 c.toNat)) else none
  | .rxget => some 0x30000000
  | .rxcount => some 0x40000000
  | .rdcntTx => some 0x50000000
  | .rdcntRx => some 0x51000000
  | .rdcntEdge => some 0x52000000
  | .clrcnt => some 0x60000000
  | .rdstat => some 0x70000000

/-- The pseudo-instructions whose expansion needs no response (R101), `REPORTSTATS` with its text given. `READSNAP`, and
`REPORTSTATS` as host software performs it, are `Job`s. -/
inductive Pseudo where
  | enqueue (b : Byte)
  | enqstr (text : List Byte)
  | available
  | read
  /-- The text is made by host software from the three counters (R192); its format is not in the spec. -/
  | reportstats (text : List Byte)
  | resetcounters
  | configure (baud : Word)
  deriving DecidableEq, Repr

/-- `ENQSTR`: one `TXPUT` per byte, in order, with no terminator (R190). -/
def enqstr (text : List Byte) : List Instr := text.map Instr.txput

/-- The commands a pseudo-instruction expands to (R101, R190, R192, R193). -/
def expand : Pseudo → List Instr
  | .enqueue b => [.txput b]
  | .enqstr text => enqstr text
  | .available => [.rxcount]
  | .read => [.rxget]
  | .reportstats text => [.rdcntTx, .rdcntRx, .rdcntEdge] ++ enqstr text
  | .resetcounters => [.clrcnt]
  | .configure baud => [.config baud]

/-- The items of a test program that offer these commands (R100); an event has no word. -/
def itemsOf : List Instr → List Item
  | [] => []
  | i :: rest =>
    match encode i with
    | .cmd w => .cmd w :: itemsOf rest
    | .evt _ => itemsOf rest

end Sys2Proof.Machine
end

