-- ==== Sys2Proof/Machine/Assembler.lean ====
section
/-! DEFINITION. The text of a host program: the syntax of commands and directives (30_encoding R99, R100) and of the pseudo-instructions (R101). Text is a list of characters. -/

namespace Sys2Proof.Machine

/-- A blank between the parts of a line. -/
def isBlank (c : Char) : Bool := c == ' ' || c == '\t'

/-- Text from its first character that is no blank. -/
def trimStart : List Char → List Char
  | [] => []
  | c :: cs => if isBlank c then trimStart cs else c :: cs

/-- Text without blanks at either end. -/
def trimText (cs : List Char) : List Char := (trimStart (trimStart cs).reverse).reverse

/-- Text after `;` is a comment (R99), in a literal too (log 18). -/
def dropComment : List Char → List Char
  | [] => []
  | c :: cs => if c == ';' then [] else c :: dropComment cs

/-- The text before the first blank, and the rest. -/
def splitBlank : List Char → List Char × List Char
  | [] => ([], [])
  | c :: cs => if isBlank c then ([], cs) else (c :: (splitBlank cs).1, (splitBlank cs).2)

/-- A digit of a base, in either case (log 18). -/
def digitOf (base : Nat) (c : Char) : Option Nat :=
  let v :=
    if 48 ≤ c.toNat ∧ c.toNat ≤ 57 then c.toNat - 48
    else if 65 ≤ c.toNat ∧ c.toNat ≤ 70 then c.toNat - 55
    else if 97 ≤ c.toNat ∧ c.toNat ≤ 102 then c.toNat - 87
    else base
  if v < base then some v else none

/-- The value of digits, after those already read. -/
def digitsOf (base : Nat) : Nat → List Char → Option Nat
  | acc, [] => some acc
  | acc, c :: cs => (digitOf base c).bind fun d => digitsOf base (acc * base + d) cs

/-- Numbers are decimal, `0x` hexadecimal or `0b` binary (R99). -/
def numberOf (cs : List Char) : Option Nat :=
  match cs with
  | [] => none
  | _ :: [] => digitsOf 10 0 cs
  | _ :: _ :: [] => digitsOf 10 0 cs
  | a :: b :: rest =>
    if a == '0' && b == 'x' then digitsOf 16 0 rest
    else if a == '0' && b == 'b' then digitsOf 2 0 rest
    else digitsOf 10 0 cs

/-- A byte operand: a number, or a character literal (R99). -/
def byteLine (cs : List Char) : Option AsmLine :=
  match cs with
  | ['\'', c, '\''] => some (.txputChar c)
  | _ => (numberOf cs).map AsmLine.txput

/-- A line that takes no operand. -/
def plainLine (l : AsmLine) (operand : List Char) : Option AsmLine := if operand = [] then some l else none

/-- `RDCNT TX`, `RDCNT RX` or `RDCNT EDGE` (R99). -/
def counterLine (operand : List Char) : Option AsmLine :=
  if operand = ['T', 'X'] then some .rdcntTx
  else if operand = ['R', 'X'] then some .rdcntRx
  else if operand = ['E', 'D', 'G', 'E'] then some .rdcntEdge
  else none

/-- A command by its mnemonic (R99) or by its alias (R101, R193). -/
def commandLine (word operand : List Char) : Option AsmLine :=
  if word = ['C', 'O', 'N', 'F', 'I', 'G'] ∨ word = ['C', 'O', 'N', 'F', 'I', 'G', 'U', 'R', 'E'] then
    (numberOf operand).map AsmLine.config
  else if word = ['T', 'X', 'P', 'U', 'T'] ∨ word = ['E', 'N', 'Q', 'U', 'E', 'U', 'E'] then byteLine operand
  else if word = ['R', 'X', 'G', 'E', 'T'] ∨ word = ['R', 'E', 'A', 'D'] then plainLine .rxget operand
  else if word = ['R', 'X', 'C', 'O', 'U', 'N', 'T'] ∨ word = ['A', 'V', 'A', 'I', 'L', 'A', 'B', 'L', 'E'] then
    plainLine .rxcount operand
  else if word = ['R', 'D', 'C', 'N', 'T'] then counterLine operand
  else if word = ['C', 'L', 'R', 'C', 'N', 'T'] ∨
      word = ['R', 'E', 'S', 'E', 'T', 'C', 'O', 'U', 'N', 'T', 'E', 'R', 'S'] then plainLine .clrcnt operand
  else if word = ['R', 'D', 'S', 'T', 'A', 'T'] then plainLine .rdstat operand
  else none

/-- A sequence of levels, 0 or 1, and whether its last level goes on. R100 gives the sequence no written form: 95_test_vectors P6
writes blanks between the levels and `...` after one that goes on, and the model also reads levels with no blank between them
(DESIGN CHOICE, log 18). -/
def levelsOf : List Char → Option (List Bool × Bool)
  | [] => some ([], false)
  | c :: cs =>
    if isBlank c then levelsOf cs
    else if c == '0' then (levelsOf cs).map fun r => (false :: r.1, r.2)
    else if c == '1' then (levelsOf cs).map fun r => (true :: r.1, r.2)
    else if c == '.' then (if cs = ['.', '.'] then some ([], true) else none)
    else none

/-- A sequence of at least one level. -/
def levelsMode : List Bool × Bool → Option LineMode
  | ([], _) => none
  | (l :: ls, goesOn) => some (.levels (l :: ls) (if goesOn then (l :: ls).getLast? else none))

/-- What `LINE` names (R100). -/
def lineModeOf (operand : List Char) : Option LineMode :=
  if operand = ['L', 'O', 'O', 'P', 'B', 'A', 'C', 'K'] then some .loopback
  else if operand = ['I', 'D', 'L', 'E'] then some .idle
  else (levelsOf operand).bind levelsMode

/-- The words of the characters of a text, which are ASCII (R99, R190). -/
def textWords : List Char → Option (List Item)
  | [] => some []
  | c :: cs => (assemble (.txputChar c)).bind fun w => (textWords cs).map (.cmd w :: ·)

/-- `ENQSTR "<text>"` (R101, R190). The spec gives no quoting rule: the first and the last quote delimit the text, and a quote
between them is a byte of it (DESIGN CHOICE, log 18). -/
def stringItems (operand : List Char) : Option (List Item) :=
  match operand, operand.reverse with
  | '"' :: body, '"' :: _ => if body = [] then none else textWords body.dropLast
  | _, _ => none

/-- The items of a line: none where it is empty, a directive, a pseudo-instruction, or one command. An operand out of range is
an assembly error (R99). -/
def lineItems (line : List Char) : Option (List Item) :=
  let text := trimText (dropComment line)
  let word := (splitBlank text).1
  let operand := trimText (splitBlank text).2
  if text = [] then some []
  else if word = ['W', 'A', 'I', 'T'] then (numberOf operand).map fun n => [.wait n]
  else if word = ['L', 'I', 'N', 'E'] then (lineModeOf operand).map fun m => [.line m]
  else if word = ['E', 'N', 'Q', 'S', 'T', 'R'] then stringItems operand
  else if word = ['R', 'E', 'A', 'D', 'S', 'N', 'A', 'P'] then (if operand = [] then some [.readsnap] else none)
  else if word = ['R', 'E', 'P', 'O', 'R', 'T', 'S', 'T', 'A', 'T', 'S'] then
    (if operand = [] then some [.reportstats] else none)
  else ((commandLine word operand).bind assemble).map fun w => [.cmd w]

/-- A host program, one command or directive a line (R99, R100); an error in a line is an error of the program. -/
def programItems : List (List Char) → Option (List Item)
  | [] => some []
  | l :: ls => (lineItems l).bind fun items => (programItems ls).map (items ++ ·)

end Sys2Proof.Machine
end

