-- ==== Sys2Proof/Tests/Slice0.lean ====
section
/-! SUPPORT. Tests: each expected value is a row of 95_test_vectors, a rule's own example, or worked out by hand from a rule; and for every statement with hypotheses a witness that meets them. -/

namespace Sys2Proof.Tests

open Sys2Proof Sys2Proof.Machine

/-! ## Helpers -/

/-- 95_test_vectors' parameters with small FIFOs. -/
def small : Params := { nTx := 4, nRx := 4, tw := 8, tickRate := 38400, rxCountDrops := true }

/-- The least parameters R10 admits. -/
def least : Params := { nTx := 2, nRx := 2, tw := 2, tickRate := 1, rxCountDrops := false }

/-- A block right after `CONFIG 9600` (R121's example): `ticksPerBit = 4`. -/
def conf : State := { State.resetWith small with configured := true, ticksPerBit := 4, txOE := true, rxPullEn := true }

/-- A ring buffer. -/
def ring (mem : Memory) (head tail : Nat) : Fifo := { mem := mem, head := head, tail := tail }

/-- What a test looks at in the next state. -/
def after {α : Type} (f : State → α) : Host.Outcome State Fault Refusal → Option α
  | .next s => some (f s)
  | .fault _ => none
  | .refused _ => none

/-- A state with a test program (R100). -/
def script (items : List Item) (s : State) : State := setAgenda items s

/-! ## Well-formed instructions -/

/-- R92: a baud of 24 bits, and no more. -/
theorem test_config_ill_formed :
    (Instr.config 0x1000000).wellFormed = false ∧ (Instr.config 0xFFFFFF).wellFormed = true := by decide

/-! ## Decoding, words written out from R93, R98, R99 and the rows B, H and I -/

theorem test_decode_config : decodeCmd 0x10002580 = .ok (.config 9600) := by decide

theorem test_decode_config_sel : decodeCmd 0x11002580 = .error (.reservedSel 1 1) := by decide

theorem test_decode_txput : decodeCmd 0x20000041 = .ok (.txput 0x41) := by decide

theorem test_decode_txput_reserved : decodeCmd 0x20000141 = .error (.reservedArg 2 0x141) := by decide

theorem test_decode_rxget : decodeCmd 0x30000000 = .ok .rxget ∧
    decodeCmd 0x31000000 = .error (.reservedSel 3 1) := by decide

theorem test_decode_rxcount : decodeCmd 0x40000000 = .ok .rxcount ∧
    decodeCmd 0x40000100 = .error (.reservedArg 4 0x100) := by decide

theorem test_decode_rdcnt : decodeCmd 0x50000000 = .ok .rdcntTx ∧ decodeCmd 0x51000000 = .ok .rdcntRx ∧
    decodeCmd 0x52000000 = .ok .rdcntEdge ∧ decodeCmd 0x53000000 = .error (.reservedSel 5 3) := by decide

theorem test_decode_clrcnt : decodeCmd 0x60000000 = .ok .clrcnt ∧
    decodeCmd 0x61000000 = .error (.reservedSel 6 1) := by decide

theorem test_decode_rdstat : decodeCmd 0x70000000 = .ok .rdstat ∧
    decodeCmd 0x70000001 = .error (.reservedArg 7 1) := by decide

theorem test_decode_reserved_op : decodeCmd 0 = .error (.reservedOp 0) ∧
    decodeCmd 0x80000000 = .error (.reservedOp 8) ∧ decodeCmd 0xF0000000 = .error (.reservedOp 15) := by decide

theorem test_decode_events : decodeEvt 0 = .ok .tick ∧ decodeEvt 1 = .ok .txShift ∧ decodeEvt 2 = .ok .txLoad ∧
    decodeEvt 3 = .ok .txIdle ∧ decodeEvt 4 = .ok .rxEdge ∧ decodeEvt 5 = .ok .rxSample ∧
    decodeEvt 6 = .ok .rxDone ∧ decodeEvt 7 = .ok .kick ∧ decodeEvt 8 = .ok .edgeLatch ∧
    decodeEvt 9 = .error (.unusedEvent 9) ∧ decodeEvt 15 = .error (.unusedEvent 15) := by decide

/-- R99: `TXPUT 'H'` and `CONFIG 16777215` (B12); 256 and `2^24` are assembly errors. -/
theorem test_assemble : assemble (.txputChar 'H') = some 0x20000048 ∧ assemble (.config 16777215) = some 0x10FFFFFF ∧
    assemble (.txput 256) = none ∧ assemble (.config 16777216) = none := by decide

/-- R101, R190: `ENQSTR "HI"` is two `TXPUT`s. -/
theorem test_enqstr : expand (.enqstr [0x48, 0x49]) = [.txput 0x48, .txput 0x49] := by decide

/-- R99: the lines `TXPUT 'H' ;` and `RDCNT TX`, and `TXPUT 256`, which is an error. -/
theorem test_assemble_lines :
    lineItems ['T', 'X', 'P', 'U', 'T', ' ', '\'', 'H', '\'', ' ', ';'] = some [.cmd 0x20000048] ∧
    lineItems ['R', 'D', 'C', 'N', 'T', ' ', 'T', 'X'] = some [.cmd 0x50000000] ∧
    lineItems ['T', 'X', 'P', 'U', 'T', ' ', '2', '5', '6'] = none := by decide

/-- R100, P6's `...`, R190 with a quote in the text, and R101's two pseudo-instructions that depend on responses. -/
theorem test_assemble_host_lines :
    lineItems ['L', 'I', 'N', 'E', ' ', '1', ' ', '0', ' ', '1', ' ', '.', '.', '.'] =
      some [.line (.levels [true, false, true] (some true))] ∧
    lineItems ['E', 'N', 'Q', 'S', 'T', 'R', ' ', '"', 'H', '"', 'I', '"'] =
      some [.cmd 0x20000048, .cmd 0x20000022, .cmd 0x20000049] ∧
    lineItems ['R', 'E', 'A', 'D', 'S', 'N', 'A', 'P'] = some [.readsnap] ∧
    lineItems ['R', 'E', 'P', 'O', 'R', 'T', 'S', 'T', 'A', 'T', 'S'] = some [.reportstats] := by decide

theorem test_table_word : decodeTableWord 32 0x52000000 = some .rdcntEdge ∧ decodeTableWord 8 0x08 = some .edgeLatch ∧
    decodeTableWord 8 0x09 = none := by decide

/-! ## Storage and ring buffers (F1 to F8) -/

theorem test_reset_storage : Memory.wf State.reset.txFifo.mem = true ∧ Memory.wf State.reset.rxFifo.mem = true := by
  decide

/-- R63: what is written is read back, another slot is not touched, and the canonical form stays. -/
theorem test_storage : Memory.read (Memory.write [(1, 7), (3, 9)] 2 5) 2 = 5 ∧
    Memory.read (Memory.write [(1, 7), (3, 9)] 2 5) 3 = 9 ∧
    Memory.write [(1, 7), (3, 9)] 3 0 = [(1, 7)] := by decide

/-- F4, F5: indices wrap. -/
theorem test_fifo_wraps :
    after (fun s => (s.txFifo.head, fifoCount .tx s))
      (exec (.txput 0x44) { conf with txFifo := ring [(1, 0x42), (2, 0x43)] 3 1 }) = some (0, 3) := by decide

/-- F7, F8: the count with `head < tail`, and of an empty buffer. -/
theorem test_fifo_count : fifoCount .rx { conf with rxFifo := ring [] 1 3 } = 2 ∧
    fifoCount .rx { conf with rxFifo := ring [] 2 2 } = 0 := by decide

/-! ## CONFIG (B1 to B15) -/

/-- B1: `ticksPerBit = 4`, the pins driven, and the edge detector armed. -/
theorem test_config : after (fun s => (s.ticksPerBit, s.configured, s.txOE, s.fault)) (exec (.config 9600) State.reset) =
    some (4, true, true, 0) := by decide

/-- B6, B7: the largest divisor `TW = 16` admits at 2,000,000 ticks per second, and the next, which faults. -/
theorem test_config_divisor_limit :
    (after (fun s => (s.ticksPerBit, s.fault))
      (exec (.config 46) (State.resetWith { Params.default with tickRate := 2000000 })) = some (43478, 0)) ∧
    after (fun s => (s.ticksPerBit, s.fault))
      (exec (.config 45) (State.resetWith { Params.default with tickRate := 2000000 })) = some (0, 4) := by decide

/-! ## Host commands (H1 to H12, I1 to I16) -/

/-- H1. -/
theorem test_txput : after (fun s => (fifoCount .tx s, s.txState, s.txCmp, s.rsp)) (exec (.txput 0x41) conf) =
    some (1, .framing, 4, some 0) := by decide

/-- I11, and X12: NotConfigured on a reset block, a hold on a full FIFO. -/
theorem test_txput_fault_and_hold :
    (after (fun s => (s.fault, fifoCount .tx s)) (exec (.txput 0x41) State.reset) = some (2, 0)) ∧
    after (fun s => (s.held, s.rsp)) (exec (.txput 0x44) { conf with txFifo := ring [] 3 0 }) =
      some (some 0x20000044, none) := by decide

/-- H2, H4: empty, and a received 0x00. -/
theorem test_rxget : (after (fun s => s.rsp) (exec .rxget conf) = some (some 0)) ∧
    after (fun s => (s.rsp, s.rxFifo.tail)) (exec .rxget { conf with rxFifo := ring [] 1 0 }) =
      some (some 0x100, 1) := by decide

/-- H3. -/
theorem test_rxget_byte :
    after (fun s => s.rsp) (exec .rxget { conf with rxFifo := ring [(3, 0x48)] 0 3 }) = some (some 0x148) := by decide

/-- H5. -/
theorem test_rxcount : after (fun s => s.rsp) (exec .rxcount { conf with rxFifo := ring [] 2 0 }) = some (some 2) := by
  decide

/-- H6. -/
theorem test_rdcnt :
    (after (fun s => s.rsp) (exec .rdcntTx { conf with txCount := 7, rxCount := 5, edgeCount := 6 }) = some (some 7)) ∧
    (after (fun s => s.rsp) (exec .rdcntRx { conf with txCount := 7, rxCount := 5, edgeCount := 6 }) = some (some 5)) ∧
    after (fun s => s.rsp) (exec .rdcntEdge { conf with txCount := 7, rxCount := 5, edgeCount := 6 }) =
      some (some 6) := by decide

/-- H7. -/
theorem test_clrcnt :
    after (fun s => (s.txCount, s.rxCount, s.edgeCount, s.rsp))
      (exec .clrcnt { conf with txCount := 2, rxCount := 2, edgeCount := 2 }) = some (0, 0, 0, some 0) := by decide

/-- H8, H10. -/
theorem test_rdstat : (after (fun s => s.rsp) (exec .rdstat State.reset) = some (some 0x2C)) ∧
    after (fun s => s.rsp) (exec .rdstat { conf with txFifo := ring [] 3 0, txState := .framing }) =
      some (some 0x2B) := by decide

/-- I16: the status word of a reset block after an illegal word. -/
theorem test_rdstat_fault :
    after (fun s => s.rsp) (exec .rdstat (raise (.illegalCommand 0) State.reset)) = some (some 0x12C) := by decide

/-- I1, I15: an illegal word is accepted, and the first fault is kept. -/
theorem test_illegal_word :
    (after (fun s => (s.fault, s.rsp)) (step (script [.cmd 0] conf)) = some (1, some 0)) ∧
    after (fun s => s.fault) (step (script [.cmd 0] { conf with fault := 2 })) = some 2 := by decide

/-- I12: illegal before the hold check. -/
theorem test_illegal_not_held :
    after (fun s => (s.held, s.fault)) (step (script [.cmd 0x20000141] { conf with txFifo := ring [] 3 0 })) =
      some (none, 1) := by decide

/-! ## Ticks (T1 to T5) -/

/-- T1: the counter wraps. -/
theorem test_tick_wraps : after (fun s => s.timer) (exec .tick { State.reset with timer := 0xFFFF }) = some 0 := by
  decide

/-- T5: both parts run in one tick. -/
theorem test_tick_both :
    after (fun s => (s.timer, s.bitsSampled, s.txState, s.accumulator))
      (exec .tick { conf with rxState := .sampling, rxCmp := 11, timer := 10, txState := .framing, txCmp := 11 }) =
      some (11, 1, .idle, 0x80) := by decide

/-! ## The TX engine (X1 to X13) -/

/-- X1, X2. -/
theorem test_kick : (after (fun s => (s.txState, s.txCmp)) (exec .kick conf) = some (.framing, 4)) ∧
    after (fun s => s.txCmp) (exec .kick { conf with txState := .framing, txCmp := 20 }) = some 20 := by decide

/-- X3, X13: the frame of 0x41, and the counter wraps. -/
theorem test_tx_load :
    after (fun s => (s.txLine, s.frame, s.bitsRemaining, s.txCount, s.txCmp, fifoCount .tx s))
      (exec .txLoad { conf with txFifo := ring [(0, 0x41)] 1 0, txState := .framing, txCmp := 4,
                                txCount := 0xFFFFFFFF }) =
      some (false, 0x141, 9, 0, 8, 0) := by decide

/-- X4. -/
theorem test_tx_shift :
    after (fun s => (s.txLine, s.frame, s.bitsRemaining))
      (exec .txShift { conf with txState := .framing, frame := 0x141, bitsRemaining := 9 }) =
      some (true, 0x0A0, 8) := by decide

/-- X5: the stop bit, and the engine stays Framing. -/
theorem test_tx_shift_stop :
    after (fun s => (s.txLine, s.frame, s.bitsRemaining, s.txState))
      (exec .txShift { conf with txState := .framing, frame := 0x001, bitsRemaining := 1 }) =
      some (true, 0, 0, .framing) := by decide

/-- X6. -/
theorem test_tx_idle :
    after (fun s => (s.txState, s.txLine, s.txCmp))
      (exec .txIdle { conf with txState := .framing, txLine := false, txCmp := 44 }) = some (.idle, true, 44) := by
  decide

/-! ## The RX engine (V1 to V6, K1, K2) -/

/-- V1: the latch and the edge event are in one tick. -/
theorem test_tick_edge :
    after (fun s => (s.edgeFlag, s.rxState, s.rxCmp, s.edgeCount))
      (exec .tick { conf with timer := 4, rxIn := false }) = some (false, .sampling, 11, 1) := by decide

/-- R161's example. -/
theorem test_edge_latch : after (fun s => (s.edgeFlag, s.rxPrev)) (exec .edgeLatch { conf with rxIn := false }) =
    some (true, false) := by decide

/-- R161: before CONFIG no edge is latched, but `rxPrev` is tracked. -/
theorem test_edge_latch_unconfigured :
    after (fun s => (s.edgeFlag, s.rxPrev)) (exec .edgeLatch { State.reset with rxIn := false }) =
      some (false, false) := by decide

/-- R162's example, and K2. -/
theorem test_rx_edge :
    after (fun s => (s.rxCmp, s.rxState, s.edgeCount))
      (exec .rxEdge { conf with timer := 5, edgeFlag := true, edgeCount := 0xFFFFFFFF }) =
      some (11, .sampling, 0) := by decide

/-- V2. -/
theorem test_rx_sample :
    after (fun s => (s.accumulator, s.bitsSampled, s.rxCmp))
      (exec .rxSample { conf with rxState := .sampling, rxCmp := 11, rxIn := true }) = some (0x80, 1, 15) := by decide

/-- V3: the eighth sample, a low level, makes 0x82 into 0x41 and stores it. -/
theorem test_rx_sample_last :
    after (fun s => (contents .rx s, s.rxState, s.bitsSampled))
      (exec .rxSample { conf with rxState := .sampling, accumulator := 0x82, bitsSampled := 7, rxIn := false }) =
      some ([0x41], .idle, 8) := by decide

/-- V4, K1. -/
theorem test_rx_done :
    after (fun s => (contents .rx s, s.rxCount, s.rxState, s.edgeFlag))
      (exec .rxDone { conf with rxState := .sampling, accumulator := 0x41, edgeFlag := true,
                                rxCount := 0xFFFFFFFF }) =
      some ([0x41], 0, .idle, false) := by decide

/-- V5: a dropped byte, counted only if `RX_COUNT_DROPS`. -/
theorem test_rx_done_full :
    (after (fun s => (s.rxCount, s.rxFifo.head))
      (exec .rxDone { conf with rxFifo := ring [] 3 0 }) = some (1, 3)) ∧
    after (fun s => (s.rxCount, s.rxFifo.head))
      (exec .rxDone { conf with params := { small with rxCountDrops := false }, rxFifo := ring [] 3 0 }) =
      some (0, 3) := by decide

/-! ## Agents and reset -/

/-- X12, P3: the tick that frees a slot, then the held word's own step. -/
theorem test_held_word :
    (after (fun s => (s.held, s.timer, fifoCount .tx s))
      (step (script [.cmd 0x70000000]
        { conf with held := some 0x20000044, txFifo := ring [] 3 0, txState := .framing, timer := 3, txCmp := 4,
                    env := { State.reset.env with line := .idle } })) = some (some 0x20000044, 4, 2)) ∧
    after (fun s => (s.held, s.timer, fifoCount .tx s, s.rsp))
      (step (script [.cmd 0x70000000]
        { conf with held := some 0x20000044, txFifo := ring [] 3 1, txState := .framing, timer := 4, txCmp := 8 })) =
      some (none, 4, 3, some 0) := by decide

/-- X12: a held word that is the last of its program runs right after the hold is lifted too (R100). -/
theorem test_held_last_word :
    after (fun s => (s.held, s.timer, fifoCount .tx s, s.rsp))
      (step { conf with held := some 0x20000044, txFifo := ring [] 3 1, txState := .framing, timer := 4, txCmp := 8,
                        env := { State.reset.env with program := true } }) = some (none, 4, 3, some 0) := by decide

/-- P2: `READSNAP` with "HI" waiting, in a program. -/
theorem test_readsnap :
    after (fun s => (s.env.snap, s.env.job, s.env.agenda, contents .rx s))
      (Host.Core.run core 3 (script [.readsnap, .wait 1] { conf with rxFifo := ring [(0, 0x48), (1, 0x49)] 2 0 })) =
      some (some { buffer := [0x48, 0x49, 0], any := true }, none, [.wait 1], []) := by decide

/-- R191: on an empty FIFO the buffer is the terminator alone. -/
theorem test_readsnap_empty :
    after (fun s => (s.env.snap, s.env.job)) (step (script [.readsnap] conf)) =
      some (some { buffer := [0], any := false }, none) := by decide

/-- R192, and H6's counters: after two `RDCNT`s the third is next, and then the text made of the three. -/
theorem test_reportstats :
    (after (fun s => s.env.job)
      (Host.Core.run core 2 (script [.reportstats] { conf with txCount := 7, rxCount := 5, edgeCount := 6 })) =
      some (some (.reportEdge 7 5))) ∧
    after (fun s => s.env.job)
      (Host.Core.run core 3 (script [.reportstats] { conf with txCount := 7, rxCount := 5, edgeCount := 6 })) =
      some (sendJob (Config.reportText 7 5 6)) := ⟨by decide, rfl⟩

/-- R240: while `rst = 1` no word is accepted. -/
theorem test_cmd_ready_reset :
    cmdReadyPort 0x70000000 (script [.reset] conf) = false ∧ cmdReadyPort 0x70000000 (script [.wait 1] conf) = true := by
  decide

/-- R240: a reset clock clears the fault and the counters and takes no tick. -/
theorem test_reset_clock :
    after (fun s => (s.fault, s.txCount, s.configured, s.timer))
      (step (script [.reset] { conf with fault := 3, txCount := 9, timer := 6 })) = some (0, 0, false, 0) := by decide

/-- R100, D29: an undriven loop-back wire reads 1, a driven one `tx_out`. -/
theorem test_loopback_level :
    (after (fun s => (s.rxIn, s.rxPrev))
      (step (script [.wait 1] { State.reset with txLine := false, env := { State.reset.env with line := .loopback } })) =
      some (true, true)) ∧
    after (fun s => (s.rxIn, s.rxPrev))
      (step (script [.wait 1] { conf with txLine := false, env := { State.reset.env with line := .loopback } })) =
      some (false, false) := by decide

/-! ## Witnesses: for every statement with hypotheses, what meets them -/

/-- The next tick is the `TX_LOAD` of 0xA5 and another byte waits; the RX side is idle with an armed detector. `p = 1`. -/
def loading : State :=
  { conf with ticksPerBit := 1, txState := .framing, timer := 255, txCmp := 0, txFifo := ring [(0, 0x3C), (3, 0xA5)] 1 3 }

/-- The last byte of a queue is about to be loaded. `p = 1`. -/
def loadingLast : State :=
  { conf with ticksPerBit := 1, txState := .framing, timer := 3, txCmp := 4, txFifo := ring [(0, 0xA5)] 1 0 }

/-- A full TX FIFO in the middle of a frame. -/
def busy : State :=
  { conf with ticksPerBit := 1, txState := .framing, bitsRemaining := 9, frame := 0x1FF, timer := 3, txCmp := 4
              txFifo := ring [(0, 1), (1, 2), (2, 3)] 3 0 }

/-- A receiver with a full FIFO. -/
def rxFull : State := { conf with rxFifo := ring [] 3 0 }

/-- `loading` with a byte unread: room for exactly two more. -/
def loadingTwo : State := { loading with rxFifo := ring [] 1 0 }

theorem inv_conf : Inv conf := by decide

theorem inv_rxFull : Inv rxFull := by decide

theorem inv_loading : Inv loading := by decide

theorem inv_loadingTwo : Inv loadingTwo := by decide

theorem inv_loadingLast : Inv loadingLast := by decide

theorem inv_busy : Inv busy := by decide

/-- A test program to run in a state, with a line mode. -/
def scriptLine (m : LineMode) (items : List Item) (s : State) : State :=
  { s with env := { State.reset.env with agenda := items, line := m } }

/-- A trace asks for an event. -/
def traced (id : EventId) (s : State) : State := setEvent (some id) s

theorem witness_DecodeOfEncodeIsTheInstruction :
    (Instr.config 0).wellFormed = true ∧ (Instr.config 0xFFFFFF).wellFormed = true ∧
      (Instr.txput 0xFF).wellFormed = true ∧ Instr.edgeLatch.wellFormed = true := by decide

theorem witness_EncodeOfDecodeIsTheCode :
    decode (.cmd 0x10FFFFFF) = .ok (.config 0xFFFFFF) ∧ decode (.evt 8) = .ok .edgeLatch := by decide

theorem witness_WordDecodesByTheRowThatSelectsIt :
    (⟨"TXPUT", 0x20000000, 0xFFFFFF00⟩ : CmdRow) ∈ cmdRows ∧
      (⟨"TXPUT", 0x20000000, 0xFFFFFF00⟩ : CmdRow).selects 0x200000FF = true ∧
      decodeCmd 0x52000000 = .ok .rdcntEdge := by decide

theorem witness_ResetClockRestoresTheBlock : TakesReset (script [.reset] loading) := rfl

/-- A count at the limit of 32 bits, and one beyond it. -/
theorem witness_RxcountRespondsTheCount :
    (∃ s : State, (s.rxFifo.head + s.params.nRx - s.rxFifo.tail) % s.params.nRx = 2 ^ 32 - 1) ∧
    ∃ s : State, (s.rxFifo.head + s.params.nRx - s.rxFifo.tail) % s.params.nRx = 2 ^ 32 :=
  ⟨⟨{ conf with params := { small with nRx := 2 ^ 32 + 1 }, rxFifo := ring [] (2 ^ 32 - 1) 0 }, by decide⟩,
    ⟨{ conf with params := { small with nRx := 2 ^ 32 + 1 }, rxFifo := ring [] (2 ^ 32) 0 }, by decide⟩⟩

theorem witness_RecordedFaultStaysUntilReset :
    ∃ s t, step s = .next t ∧ s.fault ≠ 0 ∧ ¬ TakesReset s :=
  ⟨script [.cmd 0] { conf with fault := 4 }, _, rfl, by decide, by unfold TakesReset; decide⟩

theorem witness_IllegalWordIsAcceptedAndFaults :
    (∃ (s : State) (e : DecodeError), s.env.event = none ∧ s.held = none ∧ s.env.job = none ∧
      s.env.agenda = .cmd 0x53000000 :: [] ∧ decodeCmd 0x53000000 = .error e) ∧
    opField 0x0FFFFFFF = 0 ∧ 8 ≤ opField 0x80000000 ∧ 8 ≤ opField 0xFFFFFFFF :=
  ⟨⟨script [.cmd 0x53000000] conf, .reservedSel 5 3, by decide⟩, by decide⟩

/-- The largest legal divisor (95_test_vectors 2.2: 43690), and the least (1). -/
theorem witness_ConfigSetsTheDivisorAndThePins :
    (∃ (s : State) (baud : Word), s.configured = false ∧ baud ≠ 0 ∧ s.params.tickRate / baud.toNat = 43690 ∧
      s.params.tickRate / baud.toNat + s.params.tickRate / baud.toNat / 2 = 2 ^ s.params.tw - 1) ∧
    ∃ (s : State) (baud : Word), s.configured = false ∧ baud ≠ 0 ∧ s.params.tickRate / baud.toNat = 1 ∧
      s.params.tickRate / baud.toNat + s.params.tickRate / baud.toNat / 2 ≤ 2 ^ s.params.tw - 1 :=
  ⟨⟨State.resetWith { Params.default with tickRate := 43690 }, 1, by decide⟩, ⟨State.reset, 38400, by decide⟩⟩

theorem witness_SecondConfigRaisesReconfigure : conf.configured = true := rfl

/-- One for each of the three conditions: B4, B3, and a divisor of 43691. -/
theorem witness_BadBaudFaultsAndChangesNothingElse :
    State.reset.configured = false ∧
    State.reset.params.tickRate / (38401 : Word).toNat = 0 ∧
    2 ^ Params.default.tw - 1 < 43691 / (1 : Word).toNat + 43691 / (1 : Word).toNat / 2 := by decide

theorem witness_TxputPutsTheByteAndKicks :
    (conf.configured = true ∧ full .tx conf = false ∧ conf.txFifo.head < conf.params.nTx) ∧
    (loading.configured = true ∧ full .tx loading = false ∧ loading.txFifo.head < loading.params.nTx) := by decide

theorem witness_TxputBeforeConfigFaults : State.reset.configured = false := rfl

theorem witness_TxputHoldsWhileTheFifoIsFull : busy.configured = true ∧ full .tx busy = true := by decide

theorem witness_RxgetReturnsTheOldestByteOrEmpty :
    (∃ s : State, s.rxFifo.head ≠ s.rxFifo.tail ∧ s.rxFifo.tail < s.params.nRx) ∧
    ∃ s : State, s.rxFifo.head = s.rxFifo.tail :=
  ⟨⟨{ conf with rxFifo := ring [(3, 0x48)] 0 3 }, by decide⟩, ⟨conf, by decide⟩⟩

/-- The least and the greatest illegal selector. -/
theorem witness_RdcntRespondsItsCounter :
    opField 0x53000000 = 5 ∧ selField 0x53000000 = 3 ∧ opField 0x5F000000 = 5 ∧ 3 ≤ selField 0x5F000000 := by decide

theorem witness_HostCommandsWriteOnlyTheirState :
    (∃ t, exec (.config 9600) State.reset = .next t) ∧ (∃ t, exec (.txput 0x41) conf = .next t) ∧
    (∃ t, exec .rxget { conf with rxFifo := ring [(3, 0x48)] 0 3 } = .next t) ∧
    (∃ t, exec .clrcnt conf = .next t) ∧ (∃ t, exec .rxcount conf = .next t) ∧
    (∃ t, exec .rdcntTx conf = .next t) ∧ (∃ t, exec .rdcntRx conf = .next t) ∧
    (∃ t, exec .rdcntEdge conf = .next t) ∧ ∃ t, exec .rdstat conf = .next t :=
  ⟨⟨_, rfl⟩, ⟨_, rfl⟩, ⟨_, rfl⟩, ⟨_, rfl⟩, ⟨_, rfl⟩, ⟨_, rfl⟩, ⟨_, rfl⟩, ⟨_, rfl⟩, ⟨_, rfl⟩⟩

theorem witness_OutOfRangeSlotFaults :
    (∃ s : State, s.configured = true ∧ full .tx s = false ∧ s.params.nTx ≤ s.txFifo.head) ∧
    (∃ s : State, empty .rx s = false ∧ s.params.nRx ≤ s.rxFifo.tail) ∧
    (∃ s : State, empty .tx s = false ∧ s.params.nTx ≤ s.txFifo.tail) ∧
    ∃ s : State, full .rx s = false ∧ s.params.nRx ≤ s.rxFifo.head ∧ s.bitsSampled = 7 :=
  ⟨⟨{ conf with txFifo := ring [] 4 0 }, by decide⟩, ⟨{ conf with rxFifo := ring [] 0 4 }, by decide⟩,
    ⟨{ conf with txFifo := ring [] 0 4 }, by decide⟩,
    ⟨{ conf with rxFifo := ring [] 4 0, bitsSampled := 7 }, by decide⟩⟩

theorem witness_TickAlwaysCompletes :
    busy.rxFifo.head < busy.params.nRx ∧ busy.txFifo.tail < busy.params.nTx := by decide

theorem witness_TxAndRxPartsCommute : IndicesOk .tx loading ∧ IndicesOk .rx loading := by decide

theorem witness_RxSampleShiftsTheBitIn :
    (∃ s : State, s.bitsSampled + 1 ≠ 8) ∧ ∃ s : State, s.bitsSampled + 1 = 8 :=
  ⟨⟨{ conf with bitsSampled := 6 }, by decide⟩, ⟨{ conf with bitsSampled := 7 }, by decide⟩⟩

theorem witness_RxDoneStoresOrDropsTheByte :
    (∃ s : State, full .rx s = false ∧ s.rxFifo.head < s.params.nRx ∧ fifoCount .rx s = 2) ∧
    ∃ s : State, full .rx s = true ∧ fifoCount .rx s = 3 :=
  ⟨⟨{ conf with rxFifo := ring [] 2 0 }, by decide⟩, ⟨{ conf with rxFifo := ring [] 3 0 }, by decide⟩⟩

theorem witness_TxLoadStartsTheFrame :
    loading.txFifo.head ≠ loading.txFifo.tail ∧ loading.txFifo.tail < loading.params.nTx := by decide

theorem witness_KickArmsAnIdleEngine : conf.txState = .idle ∧ loading.txState = .framing := by decide

theorem witness_EventsWriteOnlyTheirState :
    (∃ t, exec .tick busy = .next t) ∧ (∃ t, exec .txShift busy = .next t) ∧ (∃ t, exec .txLoad loading = .next t) ∧
    (∃ t, exec .txIdle loading = .next t) ∧ (∃ t, exec .kick conf = .next t) ∧ (∃ t, exec .edgeLatch conf = .next t) ∧
    (∃ t, exec .rxEdge conf = .next t) ∧ (∃ t, exec .rxSample { conf with bitsSampled := 7 } = .next t) ∧
    ∃ t, exec .rxDone conf = .next t :=
  ⟨⟨_, rfl⟩, ⟨_, rfl⟩, ⟨_, rfl⟩, ⟨_, rfl⟩, ⟨_, rfl⟩, ⟨_, rfl⟩, ⟨_, rfl⟩, ⟨_, rfl⟩, ⟨_, rfl⟩⟩

/-- A command, the two pseudo-instructions, and one under way. -/
theorem witness_StepRunsTheDecodedCommand :
    (∃ (s : State) (i : Instr), s.env.event = none ∧ s.held = none ∧ s.env.job = none ∧
      s.env.agenda = .cmd 0x10002580 :: [.wait 4] ∧ decodeCmd 0x10002580 = .ok i) ∧
    (∃ s : State, s.env.event = none ∧ s.held = none ∧ s.env.job = none ∧ s.env.agenda = .readsnap :: []) ∧
    (∃ s : State, s.env.event = none ∧ s.held = none ∧ s.env.job = none ∧ s.env.agenda = .reportstats :: []) ∧
    ∃ (s : State) (i : Instr), s.env.event = none ∧ s.held = none ∧ s.env.job = some (.send 0x41 []) ∧
      s.env.program = true ∧ decodeCmd (jobWord (.send 0x41 [])) = .ok i :=
  ⟨⟨script [.cmd 0x10002580, .wait 4] State.reset, .config 9600, by decide⟩, ⟨script [.readsnap] conf, by decide⟩,
    ⟨script [.reportstats] conf, by decide⟩, ⟨setHost true (some (.send 0x41 [])) conf, .txput 0x41, by decide⟩⟩

/-- One for each line mode, in an agenda whose `WAIT 1` is on its last tick. -/
theorem witness_StepOfAWaitRunsATick (m : LineMode) :
    ∃ s : State, s.env.event = none ∧ s.held = none ∧ s.env.job = none ∧ s.env.agenda = .wait (0 + 1) :: [] ∧
      s.env.line = m :=
  ⟨scriptLine m [.wait 1] conf, rfl, rfl, rfl, rfl, rfl⟩

theorem witness_StepRunsATracedEvent :
    (traced 0 conf).env.event = some 0 ∧ decodeEvt 0 = .ok .tick ∧ Instr.tick ∈ [Instr.tick, .edgeLatch, .rxSample] ∧
    (traced 7 conf).env.event = some 7 ∧ decodeEvt 7 = .ok .kick ∧ Instr.kick ∉ [Instr.tick, .edgeLatch, .rxSample] ∧
    (traced 9 conf).env.event = some 9 ∧ decodeEvt 9 = .error (.unusedEvent 9) := by decide

/-- Held, and just lifted, with an item after it and as the last word of a program. -/
theorem witness_HeldWordWaitsOnTicksAndThenRuns :
    (∃ s : State, s.env.event = none ∧ s.held = some (txputWord 0x44) ∧ s.env.agenda = .wait 9 :: [] ∧
      holds (txputWord 0x44) s = true) ∧
    (∃ s : State, s.env.event = none ∧ s.held = some (txputWord 0x44) ∧ s.env.agenda = [] ∧ s.env.program = true ∧
      holds (txputWord 0x44) s = false) ∧
    decodeCmd (txputWord 0x44) = .ok (.txput 0x44) ∧ Item.wait 9 ≠ .reset :=
  ⟨⟨script [.wait 9] { busy with held := some (txputWord 0x44) }, by decide⟩,
    ⟨setHost true none { loading with held := some (txputWord 0x44) }, by decide⟩, by decide⟩

/-- Nothing under way, a word held, and a pseudo-instruction under way. -/
theorem witness_UnscriptedStepTakesTheFreeTurn :
    (∃ s : State, s.env.event = none ∧ s.env.agenda = [] ∧ s.held = none ∧ s.env.job = none) ∧
    (∃ s : State, s.env.event = none ∧ s.env.agenda = [] ∧ s.held = some (txputWord 1) ∧ s.env.program = false) ∧
    ∃ s : State, s.env.event = none ∧ s.env.agenda = [] ∧ s.held = none ∧ s.env.job = some .snapCount ∧
      s.env.program = false :=
  ⟨⟨busy, by decide⟩, ⟨{ busy with held := some (txputWord 1) }, by decide⟩,
    ⟨setHost false (some .snapCount) busy, by decide⟩⟩

/-- The least and the default parameters are legal. -/
theorem witness_ResetSatisfiesTheInvariants : least.Legal ∧ Params.default.Legal := by decide

theorem witness_EveryStepKeepsTheInvariants : ∃ s t, Inv s ∧ step s = .next t :=
  ⟨scriptLine .idle [.wait 1] loading, _, by decide, rfl⟩

theorem witness_EveryStepFromTheInvariantsProceeds : Inv busy ∧ Inv loading ∧ Inv State.reset :=
  ⟨inv_busy, inv_loading, by decide⟩

theorem witness_EveryStepKeepsTheStorageCanonical :
    ∃ s t, Memory.wf s.txFifo.mem = true ∧ Memory.wf s.rxFifo.mem = true ∧ step s = .next t :=
  ⟨script [.cmd 0x20000041] loading, _, by decide, by decide, rfl⟩

theorem witness_ParametersNeverChange : ∃ s t, step s = .next t := ⟨script [.reset] loading, _, rfl⟩

theorem witness_BaudIsFixedOnceConfigured :
    ∃ s t, s.configured = true ∧ step s = .next t ∧ ¬ TakesReset s ∧ s.txOE = true ∧ s.rxPullEn = true :=
  ⟨script [.cmd 0x10002580] conf, _, rfl, rfl, by unfold TakesReset; decide, rfl, rfl⟩

theorem witness_CountersMoveByOne : ∃ s t, Inv s ∧ step s = .next t ∧ ¬ TakesReset s ∧ ¬ TakesClear s :=
  ⟨scriptLine .idle [.wait 1] loading, _, by decide, rfl, by unfold TakesReset; decide, by unfold TakesClear; decide⟩

/-- A FIFO of the least legal size, full. -/
theorem witness_FifoIsFullExactlyAtCapacity :
    ∃ s : State, 2 ≤ slots s .tx ∧ IndicesOk .tx s ∧ full .tx s = true ∧ slots s .tx = 2 :=
  ⟨{ State.resetWith least with txFifo := ring [] 0 1 }, by decide⟩

theorem witness_TxFifoIsAQueue :
    2 ≤ loading.params.nTx ∧ IndicesOk .tx loading ∧ Memory.wf loading.txFifo.mem = true ∧
    loading.configured = true ∧ full .tx loading = false ∧ empty .tx loading = false ∧
    (∃ t, exec (.txput 0) loading = .next t) ∧ ∃ t, exec .txLoad loading = .next t :=
  ⟨by decide, by decide, by decide, by decide, by decide, by decide, ⟨_, rfl⟩, ⟨_, rfl⟩⟩

/-- Room for one more byte, and full. -/
theorem witness_RxFifoIsAQueue :
    (∃ s t, 2 ≤ s.params.nRx ∧ IndicesOk .rx s ∧ Memory.wf s.rxFifo.mem = true ∧ full .rx s = false ∧
      empty .rx s = false ∧ exec .rxDone s = .next t) ∧
    (∃ s t, 2 ≤ s.params.nRx ∧ IndicesOk .rx s ∧ Memory.wf s.rxFifo.mem = true ∧ full .rx s = true ∧
      exec .rxDone s = .next t) ∧
    ∃ s t, 2 ≤ s.params.nRx ∧ IndicesOk .rx s ∧ Memory.wf s.rxFifo.mem = true ∧ empty .rx s = false ∧
      exec .rxget s = .next t :=
  ⟨⟨{ conf with rxFifo := ring [(0, 9), (3, 1)] 1 3 }, _, by decide, by decide, by decide, by decide, by decide, rfl⟩,
    ⟨{ conf with rxFifo := ring [(0, 9), (3, 1)] 2 3 }, _, by decide, by decide, by decide, by decide, rfl⟩,
    ⟨{ conf with rxFifo := ring [(0, 9), (3, 1)] 1 3 }, _, by decide, by decide, by decide, by decide, rfl⟩⟩

/-- Two states whose empty TX slot 2 holds different bytes. -/
theorem witness_UnheldSlotsAreNeverObserved :
    ∃ s t s' : State, 2 ≤ s.params.nTx ∧ 2 ≤ s.params.nRx ∧ IndicesOk .tx s ∧ IndicesOk .rx s ∧
      Memory.wf s.txFifo.mem = true ∧ Memory.wf s.rxFifo.mem = true ∧ Memory.wf t.txFifo.mem = true ∧
      Memory.wf t.rxFifo.mem = true ∧ SameContents s t ∧ s ≠ t ∧ exec .txLoad s = .next s' :=
  ⟨loading, { loading with txFifo := ring [(0, 0x3C), (2, 0x77), (3, 0xA5)] 1 3 }, _, by decide, by decide, by decide,
    by decide, by decide, by decide, by decide, by decide, by unfold SameContents; decide, by decide, rfl⟩

/-- A receiver with "HI" waiting, the first byte in the last slot. -/
def hi : State := { conf with rxFifo := ring [(0, 0x49), (3, 0x48)] 1 3 }

theorem inv_hi : Inv (script [.readsnap] hi) := by decide

theorem inv_hi_drain : Inv (setHost true (some (.snapGet [0x21] 1)) hi) := by decide

/-- A READSNAP to come, and one under way with both bytes still to be read. -/
theorem witness_ReadsnapDrainsWhatIsWaiting :
    (∃ s : State, Inv s ∧ s.params.nRx ≤ 2 ^ 32 ∧ s.held = none ∧ s.env.job = none ∧ s.env.agenda = .readsnap :: [] ∧
      contents .rx s = [0x48, 0x49]) ∧
    ∃ s t : State, Inv s ∧ s.held = none ∧ s.env.job = some (.snapGet [0x21] 1) ∧ 1 < fifoCount .rx s ∧
      step s = .next t ∧ ¬ TakesReset s :=
  ⟨⟨script [.readsnap] hi, inv_hi, by decide⟩,
    ⟨setHost true (some (.snapGet [0x21] 1)) hi, _, inv_hi_drain, by decide, by decide, by decide, rfl,
      by unfold TakesReset; decide⟩⟩

/-- The RX sides and the levels differ. -/
theorem witness_TxSideIgnoresTheRxSide :
    ∃ s t s' t' : State, clockView s = clockView t ∧ txView s = txView t ∧ rxView s ≠ rxView t ∧ s.rxIn ≠ t.rxIn ∧
      exec .tick s = .next s' ∧ exec .tick t = .next t' :=
  ⟨loading, { loading with rxState := .sampling, rxCmp := 0, rxIn := false }, _, _, by decide, by decide, by decide,
    by decide, rfl, rfl⟩

/-- The TX sides differ. -/
theorem witness_RxSideIgnoresTheTxSide :
    ∃ s t s' t' : State, clockView s = clockView t ∧ rxView s = rxView t ∧ s.rxIn = t.rxIn ∧ txView s ≠ txView t ∧
      exec .tick s = .next s' ∧ exec .tick t = .next t' :=
  ⟨loading, { loading with txState := .idle, txFifo := ring [] 0 0 }, _, _, by decide, by decide, by decide, by decide,
    rfl, rfl⟩

/-- No tick yet, and the counter about to wrap. -/
theorem witness_TxCompareFiresAfterItsDelay :
    Inv loading ∧ loading.txState = .framing ∧
      ([] : List Bool).length < ticksUntil loading.params loading.timer loading.txCmp := ⟨inv_loading, by decide⟩

/-- The first tick, and the last of the ten bit periods. -/
theorem witness_TransmittedByteTakesTenBitPeriods :
    Inv loading ∧ loading.txState = .framing ∧ loading.bitsRemaining = 0 ∧ contents .tx loading = [0xA5, 0x3C] ∧
      ticksUntil loading.params loading.timer loading.txCmp = 1 ∧
      0 < [true].length ∧ (List.replicate 10 false).length ≤ 10 * loading.ticksPerBit := ⟨inv_loading, by decide⟩

/-- A queue of one, and a longer one. -/
theorem witness_NextFrameOrIdleFollowsTheStopBit :
    (Inv loadingLast ∧ loadingLast.txState = .framing ∧ loadingLast.bitsRemaining = 0 ∧
      contents .tx loadingLast = [0xA5] ∧ ticksUntil loadingLast.params loadingLast.timer loadingLast.txCmp = 1 ∧
      (List.replicate 11 true).length = 10 * loadingLast.ticksPerBit + 1) ∧
    (Inv loading ∧ loading.txState = .framing ∧ loading.bitsRemaining = 0 ∧ contents .tx loading = [0xA5, 0x3C] ∧
      ticksUntil loading.params loading.timer loading.txCmp = 1 ∧
      (List.replicate 11 true).length = 10 * loading.ticksPerBit + 1) :=
  ⟨⟨inv_loadingLast, by decide⟩, inv_loading, by decide⟩

/-- Room for the byte, and a full RX FIFO. -/
theorem witness_FallingEdgeMakesOneByteOfTheSampledLevels :
    (∃ s : State, Inv s ∧ edgeArmed s = true ∧ s.edgeFlag = false ∧ s.rxPrev = true ∧ full .rx s = false ∧
      (List.replicate 35 false).head? = some false ∧
      (List.replicate 35 false).length = 8 * s.ticksPerBit + s.ticksPerBit / 2 + 1) ∧
    ∃ s : State, Inv s ∧ edgeArmed s = true ∧ s.edgeFlag = false ∧ s.rxPrev = true ∧ full .rx s = true ∧
      (List.replicate 35 false).length = 8 * s.ticksPerBit + s.ticksPerBit / 2 + 1 :=
  ⟨⟨conf, inv_conf, by decide⟩, ⟨rxFull, inv_rxFull, by decide⟩⟩

theorem witness_HoldEndsWithinTenBitPeriods :
    Inv busy ∧ full .tx busy = true ∧ (List.replicate 10 true).length = 10 * busy.ticksPerBit :=
  ⟨inv_busy, by decide⟩

theorem witness_ByteOnAnIdleEngineStartsOneBitPeriodLater :
    ∃ t, Inv conf ∧ conf.configured = true ∧ conf.txState = .idle ∧ exec (.txput 0x41) conf = .next t ∧
      [true, false, true, false].length = conf.ticksPerBit :=
  ⟨_, inv_conf, rfl, rfl, rfl, rfl⟩

theorem witness_LoopBackDeliversTheByteSent :
    Inv loading ∧ loading.txState = .framing ∧ loading.bitsRemaining = 0 ∧ contents .tx loading = [0xA5, 0x3C] ∧
      ticksUntil loading.params loading.timer loading.txCmp = 1 ∧ loading.txOE = true ∧ loading.txLine = true ∧
      loading.rxState = .idle ∧ loading.rxPrev = true ∧ loading.edgeFlag = false ∧ full .rx loading = false :=
  ⟨inv_loading, by decide⟩

/-- Two bytes to send, and room for exactly two. -/
theorem witness_LoopBackDeliversEveryByteInOrder :
    ∃ s : State, Inv s ∧ s.txState = .framing ∧ s.bitsRemaining = 0 ∧ contents .tx s ≠ [] ∧
      ticksUntil s.params s.timer s.txCmp = 1 ∧ s.txOE = true ∧ s.txLine = true ∧ s.rxState = .idle ∧
      s.rxPrev = true ∧ s.edgeFlag = false ∧
      (contents .rx s).length + (contents .tx s).length = s.params.nRx - 1 :=
  ⟨loadingTwo, inv_loadingTwo, by decide⟩

end Sys2Proof.Tests
end

section
/-! PROOFS. Frames of the engines: which operations keep the parameters, the divisor, the pins and the other direction's view. -/

namespace Sys2Proof.Machine

/-- The parameters, and what only CONFIG and reset write (R10, R24, R121, R125). -/
structure SetupView where
  params : Params
  configured : Bool
  ticksPerBit : Nat
  txOE : Bool
  rxPullEn : Bool

/-- The set-up of a state. -/
def setupView (s : State) : SetupView :=
  { params := s.params, configured := s.configured, ticksPerBit := s.ticksPerBit, txOE := s.txOE
    rxPullEn := s.rxPullEn }

@[simp] theorem setupView_kick (s : State) : setupView (kick s) = setupView s := by
  simp [setupView]

/-- RX_DONE writes neither the set-up nor the TX side (R164, R168). -/
theorem rxDone_frame {s t : State} (h : rxDone s = .ok t) : setupView t = setupView s ∧ txView t = txView s := by
  rcases rxDone_cases h with ⟨-, rfl⟩ | ⟨-, -, rfl⟩ <;> exact ⟨rfl, rfl⟩

/-- RX_SAMPLE writes neither the set-up nor the TX side (R163, R168). -/
theorem rxSample_frame {l : Bool} {s t : State} (h : rxSample l s = .ok t) :
    setupView t = setupView s ∧ txView t = txView s := by
  rcases rxSample_cases h with ⟨-, rfl⟩ | ⟨-, -, rfl⟩ | ⟨-, -, -, rfl⟩ <;> exact ⟨rfl, rfl⟩

/-- The RX part of a tick writes neither the set-up nor the TX side (R127, R168). -/
theorem rxPart_frame {l : Bool} {s t : State} (h : rxPart l s = .ok t) :
    setupView t = setupView s ∧ txView t = txView s := by
  rcases rxPart_cases h with ⟨-, rfl⟩ | ⟨-, -, hs⟩ | ⟨-, -, rfl⟩
  · exact ⟨rfl, rfl⟩
  · exact rxSample_frame hs
  · exact ⟨rfl, rfl⟩

/-- TX_LOAD does not write the set-up (R144). -/
theorem txLoad_setupView {s t : State} (h : txLoad s = .ok t) : setupView t = setupView s := by
  rcases txLoad_cases h with ⟨-, rfl⟩ | ⟨-, -, rfl⟩ <;> rfl

/-- The TX part of a tick does not write the set-up (R127). -/
theorem txPart_setupView {s t : State} (h : txPart s = .ok t) : setupView t = setupView s := by
  rcases txPart_cases h with ⟨-, rfl⟩ | ⟨-, -, rfl⟩ | ⟨-, -, -, rfl⟩ | ⟨-, -, -, -, rfl⟩ <;> rfl

/-- A tick does not write the set-up (R127). -/
theorem tick_setupView {l : Bool} {s t : State} (h : tick l s = .ok t) : setupView t = setupView s := by
  obtain ⟨u, hr, ht⟩ := tick_cases h
  calc setupView t = setupView u := txPart_setupView ht
    _ = setupView (edgeLatch l (advanceTimer s)) := (rxPart_frame hr).1
    _ = setupView s := rfl

/-- An operation whose outcome is a next state answered with that state. -/
theorem toOutcome_eq_next {e : Except Fault State} {t : State} (h : toOutcome e = .next t) : e = .ok t := by
  cases e with
  | ok s => cases h; rfl
  | error f => cases h

/-- Everything CONFIG can do: it raises, or it configures an unconfigured block (R121, R123, R126). -/
theorem execConfig_cases {baud : Word} {s t : State} (h : execConfig baud s = .next t) :
    (s.configured = true ∧ t = raise (.reconfigure baud) s) ∨
    (s.configured = false ∧ badBaud s.params baud = true ∧ t = raise (.badBaud baud) s) ∨
    (s.configured = false ∧ badBaud s.params baud = false ∧ t = respond 0 (configure baud s)) := by
  unfold execConfig at h
  split at h
  · next hc => cases h; exact .inl ⟨hc, rfl⟩
  · next hc =>
    have hc : s.configured = false := by simpa using hc
    split at h
    · next hb => cases h; exact .inr (.inl ⟨hc, hb, rfl⟩)
    · next hb => cases h; exact .inr (.inr ⟨hc, by simpa using hb, rfl⟩)

/-- Only a CONFIG accepted on an unconfigured block writes the set-up (R6, R10, R24, R126). -/
theorem exec_setupView {i : Instr} {s t : State} (h : exec i s = .next t) :
    setupView t = setupView s ∨
    ∃ baud, i = .config baud ∧ s.configured = false ∧ setupView t = setupView (configure baud s) := by
  cases i with
  | config baud =>
    rcases execConfig_cases h with ⟨-, rfl⟩ | ⟨-, -, rfl⟩ | ⟨hc, -, rfl⟩
    · exact .inl rfl
    · exact .inl rfl
    · exact .inr ⟨baud, rfl, hc, rfl⟩
  | txput b =>
    left
    rcases execTxput_cases h with ⟨-, rfl⟩ | ⟨-, -, rfl⟩ | ⟨-, -, -, rfl⟩
    · rfl
    · rfl
    · exact setupView_kick _
  | rxget =>
    left
    rcases execRxget_cases h with ⟨-, rfl⟩ | ⟨-, -, rfl⟩ <;> rfl
  | tick => exact .inl (tick_setupView (toOutcome_eq_next h))
  | txLoad => exact .inl (txLoad_setupView (toOutcome_eq_next h))
  | rxSample => exact .inl (rxSample_frame (toOutcome_eq_next h)).1
  | rxDone => exact .inl (rxDone_frame (toOutcome_eq_next h)).1
  | kick => cases h; exact .inl (setupView_kick s)
  | rxcount | rdcntTx | rdcntRx | rdcntEdge | clrcnt | rdstat | txShift | txIdle | rxEdge | edgeLatch =>
    cases h
    exact .inl rfl

/-- Fetching does not write the set-up. -/
@[simp] theorem setupView_fetch (s : State) : setupView (fetch s).2 = setupView s := by
  obtain ⟨⟨l, h, e, hu, -⟩, -⟩ := fetch_ok s
  rw [hu]
  rfl

/-- A step keeps the set-up, is a reset clock, or configures an unconfigured block. -/
theorem step_setupView {s t : State} (h : step s = .next t) :
    setupView t = setupView s ∨
    (TakesReset s ∧ t.params = s.params) ∨
    (s.configured = false ∧ ∃ baud, setupView t = setupView (configure baud (fetch s).2)) := by
  have hfetch := setupView_fetch s
  rcases step_cases h with ⟨i, t', job, snap, -, hx, rfl⟩ | ⟨w, -, rfl⟩ | ⟨hr, rfl⟩ | ⟨-, rfl⟩
  · rcases exec_setupView hx with hk | ⟨baud, -, hc, hk⟩
    · exact .inl (hk.trans hfetch)
    · exact .inr (.inr ⟨(congrArg SetupView.configured hfetch).symm.trans hc, baud, hk⟩)
  · exact .inl hfetch
  · exact .inr (.inl ⟨hr, congrArg SetupView.params hfetch⟩)
  · exact .inl hfetch

/-- Settles O43: a step that keeps the set-up keeps its parameters, and neither reset nor CONFIG writes them. -/
theorem parametersNeverChange : Obligations.ParametersNeverChange := by
  intro s t h
  rcases step_setupView h with hk | ⟨-, hp⟩ | ⟨-, baud, hk⟩
  · exact congrArg SetupView.params hk
  · exact hp
  · calc t.params = (fetch s).2.params := congrArg SetupView.params hk
      _ = s.params := congrArg SetupView.params (setupView_fetch s)

/-- Settles O44: on a configured block every step but reset keeps the whole set-up. -/
theorem baudIsFixedOnceConfigured : Obligations.BaudIsFixedOnceConfigured := by
  intro s t hc h hr
  have hk : setupView t = setupView s := by
    rcases step_setupView h with hk | ⟨hreset, -⟩ | ⟨hu, -⟩
    · exact hk
    · exact absurd hreset hr
    · rw [hc] at hu; cases hu
  simp only [setupView, SetupView.mk.injEq] at hk
  obtain ⟨-, hconf, htpb, hoe, hpu⟩ := hk
  exact ⟨hconf.trans hc, htpb, hoe.trans, hpu.trans⟩

end Sys2Proof.Machine
end

section
/-! PROOFS. Progress: every instruction answers while the FIFO indices are in range (20_memory R63), so every step of a block with the invariants does. -/

namespace Sys2Proof.Machine

/-- An operation that answers is a step that proceeds. -/
theorem toOutcome_proceeds {e : Except Fault State} (h : ∃ t, e = .ok t) : Proceeds (toOutcome e) := by
  obtain ⟨t, rfl⟩ := h
  exact ⟨t, rfl⟩

theorem txLoad_answers {s : State} (hi : s.txFifo.tail < s.params.nTx) : ∃ t, txLoad s = .ok t := by
  cases he : empty .tx s with
  | true => exact ⟨startFrame 0 s, by simp only [txLoad, fifoGet_empty he]⟩
  | false => exact ⟨_, txLoad_ok he hi⟩

/-- A tick answers: its RX part leaves the TX FIFO, so the TX part finds its tail in range (R127, R168). -/
theorem tick_answers (l : Bool) {s : State} (hrx : s.rxFifo.head < s.params.nRx)
    (htx : s.txFifo.tail < s.params.nTx) : ∃ t, tick l s = .ok t := by
  obtain ⟨u, hu⟩ := rxPart_ok l (s := edgeLatch l (advanceTimer s)) hrx
  obtain ⟨hsetup, hview⟩ := rxPart_frame hu
  have hparams : u.params = s.params := congrArg SetupView.params hsetup
  have hfifo : u.txFifo = s.txFifo := congrArg TxView.txFifo hview
  obtain ⟨t, ht⟩ := txPart_ok (s := u) (by rw [hparams, hfifo]; exact htx)
  exact ⟨t, by simp only [tick, hu, ht]⟩

theorem execConfig_proceeds (baud : Word) (s : State) : Proceeds (execConfig baud s) := by
  unfold execConfig
  split
  · exact ⟨_, rfl⟩
  · split <;> exact ⟨_, rfl⟩

theorem execTxput_proceeds (b : Byte) {s : State} (hi : s.txFifo.head < s.params.nTx) :
    Proceeds (execTxput b s) := by
  cases hc : s.configured with
  | false => exact ⟨raise (.notConfigured b) s, by simp [execTxput, hc]⟩
  | true =>
    cases hf : full .tx s with
    | true => exact ⟨hold (txputWord b) s, by simp [execTxput, hc, hf]⟩
    | false => exact ⟨_, execTxput_room b hc hf hi⟩

theorem execRxget_proceeds {s : State} (hi : s.rxFifo.tail < s.params.nRx) : Proceeds (execRxget s) := by
  cases he : empty .rx s with
  | true => exact ⟨_, by simp only [execRxget, fifoGet_empty he]; rfl⟩
  | false => exact ⟨_, by simp only [execRxget, fifoGet_some he hi]; rfl⟩

/-- Every instruction answers while the FIFO indices are in range (R63). -/
theorem exec_proceeds (i : Instr) {s : State} (htx : IndicesOk .tx s) (hrx : IndicesOk .rx s) :
    Proceeds (exec i s) := by
  obtain ⟨htxHead, htxTail⟩ := htx
  obtain ⟨hrxHead, hrxTail⟩ := hrx
  cases i with
  | config baud => exact execConfig_proceeds baud s
  | txput b => exact execTxput_proceeds b htxHead
  | rxget => exact execRxget_proceeds hrxTail
  | tick => exact toOutcome_proceeds (tick_answers s.rxIn hrxHead htxTail)
  | txLoad => exact toOutcome_proceeds (txLoad_answers htxTail)
  | rxSample => exact toOutcome_proceeds (rxSample_ok s.rxIn hrxHead)
  | rxDone => exact toOutcome_proceeds (rxDone_ok hrxHead)
  | rxcount | rdcntTx | rdcntRx | rdcntEdge | clrcnt | rdstat | txShift | txIdle | rxEdge | kick | edgeLatch =>
    exact ⟨_, rfl⟩

/-- A step proceeds while the FIFO indices are in range and no trace asks for an event (R63, R98). -/
theorem step_proceeds {s : State} (htx : IndicesOk .tx s) (hrx : IndicesOk .rx s) (hev : s.env.event = none) :
    Proceeds (step s) := by
  obtain ⟨⟨l, h, e, hu, -⟩, -, hunused, -⟩ := fetch_ok s
  unfold step
  generalize fetch s = r at hu hunused
  obtain ⟨f, u⟩ := r
  subst hu
  cases f with
  | run i =>
    obtain ⟨t, ht⟩ := exec_proceeds i (s := withPorts s l h e) htx hrx
    simp only [perform, ht]
    exact hear_proceeds _ t
  | illegal w => exact ⟨_, rfl⟩
  | unused id => rw [hunused id rfl] at hev; cases hev
  | reset => exact ⟨_, rfl⟩
  | directive => exact ⟨_, rfl⟩

/-- Settles O41: the invariants keep the FIFO indices in range and the event port empty. -/
theorem everyStepFromTheInvariantsProceeds : Obligations.EveryStepFromTheInvariantsProceeds := by
  rintro s ⟨-, -, htx, hrx, -, -, -, -, -, -, -, -, -, -, -, -, -, hev⟩
  exact step_proceeds htx hrx hev

end Sys2Proof.Machine
end

section
/-! PROOFS. Unscripted steps: what is fetched where no script fixes the schedule (00_scope R8, R9). -/

namespace Sys2Proof.Machine

/-- The outcome of a step in which the Host's word is decoded and accepted (R96). -/
def accept (w : Word) (s : State) : Host.Outcome State Fault Refusal :=
  match decodeCmd w with
  | .ok i => hear s.env.job (exec i s)
  | .error _ => .next (raise (.illegalCommand w) s)

theorem perform_offer (w : Word) (s : State) : perform exec (offer w s) = accept w s := by
  unfold offer accept
  cases decodeCmd w <;> rfl

theorem perform_tickTurn (s : State) :
    perform exec (tickTurn s) = hear s.env.job (exec .tick (supplyLevel s)) := by
  simp only [tickTurn, perform, supplyLevel_job]

/-- A Host that tries its word waits on a tick while the hold lasts, and else has it accepted (R181). -/
theorem perform_retry (w : Word) (s : State) :
    perform exec (retry w s) =
      if holds w s then hear s.env.job (exec .tick (supplyLevel s)) else accept w (release s) := by
  unfold retry
  split
  · exact perform_tickTurn s
  · exact perform_offer w (release s)

/-- Nothing the test program issued is under way, and none of it is left. -/
theorem scripted_eq_false {s : State} (hprogram : s.env.program = false) (hagenda : s.env.agenda = []) :
    scripted s = false := by
  simp [scripted, hprogram, hagenda]

/-- With no script, a Host that holds a word takes a free turn (R181). -/
theorem fetch_held_free {s : State} {w : Word} (hev : s.env.event = none) (hheld : s.held = some w)
    (hagenda : s.env.agenda = []) (hprogram : s.env.program = false) :
    fetch s = freeTurn (fun _ => retry w) (clearPorts s) := by
  have h : scripted (clearPorts s) = false := scripted_eq_false hprogram hagenda
  simp [fetch, hev, hheld, heldTurn, hagenda, h]

/-- With no script, a Host in the middle of a pseudo-instruction takes a free turn (R191). -/
theorem fetch_job_free {s : State} {j : Job} (hev : s.env.event = none) (hheld : s.held = none)
    (hjob : s.env.job = some j) (hagenda : s.env.agenda = []) (hprogram : s.env.program = false) :
    fetch s = freeTurn (fun _ => offer (jobWord j)) (clearPorts s) := by
  have h : scripted (clearPorts s) = false := scripted_eq_false hprogram hagenda
  simp [fetch, hev, hheld, hjob, jobTurn, h]

/-- With no script, a Host in the middle of nothing takes a free turn. -/
theorem fetch_begin_free {s : State} (hev : s.env.event = none) (hheld : s.held = none) (hjob : s.env.job = none)
    (hagenda : s.env.agenda = []) : fetch s = freeTurn (begin false) (clearPorts s) := by
  simp [fetch, hev, hheld, hjob, nextTurn, hagenda]

/-- What a Host that takes a free turn does, if it is the one to move. -/
def freeHost (s : State) : Offer → State → Fetched × State :=
  match s.held, s.env.job with
  | some w, _ => fun _ => retry w
  | none, some j => fun _ => offer (jobWord j)
  | none, none => begin false

/-- With no script every step takes a free turn (R9). -/
theorem fetch_free {s : State} (hev : s.env.event = none) (hagenda : s.env.agenda = [])
    (hprogram : s.held ≠ none ∨ s.env.job ≠ none → s.env.program = false) :
    fetch s = freeTurn (freeHost s) (clearPorts s) := by
  unfold freeHost
  split
  · next w _ hheld => exact fetch_held_free hev hheld hagenda (hprogram (.inl (by simp [hheld])))
  · next j hheld hjob => exact fetch_job_free hev hheld hjob hagenda (hprogram (.inr (by simp [hjob])))
  · next hheld hjob => exact fetch_begin_free hev hheld hjob hagenda

/-- Settles O38: the free turn names the agent; a moving Host tries its held word, goes on with its pseudo-instruction, or begins
something new. -/
theorem unscriptedStepTakesTheFreeTurn : Obligations.UnscriptedStepTakesTheFreeTurn := by
  intro s hev hagenda hprogram s0 accepted begun
  unfold step
  rw [fetch_free hev hagenda hprogram]
  unfold freeTurn
  rw [clearPorts_env]
  cases Config.freeTurn s.env.draws with
  | tick => exact perform_tickTurn s0
  | reset => rfl
  | host o =>
    unfold freeHost
    cases hheld : s.held with
    | some w => exact perform_retry w s0
    | none =>
      cases hjob : s.env.job with
      | some j => exact perform_offer (jobWord j) s0
      | none =>
        cases o with
        | word w => exact perform_offer w (begun none)
        | readsnap => exact perform_offer (jobWord .snapCount) (begun (some .snapCount))
        | reportstats => exact perform_offer (jobWord .reportTx) (begun (some .reportTx))

end Sys2Proof.Machine
end

section
/-! PROOFS. Frames of the host port, the engines' events and fetching: who writes the fault record, the held word, the counter and the other direction. -/

namespace Sys2Proof.Machine

/-- What no event of an engine writes: the counter, the fault record, the held word and the environment. -/
structure EventFrame where
  timer : Nat
  fault : BitVec 3
  held : Option Word
  env : Env

/-- The event frame of a state. -/
def eventFrame (s : State) : EventFrame := { timer := s.timer, fault := s.fault, held := s.held, env := s.env }

theorem rxDone_eventFrame {s t : State} (h : rxDone s = .ok t) : eventFrame t = eventFrame s := by
  rcases rxDone_cases h with ⟨-, rfl⟩ | ⟨-, -, rfl⟩ <;> rfl

theorem rxSample_eventFrame {l : Bool} {s t : State} (h : rxSample l s = .ok t) : eventFrame t = eventFrame s := by
  rcases rxSample_cases h with ⟨-, rfl⟩ | ⟨-, -, rfl⟩ | ⟨-, -, -, rfl⟩ <;> rfl

theorem rxPart_eventFrame {l : Bool} {s t : State} (h : rxPart l s = .ok t) : eventFrame t = eventFrame s := by
  rcases rxPart_cases h with ⟨-, rfl⟩ | ⟨-, -, hs⟩ | ⟨-, -, rfl⟩
  · rfl
  · exact rxSample_eventFrame hs
  · rfl

theorem txLoad_eventFrame {s t : State} (h : txLoad s = .ok t) : eventFrame t = eventFrame s := by
  rcases txLoad_cases h with ⟨-, rfl⟩ | ⟨-, -, rfl⟩ <;> rfl

theorem txPart_eventFrame {s t : State} (h : txPart s = .ok t) : eventFrame t = eventFrame s := by
  rcases txPart_cases h with ⟨-, rfl⟩ | ⟨-, -, rfl⟩ | ⟨-, -, -, rfl⟩ | ⟨-, -, -, -, rfl⟩ <;> rfl

/-- The TX part of a tick does not write the RX side (R127, R150). -/
theorem txPart_rxView {s t : State} (h : txPart s = .ok t) : rxView t = rxView s := by
  rcases txPart_cases h with ⟨-, rfl⟩ | ⟨-, -, rfl⟩ | ⟨-, -, -, rfl⟩ | ⟨-, -, -, -, rfl⟩ <;> rfl

/-- A tick writes, of the event frame, the counter only (R127). -/
theorem tick_eventFrame {l : Bool} {s t : State} (h : tick l s = .ok t) :
    eventFrame t = eventFrame (advanceTimer s) := by
  obtain ⟨u, hr, ht⟩ := tick_cases h
  calc eventFrame t = eventFrame u := txPart_eventFrame ht
    _ = eventFrame (edgeLatch l (advanceTimer s)) := rxPart_eventFrame hr
    _ = eventFrame (advanceTimer s) := rfl

/-- Every instruction keeps the fault record or raises a fault (R211). -/
theorem exec_fault {i : Instr} {s t : State} (h : exec i s = .next t) : t.fault = s.fault ∨ ∃ r, t = raise r s := by
  cases i with
  | config baud =>
    rcases execConfig_cases h with ⟨-, rfl⟩ | ⟨-, -, rfl⟩ | ⟨-, -, rfl⟩
    · exact .inr ⟨_, rfl⟩
    · exact .inr ⟨_, rfl⟩
    · exact .inl rfl
  | txput b =>
    rcases execTxput_cases h with ⟨-, rfl⟩ | ⟨-, -, rfl⟩ | ⟨-, -, -, rfl⟩
    · exact .inr ⟨_, rfl⟩
    · exact .inl rfl
    · exact .inl (kick_fault _)
  | rxget =>
    left
    rcases execRxget_cases h with ⟨-, rfl⟩ | ⟨-, -, rfl⟩ <;> rfl
  | tick => exact .inl (congrArg EventFrame.fault (tick_eventFrame (toOutcome_eq_next h)))
  | txLoad => exact .inl (congrArg EventFrame.fault (txLoad_eventFrame (toOutcome_eq_next h)))
  | rxSample => exact .inl (congrArg EventFrame.fault (rxSample_eventFrame (toOutcome_eq_next h)))
  | rxDone => exact .inl (congrArg EventFrame.fault (rxDone_eventFrame (toOutcome_eq_next h)))
  | kick => cases h; exact .inl (kick_fault s)
  | rxcount | rdcntTx | rdcntRx | rdcntEdge | clrcnt | rdstat | txShift | txIdle | rxEdge | edgeLatch =>
    cases h
    exact .inl rfl

/-- The first fault is kept (R211). -/
theorem raise_fault_of_ne {s : State} (r : Raised) (h : s.fault ≠ 0) : (raise r s).fault = s.fault := if_neg h

/-- Fetching writes the ports, the held word and the environment only. -/
theorem fetch_eq_withPorts (s : State) :
    ∃ l h e, (fetch s).2 = withPorts s l h e ∧ (h = s.held ∨ h = none) ∧ e.event = none := (fetch_ok s).1

@[simp] theorem fetch_fault (s : State) : (fetch s).2.fault = s.fault := by
  obtain ⟨l, h, e, hu, -⟩ := fetch_eq_withPorts s
  rw [hu]
  rfl

/-- Settles O7: an instruction keeps the fault record or raises, and raising keeps the first fault. -/
theorem recordedFaultStaysUntilReset : Obligations.RecordedFaultStaysUntilReset := by
  intro s t h hf hr
  have hfetch := fetch_fault s
  have hraise (r : Raised) : (raise r (fetch s).2).fault = s.fault :=
    (raise_fault_of_ne r (hfetch ▸ hf)).trans hfetch
  rcases step_cases h with ⟨i, t', job, snap, -, hx, rfl⟩ | ⟨w, -, rfl⟩ | ⟨hreset, -⟩ | ⟨-, rfl⟩
  · rcases exec_fault hx with hk | ⟨r, rfl⟩
    · exact hk.trans hfetch
    · exact hraise r
  · exact hraise _
  · exact absurd hreset hr
  · exact hfetch

end Sys2Proof.Machine
end

section
/-! PROOFS. The storage of both ring buffers stays canonical in every step, whatever the state (10_state R38, 20_memory R63). -/

namespace Sys2Proof.Machine

/-- Both storages are in canonical form. -/
def Canonical (s : State) : Prop := Memory.wf s.txFifo.mem = true ∧ Memory.wf s.rxFifo.mem = true

theorem Canonical.byteStored {s : State} (h : Canonical s) : Canonical (byteStored s) := ⟨h.1, wf_write _ _ h.2⟩

theorem Canonical.rxDone {s t : State} (hs : Canonical s) (h : rxDone s = .ok t) : Canonical t := by
  rcases rxDone_cases h with ⟨-, rfl⟩ | ⟨-, -, rfl⟩
  · exact hs
  · exact hs.byteStored

theorem Canonical.rxSample {l : Bool} {s t : State} (hs : Canonical s) (h : rxSample l s = .ok t) : Canonical t := by
  rcases rxSample_cases h with ⟨-, rfl⟩ | ⟨-, -, rfl⟩ | ⟨-, -, -, rfl⟩
  · exact hs
  · exact hs
  · exact Canonical.byteStored (s := sampleBit l s) hs

theorem Canonical.txLoad {s t : State} (hs : Canonical s) (h : txLoad s = .ok t) : Canonical t := by
  rcases txLoad_cases h with ⟨-, rfl⟩ | ⟨-, -, rfl⟩ <;> exact hs

theorem Canonical.txPart {s t : State} (hs : Canonical s) (h : txPart s = .ok t) : Canonical t := by
  rcases txPart_cases h with ⟨-, rfl⟩ | ⟨-, -, rfl⟩ | ⟨-, -, -, rfl⟩ | ⟨-, -, -, -, rfl⟩ <;> exact hs

theorem Canonical.rxPart {l : Bool} {s t : State} (hs : Canonical s) (h : rxPart l s = .ok t) : Canonical t := by
  rcases rxPart_cases h with ⟨-, rfl⟩ | ⟨-, -, hx⟩ | ⟨-, -, rfl⟩
  · exact hs
  · exact hs.rxSample hx
  · exact hs

theorem Canonical.tick {l : Bool} {s t : State} (hs : Canonical s) (h : tick l s = .ok t) : Canonical t := by
  obtain ⟨u, hr, ht⟩ := tick_cases h
  have hu : Canonical u := Canonical.rxPart (s := edgeLatch l (advanceTimer s)) hs hr
  exact hu.txPart ht

/-- Every instruction keeps both storages canonical: it writes a slot by `Memory.write`, or none (R63). -/
theorem Canonical.exec {i : Instr} {s t : State} (hs : Canonical s) (h : exec i s = .next t) : Canonical t := by
  cases i with
  | config baud => rcases execConfig_cases h with ⟨-, rfl⟩ | ⟨-, -, rfl⟩ | ⟨-, -, rfl⟩ <;> exact hs
  | txput b =>
    rcases execTxput_cases h with ⟨-, rfl⟩ | ⟨-, -, rfl⟩ | ⟨-, -, -, rfl⟩
    · exact hs
    · exact hs
    · rw [kick_eq]
      exact ⟨wf_write _ _ hs.1, hs.2⟩
  | rxget => rcases execRxget_cases h with ⟨-, rfl⟩ | ⟨-, -, rfl⟩ <;> exact hs
  | tick => exact hs.tick (toOutcome_eq_next h)
  | txLoad => exact hs.txLoad (toOutcome_eq_next h)
  | rxSample => exact hs.rxSample (toOutcome_eq_next h)
  | rxDone => exact hs.rxDone (toOutcome_eq_next h)
  | kick =>
    cases h
    rw [kick_eq]
    exact hs
  | rxcount | rdcntTx | rdcntRx | rdcntEdge | clrcnt | rdstat | txShift | txIdle | rxEdge | edgeLatch =>
    cases h
    exact hs

theorem Canonical.fetch {s : State} (hs : Canonical s) : Canonical (fetch s).2 := by
  obtain ⟨l, h, e, hu, -⟩ := fetch_eq_withPorts s
  rw [hu]
  exact hs

/-- Settles O42: fetching writes no slot, an instruction keeps the canonical form, and reset lists nothing. -/
theorem everyStepKeepsTheStorageCanonical : Obligations.EveryStepKeepsTheStorageCanonical := by
  intro s t htx hrx h
  have hfetch : Canonical (fetch s).2 := Canonical.fetch (s := s) ⟨htx, hrx⟩
  rcases step_cases h with ⟨i, t', job, snap, -, hx, rfl⟩ | ⟨w, -, rfl⟩ | ⟨-, rfl⟩ | ⟨-, rfl⟩
  · have ht' : Canonical t' := hfetch.exec hx
    exact ht'
  · exact hfetch
  · exact ⟨rfl, rfl⟩
  · exact hfetch

end Sys2Proof.Machine
end

section
/-! PROOFS. What a step runs where no trace names an event, and when an engine's event fires (00_scope R9, 40_bitclock R128). -/

namespace Sys2Proof.Machine

/-- What a step runs where no trace names an event: the tick and the host commands (R9, R98). -/
def runsUntraced : Instr → Bool
  | .tick | .config _ | .txput _ | .rxget | .rxcount | .rdcntTx | .rdcntRx | .rdcntEdge | .clrcnt | .rdstat => true
  | .txShift | .txLoad | .txIdle | .rxEdge | .rxSample | .rxDone | .kick | .edgeLatch => false

/-- A word of the host port decodes to no event (R93, R98). -/
theorem runsUntraced_of_decodeCmd {w : Word} {i : Instr} (h : decodeCmd w = .ok i) : runsUntraced i = true := by
  unfold decodeCmd decodeConfig decodeTxput decodePlain decodeRdcnt at h
  split_ifs at h <;> cases h <;> rfl

theorem fetch_runsUntraced {s : State} {i : Instr} (hev : s.env.event = none) (h : (fetch s).1 = .run i) :
    runsUntraced i = true := by
  obtain ⟨-, hrun, -⟩ := fetch_ok s
  rcases hrun i h hev with rfl | ⟨w, hw⟩
  · rfl
  · exact runsUntraced_of_decodeCmd hw

theorem txMatch_iff {s : State} : txMatch s = true ↔ s.txState = .framing ∧ s.timer = s.txCmp := by
  simp [txMatch, txArmed]

theorem rxMatch_iff {s : State} : rxMatch s = true ↔ s.rxState = .sampling ∧ s.timer = s.rxCmp := by
  simp [rxMatch, rxArmed]

theorem edgeTaken_iff {s : State} :
    edgeTaken s = true ↔ s.configured = true ∧ s.rxState = .idle ∧ s.edgeFlag = true := by
  simp [edgeTaken, edgeArmed, and_assoc]

end Sys2Proof.Machine
end

section
/-! PROOFS. The counters: each moves by one at most, with the event it counts (10_state R39). -/

namespace Sys2Proof.Machine

/-- `txCount` stays, or counts a byte that left the TX FIFO and whose frame starts (R39, R144). -/
def TxCountFollows (s t : State) : Prop :=
  t.txCount = s.txCount ∨
    (t.txCount = s.txCount + 1 ∧ t.txFifo.tail = (s.txFifo.tail + 1) % s.params.nTx ∧ t.bitsRemaining = 9)

/-- `rxCount` stays, or counts a byte that completes (R39, R164). -/
def RxCountFollows (s t : State) : Prop :=
  t.rxCount = s.rxCount ∨ (t.rxCount = s.rxCount + 1 ∧ s.rxState = .sampling ∧ t.rxState = .idle)

/-- `edgeCount` stays, or counts an engine that begins to sample (R39, R162). -/
def EdgeCountFollows (s t : State) : Prop :=
  t.edgeCount = s.edgeCount ∨ (t.edgeCount = s.edgeCount + 1 ∧ s.rxState = .idle ∧ t.rxState = .sampling)

/-- All three counters follow their events. -/
def CountersFollow (s t : State) : Prop := TxCountFollows s t ∧ RxCountFollows s t ∧ EdgeCountFollows s t

theorem countersFollow_of_eq {s t : State} (htx : t.txCount = s.txCount) (hrx : t.rxCount = s.rxCount)
    (hedge : t.edgeCount = s.edgeCount) : CountersFollow s t := ⟨.inl htx, .inl hrx, .inl hedge⟩

/-- The end of a byte counts it, or not where a dropped byte is not counted (R164). -/
theorem rxCountFollows_endByte (stored : Bool) {s : State} (hs : s.rxState = .sampling) :
    RxCountFollows s (endByte stored s) := by
  unfold RxCountFollows
  rw [endByte_rxCount]
  split
  · exact .inr ⟨rfl, hs, rfl⟩
  · exact .inl rfl

/-- The RX part of a tick counts a byte or an edge as the engine's state changes (R162, R164). -/
theorem rxPart_countsFollow {l : Bool} {s t : State} (h : rxPart l s = .ok t) :
    RxCountFollows s t ∧ EdgeCountFollows s t := by
  rcases rxPart_cases h with ⟨he, rfl⟩ | ⟨-, hm, hx⟩ | ⟨-, -, rfl⟩
  · obtain ⟨-, hidle, -⟩ := edgeTaken_iff.mp he
    exact ⟨.inl rfl, .inr ⟨rfl, hidle, rfl⟩⟩
  · obtain ⟨hs, -⟩ := rxMatch_iff.mp hm
    rcases rxSample_cases hx with ⟨-, rfl⟩ | ⟨-, -, rfl⟩ | ⟨-, -, -, rfl⟩
    · exact ⟨.inl rfl, .inl rfl⟩
    · exact ⟨rxCountFollows_endByte false (s := sampleBit l s) hs, .inl rfl⟩
    · exact ⟨.inr ⟨rfl, hs, rfl⟩, .inl rfl⟩
  · exact ⟨.inl rfl, .inl rfl⟩

/-- The TX part of a tick counts a byte as it loads it (R144). -/
theorem txPart_countFollows {s t : State} (h : txPart s = .ok t) : TxCountFollows s t := by
  rcases txPart_cases h with ⟨-, rfl⟩ | ⟨-, -, rfl⟩ | ⟨-, -, -, rfl⟩ | ⟨-, -, -, -, rfl⟩
  · exact .inl rfl
  · exact .inl rfl
  · exact .inl rfl
  · exact .inr ⟨rfl, rfl, rfl⟩

/-- In a tick each direction's part moves that direction's counters, and leaves the other's (R127, R150, R168). -/
theorem tick_countersFollow {l : Bool} {s t : State} (h : tick l s = .ok t) : CountersFollow s t := by
  obtain ⟨u, hr, ht⟩ := tick_cases h
  obtain ⟨hsetup, htx⟩ := rxPart_frame hr
  obtain ⟨hrxCount, hedgeCount⟩ := rxPart_countsFollow hr
  have hrx := txPart_rxView ht
  refine ⟨?_, ?_, ?_⟩
  · have hu := txPart_countFollows ht
    have hcount : u.txCount = s.txCount := congrArg TxView.txCount htx
    have hfifo : u.txFifo = s.txFifo := congrArg TxView.txFifo htx
    have hparams : u.params = s.params := congrArg SetupView.params hsetup
    rwa [TxCountFollows, hcount, hfifo, hparams] at hu
  · have hcount : t.rxCount = u.rxCount := congrArg RxView.rxCount hrx
    have hstate : t.rxState = u.rxState := congrArg RxView.rxState hrx
    rw [RxCountFollows, hcount, hstate]
    exact hrxCount
  · have hcount : t.edgeCount = u.edgeCount := congrArg RxView.edgeCount hrx
    have hstate : t.rxState = u.rxState := congrArg RxView.rxState hrx
    rw [EdgeCountFollows, hcount, hstate]
    exact hedgeCount

/-- Of the tick and the host commands only CLRCNT moves a counter against its event (R187). -/
theorem exec_countersFollow {i : Instr} {s t : State} (hi : runsUntraced i = true) (hclear : i ≠ .clrcnt)
    (h : exec i s = .next t) : CountersFollow s t := by
  cases i with
  | tick => exact tick_countersFollow (toOutcome_eq_next h)
  | config baud =>
    rcases execConfig_cases h with ⟨-, rfl⟩ | ⟨-, -, rfl⟩ | ⟨-, -, rfl⟩ <;> exact countersFollow_of_eq rfl rfl rfl
  | txput b =>
    rcases execTxput_cases h with ⟨-, rfl⟩ | ⟨-, -, rfl⟩ | ⟨-, -, -, rfl⟩
    · exact countersFollow_of_eq rfl rfl rfl
    · exact countersFollow_of_eq rfl rfl rfl
    · rw [kick_eq]
      exact countersFollow_of_eq rfl rfl rfl
  | rxget =>
    rcases execRxget_cases h with ⟨-, rfl⟩ | ⟨-, -, rfl⟩ <;> exact countersFollow_of_eq rfl rfl rfl
  | clrcnt => exact absurd rfl hclear
  | rxcount | rdcntTx | rdcntRx | rdcntEdge | rdstat =>
    cases h
    exact countersFollow_of_eq rfl rfl rfl
  | txShift | txLoad | txIdle | rxEdge | rxSample | rxDone | kick | edgeLatch => cases hi

/-- What follows the counters after fetching follows them from the start of the step. -/
theorem CountersFollow.of_fetch {s t : State} (h : CountersFollow (fetch s).2 t) : CountersFollow s t := by
  obtain ⟨l, hw, e, hu, -⟩ := fetch_eq_withPorts s
  rw [hu] at h
  exact h

/-- Settles O45: without a trace a step that is neither reset nor CLRCNT runs a tick, another command, or nothing that counts. -/
theorem countersMoveByOne : Obligations.CountersMoveByOne := by
  rintro s t ⟨-, -, -, -, -, -, -, -, -, -, -, -, -, -, -, -, -, hev⟩ h hreset hclear
  have hstay : CountersFollow (fetch s).2 (fetch s).2 := countersFollow_of_eq rfl rfl rfl
  rcases step_cases h with ⟨i, t', job, snap, hi, hx, rfl⟩ | ⟨w, -, rfl⟩ | ⟨hr, -⟩ | ⟨-, rfl⟩
  · have hne : i ≠ .clrcnt := fun hc => hclear (hi.trans (congrArg Fetched.run hc))
    have hfollow : CountersFollow s t' := (exec_countersFollow (fetch_runsUntraced hev hi) hne hx).of_fetch
    exact hfollow
  · have hfollow : CountersFollow s (fetch s).2 := hstay.of_fetch
    exact hfollow
  · exact absurd hr hreset
  · exact hstay.of_fetch

end Sys2Proof.Machine
end

section
/-! PROOFS. The invariants, part by part: the clock, the TX side, the RX side, the ports (10_state R42); what each part reads, and what keeps it. -/

namespace Sys2Proof.Machine

/-- A ring buffer of `n` slots with its indices in range and its storage canonical (R38). -/
structure Fifo.Ok (n : Nat) (f : Fifo) : Prop where
  head_lt : f.head < n
  tail_lt : f.tail < n
  wf : Memory.wf f.mem = true
  below : Memory.below n f.mem = true

theorem Fifo.Ok.empty {n : Nat} (h : 0 < n) : Fifo.empty.Ok n := ⟨h, h, rfl, rfl⟩

theorem Fifo.Ok.pushed {n : Nat} {f : Fifo} (b : Byte) (h : f.Ok n) : (f.pushed n b).Ok n where
  head_lt := Nat.mod_lt _ (Nat.zero_lt_of_lt h.head_lt)
  tail_lt := h.tail_lt
  wf := wf_write _ _ h.wf
  below := below_write _ _ h.head_lt h.below

theorem Fifo.Ok.popped {n : Nat} {f : Fifo} (h : f.Ok n) : (f.popped n).Ok n where
  head_lt := h.head_lt
  tail_lt := Nat.mod_lt _ (Nat.zero_lt_of_lt h.tail_lt)
  wf := h.wf
  below := h.below

/-- The parameters, the divisor and the counter (R10, R11, R14). -/
structure ClockOk (s : State) : Prop where
  legal : s.params.Legal
  timer_lt : s.timer < 2 ^ s.params.tw
  ticksPerBit_lt : s.ticksPerBit < 2 ^ s.params.tw
  divisor : DivisorRule s

/-- The TX side but its schedule (R42 items 1, 2, 4). -/
structure TxOk (s : State) : Prop where
  txCmp_lt : s.txCmp < 2 ^ s.params.tw
  fifo : s.txFifo.Ok s.params.nTx
  idle : TxIdleRule s
  unconfigured : s.configured = false → s.txState = .idle
  frame : FrameRule s

/-- The RX side but its schedule (R42 items 2, 3). -/
structure RxOk (s : State) : Prop where
  rxCmp_lt : s.rxCmp < 2 ^ s.params.tw
  fifo : s.rxFifo.Ok s.params.nRx
  unconfigured : s.configured = false → s.rxState = .idle ∧ s.edgeCount = 0 ∧ s.edgeFlag = false
  sampling : SamplingRule s

/-- The fault record, the held word and the event port (R181, R212; log 5). -/
structure PortsOk (s : State) : Prop where
  fault : FaultCodeRule s
  held : HeldRule s
  event : NoEventRule s

/-- The invariants are their parts; the count rule follows from indices in range (R62). -/
theorem inv_iff {s : State} :
    Inv s ↔ ClockOk s ∧ (TxOk s ∧ TxScheduleRule s) ∧ (RxOk s ∧ RxScheduleRule s) ∧ PortsOk s := by
  constructor
  · rintro ⟨hlegal, ⟨htimer, htxCmp, hrxCmp, htpb⟩, hitx, hirx, hstx, hsrx, hidle, hun, hsamp, hframe, -, -, hdiv,
      hts, hrs, hfault, hheld, hev⟩
    have htx : TxOk s := ⟨htxCmp, ⟨hitx.1, hitx.2, hstx.1, hstx.2⟩, hidle, fun hc => (hun hc).1, hframe⟩
    have hrx : RxOk s := by
      refine ⟨hrxCmp, ⟨hirx.1, hirx.2, hsrx.1, hsrx.2⟩, fun hc => ?_, hsamp⟩
      obtain ⟨-, hrxIdle, -, hedge⟩ := hun hc
      exact ⟨hrxIdle, hedge⟩
    exact ⟨⟨hlegal, htimer, htpb, hdiv⟩, ⟨htx, hts⟩, ⟨hrx, hrs⟩, ⟨hfault, hheld, hev⟩⟩
  · rintro ⟨hclock, ⟨htx, hts⟩, ⟨hrx, hrs⟩, hports⟩
    have hitx : IndicesOk .tx s := ⟨htx.fifo.head_lt, htx.fifo.tail_lt⟩
    have hirx : IndicesOk .rx s := ⟨hrx.fifo.head_lt, hrx.fifo.tail_lt⟩
    have hun : UnconfiguredRule s := by
      intro hc
      obtain ⟨hrxIdle, hedge⟩ := hrx.unconfigured hc
      have htxIdle := htx.unconfigured hc
      exact ⟨htxIdle, hrxIdle, (htx.idle htxIdle).1, hedge⟩
    exact ⟨hclock.legal, ⟨hclock.timer_lt, htx.txCmp_lt, hrx.rxCmp_lt, hclock.ticksPerBit_lt⟩, hitx, hirx,
      ⟨htx.fifo.wf, htx.fifo.below⟩, ⟨hrx.fifo.wf, hrx.fifo.below⟩, htx.idle, hun, hrx.sampling, htx.frame,
      Nat.le_sub_one_of_lt (fifoCount_lt hitx), Nat.le_sub_one_of_lt (fifoCount_lt hirx), hclock.divisor, hts, hrs,
      hports.fault, hports.held, hports.event⟩

/-! ## What each part reads -/

theorem ClockOk.congr {s t : State} (h : ClockOk s) (hsetup : setupView t = setupView s) (htimer : t.timer = s.timer) :
    ClockOk t := by
  obtain ⟨⟩ := s
  obtain ⟨⟩ := t
  cases hsetup
  cases htimer
  exact ⟨h.legal, h.timer_lt, h.ticksPerBit_lt, h.divisor⟩

theorem TxOk.congr {s t : State} (h : TxOk s) (hsetup : setupView t = setupView s) (hview : txView t = txView s) :
    TxOk t := by
  obtain ⟨⟩ := s
  obtain ⟨⟩ := t
  cases hsetup
  cases hview
  exact ⟨h.txCmp_lt, h.fifo, h.idle, h.unconfigured, h.frame⟩

theorem RxOk.congr {s t : State} (h : RxOk s) (hsetup : setupView t = setupView s) (hview : rxView t = rxView s) :
    RxOk t := by
  obtain ⟨⟩ := s
  obtain ⟨⟩ := t
  cases hsetup
  cases hview
  exact ⟨h.rxCmp_lt, h.fifo, h.unconfigured, h.sampling⟩

theorem PortsOk.congr {s t : State} (h : PortsOk s) (hfault : t.fault = s.fault) (hheld : t.held = s.held)
    (henv : t.env = s.env) : PortsOk t :=
  ⟨by rw [FaultCodeRule, hfault]; exact h.fault, by rw [HeldRule, hheld]; exact h.held,
    by rw [NoEventRule, henv]; exact h.event⟩

/-- A running TX engine is due within the next bit period, before a tick's TX part has run (R131). -/
def TxDue (s : State) : Prop :=
  s.txState = .framing → ticksUntil s.params s.timer s.txCmp < s.ticksPerBit

/-- A running RX engine is due within the next one and a half bit periods, before a tick's RX part has run (R131). -/
def RxDue (s : State) : Prop :=
  s.rxState = .sampling → ticksUntil s.params s.timer s.rxCmp < firstSampleDelay s.ticksPerBit

theorem TxDue.congr {s t : State} (h : TxDue s) (hsetup : setupView t = setupView s) (htimer : t.timer = s.timer)
    (hview : txView t = txView s) : TxDue t := by
  obtain ⟨⟩ := s
  obtain ⟨⟩ := t
  cases hsetup
  cases htimer
  cases hview
  exact h

theorem txScheduleRule_congr {s t : State} (h : TxScheduleRule s) (hsetup : setupView t = setupView s)
    (htimer : t.timer = s.timer) (hview : txView t = txView s) : TxScheduleRule t := by
  obtain ⟨⟩ := s
  obtain ⟨⟩ := t
  cases hsetup
  cases htimer
  cases hview
  exact h

theorem rxScheduleRule_congr {s t : State} (h : RxScheduleRule s) (hsetup : setupView t = setupView s)
    (htimer : t.timer = s.timer) (hview : rxView t = rxView s) : RxScheduleRule t := by
  obtain ⟨⟩ := s
  obtain ⟨⟩ := t
  cases hsetup
  cases htimer
  cases hview
  exact h

/-- A state that differs from one with the invariants in its ports and environment only has them too. -/
theorem inv_congr {s t : State} (h : Inv s) (hports : PortsOk t) (hsetup : setupView t = setupView s)
    (htimer : t.timer = s.timer) (htx : txView t = txView s) (hrx : rxView t = rxView s) : Inv t := by
  obtain ⟨hclock, ⟨htxOk, hts⟩, ⟨hrxOk, hrs⟩, -⟩ := inv_iff.mp h
  exact inv_iff.mpr ⟨hclock.congr hsetup htimer,
    ⟨htxOk.congr hsetup htx, txScheduleRule_congr hts hsetup htimer htx⟩,
    ⟨hrxOk.congr hsetup hrx, rxScheduleRule_congr hrs hsetup htimer hrx⟩, hports⟩

/-! ## What the parts imply -/

theorem TxOk.configured {s : State} (h : TxOk s) (hf : s.txState = .framing) : s.configured = true := by
  by_contra hc
  have hidle := h.unconfigured (by simpa using hc)
  rw [hf] at hidle
  cases hidle

theorem RxOk.configured {s : State} (h : RxOk s) (hs : s.rxState = .sampling) : s.configured = true := by
  by_contra hc
  obtain ⟨hidle, -⟩ := h.unconfigured (by simpa using hc)
  rw [hs] at hidle
  cases hidle

theorem ClockOk.one_le_ticksPerBit {s : State} (h : ClockOk s) (hc : s.configured = true) : 1 ≤ s.ticksPerBit :=
  (h.divisor hc).1

theorem ClockOk.firstSampleDelay_lt {s : State} (h : ClockOk s) (hc : s.configured = true) :
    firstSampleDelay s.ticksPerBit < 2 ^ s.params.tw := by
  obtain ⟨-, hle⟩ := h.divisor hc
  have hpos : 0 < 2 ^ s.params.tw := by positivity
  omega

theorem le_firstSampleDelay (tpb : Nat) : tpb ≤ firstSampleDelay tpb := Nat.le_add_right _ _

end Sys2Proof.Machine
end

section
/-! PROOFS. A tick keeps the invariants: the counter's advance makes a running engine due, and the engine's part of the tick gives it a new schedule or stops it (40_bitclock R127, R131). -/

namespace Sys2Proof.Machine

/-- An engine that is due and does not fire is still scheduled. -/
theorem one_le_ticksUntil_of_ne {p : Params} {timer cmp : Nat} (ht : timer < 2 ^ p.tw) (hc : cmp < 2 ^ p.tw)
    (hne : timer ≠ cmp) : 1 ≤ ticksUntil p timer cmp :=
  Nat.one_le_iff_ne_zero.mpr fun h0 => hne ((ticksUntil_eq_zero ht hc).mp h0)

/-- The counter's advance brings a scheduled event closer. -/
theorem ticksUntil_advance_lt {p : Params} {timer cmp d : Nat} (ht : timer < 2 ^ p.tw) (hc : cmp < 2 ^ p.tw)
    (h : 1 ≤ ticksUntil p timer cmp ∧ ticksUntil p timer cmp ≤ d) :
    ticksUntil p (wrap p (timer + 1)) cmp < d := by
  rw [ticksUntil_advance ht hc h.1]
  omega

/-! ## The TX part -/

/-- A TX engine that just fired and waits one bit period is scheduled (R143, R144). -/
theorem txScheduleRule_after {s t : State} (hclock : ClockOk s) (hconf : s.configured = true) (hm : s.timer = s.txCmp)
    (hsetup : setupView t = setupView s) (htimer : t.timer = s.timer)
    (hcmp : t.txCmp = wrap s.params (s.txCmp + s.ticksPerBit)) : TxScheduleRule t := by
  intro _
  have hp : t.params = s.params := congrArg SetupView.params hsetup
  have htpb : t.ticksPerBit = s.ticksPerBit := congrArg SetupView.ticksPerBit hsetup
  rw [hp, htpb, htimer, hcmp, ← hm, ticksUntil_schedule hclock.timer_lt hclock.ticksPerBit_lt]
  exact ⟨hclock.one_le_ticksPerBit hconf, Nat.le_refl _⟩

/-- Shifting a bit out keeps the rest of the frame below its length (R143, R146). -/
theorem frameRule_txShift {s : State} (h : FrameRule s) (hb : 0 < s.bitsRemaining) : FrameRule (txShift s) := by
  obtain ⟨hle, hframe⟩ := h
  refine ⟨?_, fun _ => ?_⟩
  · simp only [txShift_bitsRemaining]
    bv_omega
  · have hsum : s.bitsRemaining.toNat = 1 + (s.bitsRemaining - 1).toNat := by bv_omega
    rw [txShift_frame, txShift_bitsRemaining, ← BitVec.shiftRight_add, ← hsum]
    exact hframe hb

/-- Nine shifts after the first empty the shift register (R146). -/
theorem buildFrame_shifted_nine (b : Byte) : buildFrame b >>> 1 >>> 9 = 0 := by
  revert b
  decide

/-- A new frame has nine bits left after its start bit (R144). -/
theorem frameRule_startFrame (b : Byte) (s : State) : FrameRule (startFrame b s) := by
  refine ⟨by simp, fun _ => ?_⟩
  exact buildFrame_shifted_nine b

theorem TxOk.txShift {s : State} (h : TxOk s) (hb : 0 < s.bitsRemaining) (hf : s.txState = .framing) :
    TxOk (txShift s) where
  txCmp_lt := wrap_lt _ _
  fifo := h.fifo
  idle := fun hi => by rw [txShift_txState, hf] at hi; cases hi
  unconfigured := h.unconfigured
  frame := frameRule_txShift h.frame hb

theorem TxOk.txIdle {s : State} (h : TxOk s) (hb : ¬ 0 < s.bitsRemaining) (he : empty .tx s = true) :
    TxOk (txIdle s) where
  txCmp_lt := h.txCmp_lt
  fifo := h.fifo
  idle := fun _ => ⟨he, by rw [txIdle_bitsRemaining]; bv_omega, fun _ => rfl⟩
  unconfigured := fun _ => rfl
  frame := h.frame

theorem TxOk.loaded {s : State} (h : TxOk s) (hf : s.txState = .framing) : TxOk (loaded s) where
  txCmp_lt := wrap_lt _ _
  fifo := h.fifo.popped
  idle := fun (hi : s.txState = .idle) => by rw [hf] at hi; cases hi
  unconfigured := h.unconfigured
  frame := frameRule_startFrame _ _

/-- The TX part of a tick keeps the TX side and leaves a running engine scheduled (R127, R142). -/
theorem TxOk.txPart {s t : State} (hclock : ClockOk s) (h : TxOk s) (hdue : TxDue s) (hp : txPart s = .ok t) :
    TxOk t ∧ TxScheduleRule t := by
  rcases txPart_cases hp with ⟨hm, rfl⟩ | ⟨hm, hb, rfl⟩ | ⟨-, hb, he, rfl⟩ | ⟨hm, -, -, -, rfl⟩
  · refine ⟨h, fun hf => ?_⟩
    have hne : t.timer ≠ t.txCmp := fun heq => by
      rw [txMatch_iff.mpr ⟨hf, heq⟩] at hm
      cases hm
    exact ⟨one_le_ticksUntil_of_ne hclock.timer_lt h.txCmp_lt hne, Nat.le_of_lt (hdue hf)⟩
  · obtain ⟨hf, heq⟩ := txMatch_iff.mp hm
    exact ⟨h.txShift hb hf, txScheduleRule_after hclock (h.configured hf) heq rfl rfl rfl⟩
  · exact ⟨h.txIdle hb he, fun hf => by cases hf⟩
  · obtain ⟨hf, heq⟩ := txMatch_iff.mp hm
    exact ⟨h.loaded hf, txScheduleRule_after hclock (h.configured hf) heq rfl rfl rfl⟩

/-! ## The RX part -/

theorem RxOk.edgeLatch {s : State} (l : Bool) (h : RxOk s) : RxOk (edgeLatch l s) where
  rxCmp_lt := h.rxCmp_lt
  fifo := h.fifo
  unconfigured := fun (hc : s.configured = false) => by
    obtain ⟨hidle, hcount, hflag⟩ := h.unconfigured hc
    exact ⟨hidle, hcount, by simp [fallingEdge, hc, hflag]⟩
  sampling := h.sampling

theorem RxOk.rxEdge {s : State} (h : RxOk s) (hc : s.configured = true) : RxOk (rxEdge s) where
  rxCmp_lt := wrap_lt _ _
  fifo := h.fifo
  unconfigured := fun (hn : s.configured = false) => by rw [hc] at hn; cases hn
  sampling := ⟨by simp, fun _ => by simp⟩

/-- The first sample is scheduled 1.5 bit periods ahead (R162). -/
theorem rxScheduleRule_rxEdge {s : State} (hclock : ClockOk s) (hc : s.configured = true) :
    RxScheduleRule (rxEdge s) := by
  intro _
  rw [rxEdge_params, rxEdge_timer, rxEdge_rxCmp, rxEdge_ticksPerBit,
    ticksUntil_schedule hclock.timer_lt (hclock.firstSampleDelay_lt hc)]
  exact ⟨(hclock.one_le_ticksPerBit hc).trans (le_firstSampleDelay _), Nat.le_refl _⟩

/-- A sample but the last leaves at most seven bits read (R163). -/
theorem RxOk.sampleBit {s : State} (l : Bool) (h : RxOk s) (hs : s.rxState = .sampling) (hb : s.bitsSampled + 1 ≠ 8) :
    RxOk (sampleBit l s) where
  rxCmp_lt := wrap_lt _ _
  fifo := h.fifo
  unconfigured := h.unconfigured
  sampling := by
    have hle := h.sampling.2 hs
    simp only [SamplingRule, sampleBit_bitsSampled]
    exact ⟨by bv_omega, fun _ => by bv_omega⟩

/-- The next sample is scheduled one bit period ahead (R163). -/
theorem rxScheduleRule_sampleBit {s : State} (l : Bool) (hclock : ClockOk s) (hc : s.configured = true)
    (hm : s.timer = s.rxCmp) : RxScheduleRule (sampleBit l s) := by
  intro _
  rw [sampleBit_params, sampleBit_timer, sampleBit_rxCmp, sampleBit_ticksPerBit, ← hm,
    ticksUntil_schedule hclock.timer_lt hclock.ticksPerBit_lt]
  exact ⟨hclock.one_le_ticksPerBit hc, le_firstSampleDelay _⟩

/-- A configured engine goes Idle after a byte (R164). -/
theorem rxOk_endByte (stored : Bool) {s : State} (hcmp : s.rxCmp < 2 ^ s.params.tw) (hfifo : s.rxFifo.Ok s.params.nRx)
    (hc : s.configured = true) (hb : s.bitsSampled = 8) : RxOk (endByte stored s) where
  rxCmp_lt := hcmp
  fifo := hfifo
  unconfigured := fun (hn : s.configured = false) => by rw [hc] at hn; cases hn
  sampling := ⟨by simp [hb], fun hs => by cases hs⟩

/-- The RX part of a tick keeps the RX side and leaves a running engine scheduled (R127, R162 to R164). -/
theorem RxOk.rxPart {l : Bool} {s t : State} (hclock : ClockOk s) (h : RxOk s) (hdue : RxDue s)
    (hp : rxPart l s = .ok t) : RxOk t ∧ RxScheduleRule t := by
  rcases rxPart_cases hp with ⟨he, rfl⟩ | ⟨-, hm, hx⟩ | ⟨-, hm, rfl⟩
  · obtain ⟨hc, -, -⟩ := edgeTaken_iff.mp he
    exact ⟨h.rxEdge hc, rxScheduleRule_rxEdge hclock hc⟩
  · obtain ⟨hs, heq⟩ := rxMatch_iff.mp hm
    have hc := h.configured hs
    rcases rxSample_cases hx with ⟨hb, rfl⟩ | ⟨hb, -, rfl⟩ | ⟨hb, -, -, rfl⟩
    · exact ⟨h.sampleBit l hs hb, rxScheduleRule_sampleBit l hclock hc heq⟩
    · exact ⟨rxOk_endByte _ (wrap_lt _ _) h.fifo hc hb, fun hn => by cases hn⟩
    · exact ⟨rxOk_endByte _ (wrap_lt _ _) (h.fifo.pushed _) hc hb, fun hn => by cases hn⟩
  · refine ⟨h, fun hs => ?_⟩
    have hne : t.timer ≠ t.rxCmp := fun heq => by
      rw [rxMatch_iff.mpr ⟨hs, heq⟩] at hm
      cases hm
    exact ⟨one_le_ticksUntil_of_ne hclock.timer_lt h.rxCmp_lt hne, Nat.le_of_lt (hdue hs)⟩

/-! ## The whole tick -/

theorem ClockOk.advanceTimer {s : State} (h : ClockOk s) : ClockOk (advanceTimer s) :=
  ⟨h.legal, wrap_lt _ _, h.ticksPerBit_lt, h.divisor⟩

theorem PortsOk.of_tick {l : Bool} {s t : State} (h : PortsOk s) (ht : tick l s = .ok t) : PortsOk t := by
  have hframe := tick_eventFrame ht
  exact h.congr (congrArg EventFrame.fault hframe) (congrArg EventFrame.held hframe) (congrArg EventFrame.env hframe)

/-- A tick keeps the invariants (R127). -/
theorem inv_tick {l : Bool} {s t : State} (h : Inv s) (ht : tick l s = .ok t) : Inv t := by
  obtain ⟨hclock, ⟨htx, hts⟩, ⟨hrx, hrs⟩, hports⟩ := inv_iff.mp h
  obtain ⟨u, hr, hp⟩ := tick_cases ht
  have hclock' : ClockOk (edgeLatch l (advanceTimer s)) := hclock.advanceTimer.congr rfl rfl
  have htxDue : TxDue (edgeLatch l (advanceTimer s)) := fun hf =>
    ticksUntil_advance_lt hclock.timer_lt htx.txCmp_lt (hts hf)
  have hrxDue : RxDue (edgeLatch l (advanceTimer s)) := fun hf =>
    ticksUntil_advance_lt hclock.timer_lt hrx.rxCmp_lt (hrs hf)
  obtain ⟨hsetup, hview⟩ := rxPart_frame hr
  have htimer : u.timer = (edgeLatch l (advanceTimer s)).timer := congrArg EventFrame.timer (rxPart_eventFrame hr)
  have hclockU : ClockOk u := hclock'.congr hsetup htimer
  obtain ⟨hrxU, hrsU⟩ := ((hrx.congr rfl rfl : RxOk (advanceTimer s)).edgeLatch l).rxPart hclock' hrxDue hr
  have htxU : TxOk u := (htx.congr rfl rfl : TxOk (edgeLatch l (advanceTimer s))).congr hsetup hview
  have hsetup' := txPart_setupView hp
  have hview' := txPart_rxView hp
  have htimer' : t.timer = u.timer := congrArg EventFrame.timer (txPart_eventFrame hp)
  exact inv_iff.mpr ⟨hclockU.congr hsetup' htimer', htxU.txPart hclockU (htxDue.congr hsetup htimer hview) hp,
    ⟨hrxU.congr hsetup' hview', rxScheduleRule_congr hrsU hsetup' htimer' hview'⟩, hports.of_tick ht⟩

end Sys2Proof.Machine
end

section
/-! PROOFS. Every step keeps the invariants, and the reset state has them (10_state R42, R43). -/

namespace Sys2Proof.Machine

/-! ## Ports and environment -/

theorem faultCode_le (r : Raised) : faultCode r ≤ 4 := by
  cases r <;> simp [faultCode]

/-- Only codes 1 to 4 are raised (R212). -/
theorem PortsOk.raise {s : State} (r : Raised) (h : PortsOk s) : PortsOk (raise r s) where
  fault := by
    rw [FaultCodeRule, raise_fault]
    split
    · exact faultCode_le r
    · exact h.fault
  held := h.held
  event := h.event

theorem setWidth_txputWord (b : Byte) : (txputWord b).setWidth 8 = b := by
  revert b
  decide

/-- Only a `TXPUT` is held (R181). -/
theorem PortsOk.hold {s : State} (b : Byte) (h : PortsOk s) : PortsOk (hold (txputWord b) s) where
  fault := h.fault
  held := by
    show decide (txputWord b = txputWord ((txputWord b).setWidth 8)) = true
    simp [setWidth_txputWord]
  event := h.event

theorem inv_raise {s : State} (r : Raised) (h : Inv s) : Inv (raise r s) := by
  obtain ⟨-, -, -, hports⟩ := inv_iff.mp h
  exact inv_congr h (hports.raise r) rfl rfl rfl rfl

theorem inv_hold {s : State} (b : Byte) (h : Inv s) : Inv (hold (txputWord b) s) := by
  obtain ⟨-, -, -, hports⟩ := inv_iff.mp h
  exact inv_congr h (hports.hold b) rfl rfl rfl rfl

theorem inv_respond {s : State} (w : Word) (h : Inv s) : Inv (respond w s) := by
  obtain ⟨-, -, -, hports⟩ := inv_iff.mp h
  exact inv_congr h (hports.congr rfl rfl rfl) rfl rfl rfl rfl

/-- Another environment that asks for no event, with the same word held or none, keeps the invariants. -/
theorem inv_withPorts {s : State} {l : Bool} {h : Option Word} {e : Env} (hs : Inv s) (hh : h = s.held ∨ h = none)
    (he : e.event = none) : Inv (withPorts s l h e) := by
  obtain ⟨-, -, -, hports⟩ := inv_iff.mp hs
  have hheld : HeldRule (withPorts s l h e) := by
    rcases hh with rfl | rfl
    · exact hports.held
    · rfl
  exact inv_congr hs ⟨hports.fault, hheld, he⟩ rfl rfl rfl rfl

theorem inv_fetch {s : State} (h : Inv s) : Inv (fetch s).2 := by
  obtain ⟨l, hw, e, hu, hh, he⟩ := fetch_eq_withPorts s
  rw [hu]
  exact inv_withPorts h hh he

/-- What host software does with a response keeps the invariants (R191, R192). -/
theorem inv_setJobSnap {s : State} (job : Option Job) (snap : Option Snapshot) (h : Inv s) :
    Inv { s with env := { s.env with job := job, snap := snap } } := by
  obtain ⟨-, -, -, hports⟩ := inv_iff.mp h
  exact inv_congr h ⟨hports.fault, hports.held, hports.event⟩ rfl rfl rfl rfl

/-! ## The host commands -/

/-- A divisor that is no BadBaud is legal (R11, R123). -/
theorem divisor_legal {p : Params} {baud : Word} (h : badBaud p baud = false) :
    1 ≤ divisor p baud ∧ firstSampleDelay (divisor p baud) ≤ 2 ^ p.tw - 1 := by
  simp only [badBaud, decide_eq_false_iff_not, not_or] at h
  omega

/-- CONFIG of an unconfigured block finds both engines Idle (R42 item 2). -/
theorem inv_configure {s : State} {baud : Word} (h : Inv s) (hc : s.configured = false)
    (hb : badBaud s.params baud = false) : Inv (configure baud s) := by
  obtain ⟨hclock, ⟨htx, -⟩, ⟨hrx, -⟩, hports⟩ := inv_iff.mp h
  have htxIdle := htx.unconfigured hc
  obtain ⟨hempty, hbits, -⟩ := htx.idle htxIdle
  obtain ⟨hrxIdle, -⟩ := hrx.unconfigured hc
  have hdiv := divisor_legal hb
  have hlt : divisor s.params baud < 2 ^ s.params.tw := by
    have hle := le_firstSampleDelay (divisor s.params baud)
    have hpos : 0 < 2 ^ s.params.tw := by positivity
    omega
  have hclock' : ClockOk (configure baud s) := ⟨hclock.legal, hclock.timer_lt, hlt, fun _ => hdiv⟩
  have htx' : TxOk (configure baud s) :=
    ⟨htx.txCmp_lt, htx.fifo, fun _ => ⟨hempty, hbits, fun _ => rfl⟩, fun hn => (by cases hn), htx.frame⟩
  have hrx' : RxOk (configure baud s) := ⟨hrx.rxCmp_lt, hrx.fifo, fun hn => (by cases hn), hrx.sampling⟩
  refine inv_iff.mpr ⟨hclock', ⟨htx', fun hf => ?_⟩, ⟨hrx', fun hs => ?_⟩, hports.congr rfl rfl rfl⟩
  · rw [configure_txState, htxIdle] at hf
    cases hf
  · rw [configure_rxState, hrxIdle] at hs
    cases hs

/-- Kick leaves a configured engine Framing, its schedule in range (R141). -/
theorem txOk_kick {s : State} (hcmp : s.txCmp < 2 ^ s.params.tw) (hfifo : s.txFifo.Ok s.params.nTx)
    (hc : s.configured = true) (hframe : FrameRule s) : TxOk (kick s) where
  txCmp_lt := by
    rw [kick_params, kick_txCmp]
    split
    · exact wrap_lt _ _
    · exact hcmp
  fifo := by rw [kick_txFifo, kick_params]; exact hfifo
  idle := fun hi => by
    rw [kick_txState] at hi
    cases hi
  unconfigured := fun hn => by
    rw [kick_configured, hc] at hn
    cases hn
  frame := by rw [FrameRule, kick_bitsRemaining, kick_frame]; exact hframe

/-- Kick schedules an Idle engine one bit period ahead and leaves a Framing one its schedule (R141). -/
theorem txScheduleRule_kick {s : State} (hclock : ClockOk s) (hc : s.configured = true) (hts : TxScheduleRule s) :
    TxScheduleRule (kick s) := by
  intro _
  rw [kick_params, kick_timer, kick_ticksPerBit, kick_txCmp]
  cases hst : s.txState with
  | idle =>
    rw [if_pos rfl, ticksUntil_schedule hclock.timer_lt hclock.ticksPerBit_lt]
    exact ⟨hclock.one_le_ticksPerBit hc, Nat.le_refl _⟩
  | framing =>
    rw [if_neg (by simp)]
    exact hts hst

/-- A byte put and the engine kicked (R141, R182). -/
theorem inv_kick_pushed {s : State} (b : Byte) (h : Inv s) (hc : s.configured = true) :
    Inv (kick (setFifo .tx (s.txFifo.pushed s.params.nTx b) s)) := by
  obtain ⟨hclock, ⟨htx, hts⟩, ⟨hrx, hrs⟩, hports⟩ := inv_iff.mp h
  have hclock' : ClockOk (setFifo .tx (s.txFifo.pushed s.params.nTx b) s) := hclock.congr rfl rfl
  rw [inv_iff]
  refine ⟨hclock'.congr (setupView_kick _) (kick_timer _),
    ⟨txOk_kick htx.txCmp_lt (htx.fifo.pushed b) hc htx.frame, txScheduleRule_kick hclock' hc hts⟩, ?_⟩
  rw [kick_eq]
  exact ⟨⟨hrx.congr rfl rfl, rxScheduleRule_congr hrs rfl rfl rfl⟩, hports.congr rfl rfl rfl⟩

theorem inv_txput {s t : State} {b : Byte} (h : Inv s) (hx : execTxput b s = .next t) : Inv t := by
  rcases execTxput_cases hx with ⟨-, rfl⟩ | ⟨-, -, rfl⟩ | ⟨hc, -, -, rfl⟩
  · exact inv_raise _ h
  · exact inv_hold b h
  · exact inv_respond 0 (inv_kick_pushed b h hc)

theorem inv_config {s t : State} {baud : Word} (h : Inv s) (hx : execConfig baud s = .next t) : Inv t := by
  rcases execConfig_cases hx with ⟨-, rfl⟩ | ⟨-, -, rfl⟩ | ⟨hc, hb, rfl⟩
  · exact inv_raise _ h
  · exact inv_raise _ h
  · exact inv_respond 0 (inv_configure h hc hb)

/-- The oldest received byte removed (R65). -/
theorem inv_rxPopped {s : State} (h : Inv s) : Inv (setFifo .rx (s.rxFifo.popped s.params.nRx) s) := by
  obtain ⟨hclock, ⟨htx, hts⟩, ⟨hrx, hrs⟩, hports⟩ := inv_iff.mp h
  have hrx' : RxOk (setFifo .rx (s.rxFifo.popped s.params.nRx) s) :=
    ⟨hrx.rxCmp_lt, hrx.fifo.popped, hrx.unconfigured, hrx.sampling⟩
  exact inv_iff.mpr ⟨hclock.congr rfl rfl, ⟨htx.congr rfl rfl, hts⟩, ⟨hrx', hrs⟩, hports.congr rfl rfl rfl⟩

theorem inv_rxget {s t : State} (h : Inv s) (hx : execRxget s = .next t) : Inv t := by
  rcases execRxget_cases hx with ⟨-, rfl⟩ | ⟨-, -, rfl⟩
  · exact inv_respond 0 h
  · exact inv_respond _ (inv_rxPopped h)

/-- Zeroed counters agree with an unconfigured block (R42 item 2, R187). -/
theorem inv_clearCounters {s : State} (h : Inv s) : Inv (clearCounters s) := by
  obtain ⟨hclock, ⟨htx, hts⟩, ⟨hrx, hrs⟩, hports⟩ := inv_iff.mp h
  have hrx' : RxOk (clearCounters s) := by
    refine ⟨hrx.rxCmp_lt, hrx.fifo, fun hc => ?_, hrx.sampling⟩
    obtain ⟨hidle, -, hflag⟩ := hrx.unconfigured hc
    exact ⟨hidle, rfl, hflag⟩
  have htx' : TxOk (clearCounters s) := ⟨htx.txCmp_lt, htx.fifo, htx.idle, htx.unconfigured, htx.frame⟩
  exact inv_iff.mpr ⟨hclock.congr rfl rfl, ⟨htx', hts⟩, ⟨hrx', hrs⟩, hports.congr rfl rfl rfl⟩

/-- The tick and every host command keep the invariants. -/
theorem inv_exec {i : Instr} {s t : State} (hi : runsUntraced i = true) (h : Inv s) (hx : exec i s = .next t) :
    Inv t := by
  cases i with
  | tick => exact inv_tick h (toOutcome_eq_next hx)
  | config baud => exact inv_config h hx
  | txput b => exact inv_txput h hx
  | rxget => exact inv_rxget h hx
  | clrcnt => cases hx; exact inv_respond 0 (inv_clearCounters h)
  | rxcount | rdcntTx | rdcntRx | rdcntEdge | rdstat => cases hx; exact inv_respond _ h
  | txShift | txLoad | txIdle | rxEdge | rxSample | rxDone | kick | edgeLatch => cases hi

/-! ## Reset -/

/-- Settles O39: after reset both engines are Idle and both ring buffers empty. -/
theorem resetSatisfiesTheInvariants : Obligations.ResetSatisfiesTheInvariants := by
  intro p hlegal
  have hpos : 0 < 2 ^ p.tw := by positivity
  have ⟨hnTx, hnRx, _⟩ := hlegal
  have hframe : FrameRule (State.resetWith p) := ⟨(by decide : (0 : BitVec 4) ≤ 9), fun hb => by cases hb⟩
  have hsampling : SamplingRule (State.resetWith p) := ⟨(by decide : (0 : BitVec 4) ≤ 8), fun hs => by cases hs⟩
  have hclock : ClockOk (State.resetWith p) := ⟨hlegal, hpos, hpos, fun hc => by cases hc⟩
  have htx : TxOk (State.resetWith p) :=
    ⟨hpos, .empty (Nat.zero_lt_of_lt hnTx), fun _ => ⟨rfl, rfl, fun hc => by cases hc⟩, fun _ => rfl, hframe⟩
  have hrx : RxOk (State.resetWith p) := ⟨hpos, .empty (Nat.zero_lt_of_lt hnRx), fun _ => ⟨rfl, rfl, rfl⟩, hsampling⟩
  have hports : PortsOk (State.resetWith p) := ⟨(by decide : (0 : BitVec 3) ≤ 4), rfl, rfl⟩
  exact inv_iff.mpr ⟨hclock, ⟨htx, fun hf => by cases hf⟩, ⟨hrx, fun hs => by cases hs⟩, hports⟩

/-- A reset clock keeps the parameters, the held word and the event port (R240; log 12). -/
theorem inv_resetBlock {s : State} (h : Inv s) : Inv (resetBlock s) := by
  obtain ⟨hclock, -, -, hports⟩ := inv_iff.mp h
  have hreset := resetSatisfiesTheInvariants s.params hclock.legal
  have hports' : PortsOk (resetBlock s) := ⟨(by decide : (0 : BitVec 3) ≤ 4), hports.held, hports.event⟩
  exact inv_congr hreset hports' rfl rfl rfl rfl

/-- Settles O40: fetching, the tick, every host command, a reset clock and what host software does with a response keep each part
of the invariants; no trace asks for an event. -/
theorem everyStepKeepsTheInvariants : Obligations.EveryStepKeepsTheInvariants := by
  intro s t h hstep
  obtain ⟨-, -, -, hports⟩ := inv_iff.mp h
  have hfetch : Inv (fetch s).2 := inv_fetch h
  rcases step_cases hstep with ⟨i, t', job, snap, hi, hx, rfl⟩ | ⟨w, -, rfl⟩ | ⟨-, rfl⟩ | ⟨-, rfl⟩
  · exact inv_setJobSnap job snap (inv_exec (fetch_runsUntraced hports.event hi) hfetch hx)
  · exact inv_raise _ hfetch
  · exact inv_resetBlock hfetch
  · exact hfetch

/-- Settles O5: every row of the reset table holds by definition, for any parameters. -/
theorem resetStateIsTheResetTable : Obligations.ResetStateIsTheResetTable := by
  intro p s
  and_intros <;> rfl

end Sys2Proof.Machine
end

section
/-! PROOFS. The ring buffers as queues of bytes: capacity, a stored byte is the newest, a removed byte the oldest (20_memory R62 to R67, R76). -/

namespace Sys2Proof.Machine

/-- Settles O46: full and empty are read off the number of bytes held, which stays below the number of slots. -/
theorem fifoIsFullExactlyAtCapacity : Obligations.FifoIsFullExactlyAtCapacity := by
  intro q s hn h
  refine ⟨?_, ?_, Nat.le_sub_one_of_lt (fifoCount_lt h)⟩
  · rw [full_iff_contents hn h, length_contents]
  · rw [empty_iff_contents h, ← List.length_eq_zero_iff, length_contents]

theorem full_eq_false_iff {q : FifoId} {s : State} :
    full q s = false ↔ ((fifo s q).head + 1) % slots s q ≠ (fifo s q).tail := beq_eq_false_iff_ne

theorem empty_eq_false_iff {q : FifoId} {s : State} : empty q s = false ↔ (fifo s q).head ≠ (fifo s q).tail :=
  beq_eq_false_iff_ne

/-- FifoPut of a FIFO with room appends its byte (R64). -/
theorem contents_pushed {q : FifoId} {s : State} (b : Byte) (h : IndicesOk q s) (hroom : full q s = false)
    (hwf : Memory.wf (fifo s q).mem = true) :
    contents q (setFifo q ((fifo s q).pushed (slots s q) b) s) = contents q s ++ [b] := by
  rw [contents_eq, contents_eq, slots_setFifo, fifo_setFifo_same]
  exact ringBytes_pushed b h.1 h.2 (full_eq_false_iff.mp hroom) hwf

/-- FifoGet of a FIFO that is not empty removes the oldest byte (R65). -/
theorem contents_popped {q : FifoId} {s : State} (h : IndicesOk q s) (hne : empty q s = false) :
    contents q s = Memory.read (fifo s q).mem (fifo s q).tail ::
      contents q (setFifo q ((fifo s q).popped (slots s q)) s) := by
  rw [contents_eq, contents_eq, slots_setFifo, fifo_setFifo_same]
  exact ringBytes_popped h.1 h.2 (empty_eq_false_iff.mp hne)

/-- Responding and Kick leave the bytes of the TX FIFO as they are (R141). -/
theorem contents_tx_respond_kick (w : Word) (s : State) : contents .tx (respond w (kick s)) = contents .tx s := by
  rw [kick_eq]
  rfl

/-- Settles O47: TXPUT with room is a FifoPut, TX_LOAD of a byte a FifoGet whose byte is framed. -/
theorem txFifoIsAQueue : Obligations.TxFifoIsAQueue := by
  intro s t b _ h hwf
  constructor
  · intro hconf hroom hx
    cases (execTxput_room b hconf hroom h.1).symm.trans hx
    rw [contents_tx_respond_kick]
    exact contents_pushed b h hroom hwf
  · intro hne hx
    cases (txLoad_ok hne h.2).symm.trans (toOutcome_eq_next hx)
    exact ⟨_, contents_popped h hne, buildFrame_shifted _⟩

/-- Settles O48: RX_DONE with room is a FifoPut, without room it leaves the FIFO, and RXGET of a byte is a FifoGet. -/
theorem rxFifoIsAQueue : Obligations.RxFifoIsAQueue := by
  intro s t _ h hwf
  refine ⟨fun hroom hx => ?_, fun hfull hx => ?_, fun hne hx => ?_⟩
  · cases (rxDone_room hroom h.1).symm.trans (toOutcome_eq_next hx)
    exact contents_pushed s.accumulator h hroom hwf
  · cases (rxDone_full hfull).symm.trans (toOutcome_eq_next hx)
    rfl
  · rcases execRxget_cases hx with ⟨he, -⟩ | ⟨-, -, rfl⟩
    · rw [hne] at he
      cases he
    · exact ⟨_, contents_popped h hne, rfl⟩

end Sys2Proof.Machine
end

section
/-! PROOFS. A FIFO index out of range stops the instruction that would reach the absent slot (20_memory R63; log 9). -/

namespace Sys2Proof.Machine

theorem fifoPut_outOfRange {q : FifoId} (b : Byte) {s : State} (hroom : full q s = false)
    (hi : slots s q ≤ (fifo s q).head) : fifoPut q b s = .error (.slotOutOfRange q (fifo s q).head) := by
  simp [fifoPut, hroom, memWrite, Nat.not_lt.mpr hi]

theorem fifoGet_outOfRange {q : FifoId} {s : State} (hne : empty q s = false) (hi : slots s q ≤ (fifo s q).tail) :
    fifoGet q s = .error (.slotOutOfRange q (fifo s q).tail) := by
  simp [fifoGet, hne, memRead, Nat.not_lt.mpr hi]

theorem rxDone_outOfRange {s : State} (hroom : full .rx s = false) (hi : s.params.nRx ≤ s.rxFifo.head) :
    rxDone s = .error (.slotOutOfRange .rx s.rxFifo.head) := by
  simp only [rxDone, fifoPut_outOfRange s.accumulator hroom hi]
  rfl

/-- The eighth sample finishes the byte (R163). -/
theorem rxSample_eighth (l : Bool) {s : State} (h : s.bitsSampled = 7) : rxSample l s = rxDone (sampleBit l s) := by
  simp [rxSample, h]

/-- Settles O21: each of these instructions reaches the absent slot by FifoPut or FifoGet. -/
theorem outOfRangeSlotFaults : Obligations.OutOfRangeSlotFaults := by
  intro s
  refine ⟨fun b hconf hroom hi => ?_, fun hne hi => ?_, fun hne hi => ?_, fun hroom hi => ⟨?_, fun h7 => ?_⟩⟩
  · simp only [exec, execTxput, hconf, hroom, fifoPut_outOfRange b hroom hi]
    rfl
  · simp only [exec, execRxget, fifoGet_outOfRange hne hi]
    rfl
  · simp only [exec, execTxLoad, txLoad, fifoGet_outOfRange hne hi]
    rfl
  · simp only [exec, execRxDone, rxDone_outOfRange hroom hi]
    rfl
  · have hdone : rxDone (sampleBit s.rxIn s) = .error (.slotOutOfRange .rx s.rxFifo.head) :=
      rxDone_outOfRange (s := sampleBit s.rxIn s) hroom hi
    simp only [exec, execRxSample, rxSample_eighth s.rxIn h7, hdone]
    rfl

end Sys2Proof.Machine
end

section
/-! PROOFS. Slots that hold no byte are never observed: every instruction takes two states that are alike but for such slots to two that are (20_memory R81; log 8). -/

namespace Sys2Proof.Machine

/-! ## Ring buffers that hold the same bytes -/

/-- Two canonical ring buffers of `n` slots with the same indices, in range, that hold the same bytes. -/
structure Fifo.Alike (n : Nat) (f g : Fifo) : Prop where
  head_eq : g.head = f.head
  tail_eq : g.tail = f.tail
  bytes_eq : ringBytes n g = ringBytes n f
  head_lt : f.head < n
  tail_lt : f.tail < n
  wf_left : Memory.wf f.mem = true
  wf_right : Memory.wf g.mem = true

/-- The same byte stored in both is the newest of both. -/
theorem Fifo.Alike.pushed {n : Nat} {f g : Fifo} (b : Byte) (h : f.Alike n g) (hroom : (f.head + 1) % n ≠ f.tail) :
    (f.pushed n b).Alike n (g.pushed n b) where
  head_eq := congrArg (fun i => (i + 1) % n) h.head_eq
  tail_eq := h.tail_eq
  bytes_eq := by
    have hg : ringBytes n (g.pushed n b) = ringBytes n g ++ [b] :=
      ringBytes_pushed b (h.head_eq ▸ h.head_lt) (h.tail_eq ▸ h.tail_lt) (by rwa [h.head_eq, h.tail_eq]) h.wf_right
    rw [hg, h.bytes_eq, ringBytes_pushed b h.head_lt h.tail_lt hroom h.wf_left]
  head_lt := Nat.mod_lt _ (Nat.zero_lt_of_lt h.head_lt)
  tail_lt := h.tail_lt
  wf_left := wf_write _ _ h.wf_left
  wf_right := wf_write _ _ h.wf_right

/-- The oldest byte and the rest of the bytes, as both hold them. -/
theorem Fifo.Alike.oldest_and_rest {n : Nat} {f g : Fifo} (h : f.Alike n g) (hne : f.head ≠ f.tail) :
    Memory.read g.mem g.tail = Memory.read f.mem f.tail ∧ ringBytes n (g.popped n) = ringBytes n (f.popped n) := by
  have hf := ringBytes_popped h.head_lt h.tail_lt hne
  have hg : ringBytes n g = Memory.read g.mem g.tail :: ringBytes n (g.popped n) :=
    ringBytes_popped (h.head_eq ▸ h.head_lt) (h.tail_eq ▸ h.tail_lt) (by rwa [h.head_eq, h.tail_eq])
  rw [← h.bytes_eq, hg] at hf
  exact List.cons.inj hf

theorem Fifo.Alike.popped {n : Nat} {f g : Fifo} (h : f.Alike n g) (hne : f.head ≠ f.tail) :
    (f.popped n).Alike n (g.popped n) where
  head_eq := h.head_eq
  tail_eq := congrArg (fun i => (i + 1) % n) h.tail_eq
  bytes_eq := (h.oldest_and_rest hne).2
  head_lt := h.head_lt
  tail_lt := Nat.mod_lt _ (Nat.zero_lt_of_lt h.tail_lt)
  wf_left := h.wf_left
  wf_right := h.wf_right

/-! ## States that hold the same bytes -/

/-- A state with both ring buffers replaced. -/
def withFifos (f g : Fifo) (s : State) : State := { s with txFifo := f, rxFifo := g }

@[simp] theorem withFifos_txFifo (f g : Fifo) (s : State) : (withFifos f g s).txFifo = f := rfl
@[simp] theorem withFifos_rxFifo (f g : Fifo) (s : State) : (withFifos f g s).rxFifo = g := rfl

/-- Two states that differ in their ring buffers only, which hold the same bytes. -/
structure Alike (s t : State) : Prop where
  rest : t = withFifos t.txFifo t.rxFifo s
  tx : s.txFifo.Alike s.params.nTx t.txFifo
  rx : s.rxFifo.Alike s.params.nRx t.rxFifo

/-- States with the same contents (R81) are alike where indices are in range and storage is canonical. -/
theorem Alike.of_sameContents {s t : State} (h : SameContents s t) (htx : IndicesOk .tx s) (hrx : IndicesOk .rx s)
    (hs : Canonical s) (ht : Canonical t) : Alike s t := by
  obtain ⟨herase, hctx, hcrx⟩ := h
  have hrest : t = withFifos t.txFifo t.rxFifo s :=
    calc t = withFifos t.txFifo t.rxFifo (eraseStorage t) := rfl
      _ = withFifos t.txFifo t.rxFifo (eraseStorage s) := by rw [herase]
      _ = withFifos t.txFifo t.rxFifo s := rfl
  have hparams : s.params = t.params := (congrArg State.params herase :)
  rw [contents_eq .tx t, slots, ← hparams] at hctx
  rw [contents_eq .rx t, slots, ← hparams] at hcrx
  refine ⟨hrest, ⟨?_, ?_, hctx.symm, htx.1, htx.2, hs.1, ht.1⟩, ⟨?_, ?_, hcrx.symm, hrx.1, hrx.2, hs.2, ht.2⟩⟩
  · exact (congrArg (fun u => u.txFifo.head) herase).symm
  · exact (congrArg (fun u => u.txFifo.tail) herase).symm
  · exact (congrArg (fun u => u.rxFifo.head) herase).symm
  · exact (congrArg (fun u => u.rxFifo.tail) herase).symm

/-- What reads no ring buffer reads the same in alike states. -/
theorem Alike.read_eq {α : Type} {s t : State} (h : Alike s t) {F : State → α}
    (hF : ∀ f g, F (withFifos f g s) = F s) : F t = F s := (congrArg F h.rest).trans (hF _ _)

/-- An update that neither reads nor writes a ring buffer keeps states alike. -/
theorem Alike.map {s t : State} (h : Alike s t) {F : State → State}
    (hF : ∀ f g, F (withFifos f g s) = withFifos f g (F s)) (hparams : (F s).params = s.params) :
    Alike (F s) (F t) := by
  have hs : F s = withFifos s.txFifo s.rxFifo (F s) := hF s.txFifo s.rxFifo
  have ht : F t = withFifos t.txFifo t.rxFifo (F s) := (congrArg F h.rest).trans (hF _ _)
  have hsTx : (F s).txFifo = s.txFifo := (congrArg State.txFifo hs).trans (withFifos_txFifo _ _ _)
  have hsRx : (F s).rxFifo = s.rxFifo := (congrArg State.rxFifo hs).trans (withFifos_rxFifo _ _ _)
  have htTx : (F t).txFifo = t.txFifo := (congrArg State.txFifo ht).trans (withFifos_txFifo _ _ _)
  have htRx : (F t).rxFifo = t.rxFifo := (congrArg State.rxFifo ht).trans (withFifos_rxFifo _ _ _)
  constructor
  · rw [htTx, htRx]
    exact ht
  · rw [hsTx, htTx, hparams]
    exact h.tx
  · rw [hsRx, htRx, hparams]
    exact h.rx

section
variable {s t : State}

/-! ## What alike states agree on -/

theorem Alike.fifo (h : Alike s t) : ∀ q, (fifo s q).Alike (slots s q) (fifo t q)
  | .tx => h.tx
  | .rx => h.rx

theorem Alike.slots_eq (h : Alike s t) (q : FifoId) : slots t q = slots s q :=
  h.read_eq (F := fun u => slots u q) fun _ _ => by cases q <;> rfl

theorem Alike.full_eq (h : Alike s t) (q : FifoId) : full q t = full q s := by
  rw [full, full, h.slots_eq, (h.fifo q).head_eq, (h.fifo q).tail_eq]

theorem Alike.empty_eq (h : Alike s t) (q : FifoId) : empty q t = empty q s := by
  rw [empty, empty, (h.fifo q).head_eq, (h.fifo q).tail_eq]

theorem Alike.fifoCount_eq (h : Alike s t) (q : FifoId) : fifoCount q t = fifoCount q s := by
  rw [fifoCount, fifoCount, h.slots_eq, (h.fifo q).head_eq, (h.fifo q).tail_eq]

theorem Alike.configured_eq (h : Alike s t) : t.configured = s.configured := h.read_eq fun _ _ => rfl

theorem Alike.params_eq (h : Alike s t) : t.params = s.params := h.read_eq fun _ _ => rfl

theorem Alike.rxIn_eq (h : Alike s t) : t.rxIn = s.rxIn := h.read_eq fun _ _ => rfl

theorem Alike.bitsRemaining_eq (h : Alike s t) : t.bitsRemaining = s.bitsRemaining := h.read_eq fun _ _ => rfl

/-- Alike states have the same contents. -/
theorem Alike.sameContents (h : Alike s t) : SameContents s t := by
  refine ⟨?_, ?_, ?_⟩
  · rw [h.rest, eraseStorage, eraseStorage]
    simp only [withFifos, h.tx.head_eq, h.tx.tail_eq, h.rx.head_eq, h.rx.tail_eq]
  · rw [contents_eq, contents_eq, slots, slots, h.params_eq]
    exact h.tx.bytes_eq.symm
  · rw [contents_eq, contents_eq, slots, slots, h.params_eq]
    exact h.rx.bytes_eq.symm

/-- The status word (R188) shows of the ring buffers whether they are full or empty. -/
theorem Alike.status_eq (h : Alike s t) : status t = status s := by
  rw [status, h.full_eq, h.empty_eq, h.rest]
  rfl

/-! ## The ring-buffer primitives -/

theorem Alike.setFifo (h : Alike s t) {f g : Fifo} : ∀ {q : FifoId}, f.Alike (slots s q) g →
    Alike (setFifo q f s) (setFifo q g t)
  | .tx, hf => ⟨congrArg (Machine.setFifo .tx g) h.rest, hf, h.rx⟩
  | .rx, hf => ⟨congrArg (Machine.setFifo .rx g) h.rest, h.tx, hf⟩

/-- FifoPut answers in both of two alike states, with the same flag, and leaves them alike (R64). -/
theorem Alike.fifoPut (h : Alike s t) (q : FifoId) (b : Byte) :
    ∃ stored s' t', fifoPut q b s = .ok (stored, s') ∧ fifoPut q b t = .ok (stored, t') ∧ Alike s' t' := by
  have hq := h.fifo q
  cases hf : full q s with
  | true => exact ⟨false, s, t, fifoPut_full b hf, fifoPut_full b ((h.full_eq q).trans hf), h⟩
  | false =>
    have hi : (Machine.fifo t q).head < slots t q := by rw [hq.head_eq, h.slots_eq]; exact hq.head_lt
    refine ⟨true, _, _, fifoPut_room b hf hq.head_lt, fifoPut_room b ((h.full_eq q).trans hf) hi, ?_⟩
    rw [h.slots_eq]
    exact h.setFifo (hq.pushed b (full_eq_false_iff.mp hf))

/-- FifoGet answers in both of two alike states, with the same flag and byte, and leaves them alike (R65). -/
theorem Alike.fifoGet (h : Alike s t) (q : FifoId) :
    ∃ valid b s' t', fifoGet q s = .ok (valid, b, s') ∧ fifoGet q t = .ok (valid, b, t') ∧ Alike s' t' := by
  have hq := h.fifo q
  cases he : empty q s with
  | true => exact ⟨false, 0, s, t, fifoGet_empty he, fifoGet_empty ((h.empty_eq q).trans he), h⟩
  | false =>
    have hne := empty_eq_false_iff.mp he
    have hi : (Machine.fifo t q).tail < slots t q := by rw [hq.tail_eq, h.slots_eq]; exact hq.tail_lt
    have ht := fifoGet_some ((h.empty_eq q).trans he) hi
    rw [h.slots_eq, (hq.oldest_and_rest hne).1] at ht
    exact ⟨true, _, _, _, fifoGet_some he hq.tail_lt, ht, h.setFifo (hq.popped hne)⟩

/-! ## The engines -/

/-- Two operations that answer with alike states. -/
def AlikeResults (d e : Except Fault State) : Prop := ∃ s t, d = .ok s ∧ e = .ok t ∧ Alike s t

/-- Two outcomes that are alike next states. -/
def AlikeOutcomes (o p : Host.Outcome State Fault Refusal) : Prop := ∃ s t, o = .next s ∧ p = .next t ∧ Alike s t

theorem Alike.ok (h : Alike s t) : AlikeResults (.ok s) (.ok t) := ⟨s, t, rfl, rfl, h⟩

theorem Alike.next (h : Alike s t) : AlikeOutcomes (.next s) (.next t) := ⟨s, t, rfl, rfl, h⟩

theorem AlikeResults.toOutcome {d e : Except Fault State} (h : AlikeResults d e) :
    AlikeOutcomes (toOutcome d) (toOutcome e) := by
  obtain ⟨s, t, rfl, rfl, h⟩ := h
  exact h.next

theorem Alike.rxDone (h : Alike s t) : AlikeResults (rxDone s) (rxDone t) := by
  obtain ⟨stored, s', t', hs, ht, h'⟩ := h.fifoPut .rx s.accumulator
  have hacc : t.accumulator = s.accumulator := h.read_eq fun _ _ => rfl
  simp only [Machine.rxDone, hacc, hs, ht]
  exact (h'.map (F := endByte stored) (fun _ _ => rfl) rfl).ok

theorem Alike.rxSample (h : Alike s t) (l : Bool) : AlikeResults (rxSample l s) (rxSample l t) := by
  have h' : Alike (sampleBit l s) (sampleBit l t) := h.map (fun _ _ => rfl) rfl
  have hbits : (sampleBit l t).bitsSampled = (sampleBit l s).bitsSampled := h'.read_eq fun _ _ => rfl
  unfold Machine.rxSample
  rw [hbits]
  split
  · exact h'.rxDone
  · exact h'.ok

theorem Alike.rxPart (h : Alike s t) (l : Bool) : AlikeResults (rxPart l s) (rxPart l t) := by
  have hedge : edgeTaken t = edgeTaken s := h.read_eq fun _ _ => rfl
  have hmatch : rxMatch t = rxMatch s := h.read_eq fun _ _ => rfl
  unfold Machine.rxPart
  rw [hedge, hmatch]
  split
  · exact (h.map (F := rxEdge) (fun _ _ => rfl) rfl).ok
  · split
    · exact h.rxSample l
    · exact h.ok

theorem Alike.txLoad (h : Alike s t) : AlikeResults (txLoad s) (txLoad t) := by
  obtain ⟨valid, b, s', t', hs, ht, h'⟩ := h.fifoGet .tx
  simp only [Machine.txLoad, hs, ht]
  exact (h'.map (F := startFrame b) (fun _ _ => rfl) rfl).ok

theorem Alike.txEvent (h : Alike s t) : AlikeResults (txEvent s) (txEvent t) := by
  unfold Machine.txEvent
  rw [h.bitsRemaining_eq, h.empty_eq]
  split
  · exact (h.map (F := txShift) (fun _ _ => rfl) rfl).ok
  · split
    · exact (h.map (F := txIdle) (fun _ _ => rfl) rfl).ok
    · exact h.txLoad

theorem Alike.txPart (h : Alike s t) : AlikeResults (txPart s) (txPart t) := by
  have hmatch : txMatch t = txMatch s := h.read_eq fun _ _ => rfl
  unfold Machine.txPart
  rw [hmatch]
  split
  · exact h.txEvent
  · exact h.ok

theorem Alike.tick (h : Alike s t) (l : Bool) : AlikeResults (tick l s) (tick l t) := by
  have h' : Alike (edgeLatch l (advanceTimer s)) (edgeLatch l (advanceTimer t)) :=
    h.map (F := fun u => edgeLatch l (advanceTimer u)) (fun _ _ => rfl) rfl
  obtain ⟨u, v, hu, hv, huv⟩ := h'.rxPart l
  simp only [Machine.tick, hu, hv]
  exact huv.txPart

theorem Alike.execRxSample (h : Alike s t) : AlikeOutcomes (execRxSample s) (execRxSample t) := by
  rw [Machine.execRxSample, Machine.execRxSample, h.rxIn_eq]
  exact (h.rxSample s.rxIn).toOutcome

theorem Alike.execTick (h : Alike s t) : AlikeOutcomes (execTick s) (execTick t) := by
  rw [Machine.execTick, Machine.execTick, h.rxIn_eq]
  exact (h.tick s.rxIn).toOutcome

theorem Alike.kick (h : Alike s t) : Alike (kick s) (kick t) :=
  h.map (fun f g => by rw [kick_eq, kick_eq]; rfl) (kick_params s)

/-! ## The host port -/

theorem Alike.respond (h : Alike s t) (w : Word) : Alike (respond w s) (respond w t) := h.map (fun _ _ => rfl) rfl

theorem Alike.raise (h : Alike s t) (r : Raised) : Alike (raise r s) (raise r t) := h.map (fun _ _ => rfl) rfl

theorem Alike.execConfig (h : Alike s t) (baud : Word) : AlikeOutcomes (execConfig baud s) (execConfig baud t) := by
  unfold Machine.execConfig
  rw [h.configured_eq, h.params_eq]
  split
  · exact (h.raise _).next
  · split
    · exact (h.raise _).next
    · exact (h.map (F := fun u => Machine.respond 0 (configure baud u)) (fun _ _ => rfl) rfl).next

theorem Alike.execTxput (h : Alike s t) (b : Byte) : AlikeOutcomes (execTxput b s) (execTxput b t) := by
  obtain ⟨stored, s', t', hs, ht, h'⟩ := h.fifoPut .tx b
  simp only [Machine.execTxput, h.configured_eq, h.full_eq, hs, ht]
  split
  · exact (h.raise _).next
  · split
    · exact (h.map (F := hold (txputWord b)) (fun _ _ => rfl) rfl).next
    · exact (h'.kick.respond 0).next

theorem Alike.execRxget (h : Alike s t) : AlikeOutcomes (execRxget s) (execRxget t) := by
  obtain ⟨valid, b, s', t', hs, ht, h'⟩ := h.fifoGet .rx
  simp only [Machine.execRxget, hs, ht]
  exact (h'.respond _).next

theorem Alike.execRxcount (h : Alike s t) : AlikeOutcomes (execRxcount s) (execRxcount t) := by
  rw [Machine.execRxcount, Machine.execRxcount, h.fifoCount_eq]
  exact (h.respond _).next

theorem Alike.execRdstat (h : Alike s t) : AlikeOutcomes (execRdstat s) (execRdstat t) := by
  rw [Machine.execRdstat, Machine.execRdstat, h.status_eq]
  exact (h.respond _).next

/-- Every instruction takes alike states to alike states (R81). -/
theorem Alike.exec (h : Alike s t) (i : Instr) : AlikeOutcomes (exec i s) (exec i t) := by
  cases i with
  | config baud => exact h.execConfig baud
  | txput b => exact h.execTxput b
  | rxget => exact h.execRxget
  | rxcount => exact h.execRxcount
  | rdstat => exact h.execRdstat
  | tick => exact h.execTick
  | txLoad => exact h.txLoad.toOutcome
  | rxSample => exact h.execRxSample
  | rxDone => exact h.rxDone.toOutcome
  | kick => exact h.kick.next
  | edgeLatch => exact (h.map (F := fun u => edgeLatch u.rxIn u) (fun _ _ => rfl) rfl).next
  | rdcntTx => exact (h.map (F := fun u => Machine.respond u.txCount u) (fun _ _ => rfl) rfl).next
  | rdcntRx => exact (h.map (F := fun u => Machine.respond u.rxCount u) (fun _ _ => rfl) rfl).next
  | rdcntEdge => exact (h.map (F := fun u => Machine.respond u.edgeCount u) (fun _ _ => rfl) rfl).next
  | clrcnt => exact (h.map (F := fun u => Machine.respond 0 (clearCounters u)) (fun _ _ => rfl) rfl).next
  | txShift => exact (h.map (F := txShift) (fun _ _ => rfl) rfl).next
  | txIdle => exact (h.map (F := txIdle) (fun _ _ => rfl) rfl).next
  | rxEdge => exact (h.map (F := rxEdge) (fun _ _ => rfl) rfl).next

end

/-- Settles O49: states with the same contents are alike, and every instruction takes alike states to alike states. -/
theorem unheldSlotsAreNeverObserved : Obligations.UnheldSlotsAreNeverObserved := by
  intro i s t s' _ _ htx hrx hsTx hsRx htTx htRx h hx
  obtain ⟨u, t', hu, ht', h'⟩ := (Alike.of_sameContents h htx hrx ⟨hsTx, hsRx⟩ ⟨htTx, htRx⟩).exec i
  cases hu.symm.trans hx
  exact ⟨t', ht', h'.sameContents⟩

end Sys2Proof.Machine
end

section
/-! PROOFS. The encoding: decoding and encoding are inverse, and the opcode map (30_encoding R90 to R98). -/

namespace Sys2Proof

/-! ## What the encoder writes decodes back -/

/-- The 24 bits of `ARG` hold an operand below `2^24` (R92). -/
theorem setWidth_extractLsb'_of_lt {baud : Word} (h : baud.toNat < 2 ^ 24) :
    (baud.extractLsb' 0 24).setWidth 32 = baud := by
  apply BitVec.eq_of_toNat_eq
  simp only [BitVec.toNat_setWidth, BitVec.extractLsb'_toNat, Nat.shiftRight_zero]
  omega

/-- `OP` 1 with `SEL` 0 is a CONFIG of `ARG` (R91, R93). -/
@[simp] theorem decodeCmd_packCmd_config (arg : BitVec 24) :
    decodeCmd (packCmd 0x1 0 arg) = .ok (.config (arg.zeroExtend 32)) := by
  simp [decodeCmd, decodeConfig]

/-- Settles O1: by cases on the instruction; only CONFIG needs its operand's range. -/
theorem decodeOfEncodeIsTheInstruction : Obligations.DecodeOfEncodeIsTheInstruction := by
  intro i hwf
  cases i with
  | config baud =>
    have hbaud : (baud.extractLsb' 0 24).zeroExtend 32 = baud := setWidth_extractLsb'_of_lt (of_decide_eq_true hwf)
    simp only [encode, decode, decodeCmd_packCmd_config, hbaud]
  | txput b => exact decodeCmd_txputWord b
  | rxget | rxcount | rdcntTx | rdcntRx | rdcntEdge | clrcnt | rdstat => decide
  | tick | txShift | txLoad | txIdle | rxEdge | rxSample | rxDone | kick | edgeLatch => rfl

/-! ## What decodes was written by the encoder -/

/-- A word is fixed by its three fields (R90). -/
theorem packCmd_eq {w : Word} {op sel : BitVec 4} {arg : BitVec 24} (hop : opField w = op) (hsel : selField w = sel)
    (harg : argField w = arg) : packCmd op sel arg = w := by
  rw [← hop, ← hsel, ← harg, packCmd_fields]

/-- A CONFIG of 24 bits is well-formed and writes them as `ARG` (R92, R93). -/
theorem encode_config_zeroExtend (arg : BitVec 24) :
    (Instr.config (arg.zeroExtend 32)).wellFormed = true ∧
      encode (.config (arg.zeroExtend 32)) = .cmd (packCmd 0x1 0 arg) := by
  have hlt : (arg.zeroExtend 32).toNat < 2 ^ 24 := by bv_omega
  have harg : (arg.zeroExtend 32).extractLsb' 0 24 = arg :=
    (BitVec.extractLsb'_setWidth_of_le (by decide)).trans BitVec.extractLsb'_eq_self
  exact ⟨decide_eq_true hlt, by rw [encode, harg]⟩

/-- CONFIG decodes from `SEL` 0 only, and `ARG` is its operand (R91, R92). -/
theorem decodeConfig_cases {w : Word} {i : Instr} (h : decodeConfig w = .ok i) :
    selField w = 0 ∧ i = .config ((argField w).zeroExtend 32) := by
  unfold decodeConfig at h
  split_ifs at h with hsel
  cases h
  exact ⟨not_not.mp hsel, rfl⟩

/-- What `OP` 2 decodes to is a TXPUT (R93). -/
theorem decodeTxput_cases {w : Word} {i : Instr} (h : decodeTxput w = .ok i) : ∃ b, i = .txput b := by
  unfold decodeTxput at h
  split_ifs at h
  cases h
  exact ⟨_, rfl⟩

/-- A command with no operand decodes from `SEL` 0 and `ARG` 0 only (R91). -/
theorem decodePlain_cases {w : Word} {i j : Instr} (h : decodePlain w j = .ok i) :
    selField w = 0 ∧ argField w = 0 ∧ i = j := by
  unfold decodePlain at h
  split_ifs at h with hsel harg
  cases h
  exact ⟨not_not.mp hsel, not_not.mp harg, rfl⟩

/-- RDCNT decodes from `ARG` 0 only, and `SEL` names its counter (R91, R92). -/
theorem decodeRdcnt_cases {w : Word} {i : Instr} (h : decodeRdcnt w = .ok i) :
    argField w = 0 ∧
      (selField w = 0 ∧ i = .rdcntTx ∨ selField w = 1 ∧ i = .rdcntRx ∨ selField w = 2 ∧ i = .rdcntEdge) := by
  unfold decodeRdcnt at h
  split_ifs at h with hsel harg h0 h1
  all_goals
    cases h
    refine ⟨not_not.mp harg, ?_⟩
  · exact .inl ⟨h0, rfl⟩
  · exact .inr (.inl ⟨h1, rfl⟩)
  · have h2 : selField w = 2 := by bv_omega
    exact .inr (.inr ⟨h2, rfl⟩)

/-- The word of a command with no operand is `OP` with every other bit 0 (R91, R93). -/
theorem encode_of_decodePlain {w : Word} {op : BitVec 4} {i j : Instr} (hop : opField w = op)
    (hwf : j.wellFormed = true) (hj : encode j = .cmd (packCmd op 0 0)) (h : decodePlain w j = .ok i) :
    i.wellFormed = true ∧ encode i = .cmd w := by
  obtain ⟨hsel, harg, rfl⟩ := decodePlain_cases h
  exact ⟨hwf, hj.trans (congrArg Code.cmd (packCmd_eq hop hsel harg))⟩

/-- What a word decodes to is well-formed and encodes to that word (R93). -/
theorem encode_of_decodeCmd {w : Word} {i : Instr} (h : decodeCmd w = .ok i) :
    i.wellFormed = true ∧ encode i = .cmd w := by
  have hw := h
  unfold decodeCmd at h
  split_ifs at h with h1 h2 h3 h4 h5 h6 h7
  · obtain ⟨hsel, rfl⟩ := decodeConfig_cases h
    obtain ⟨hwf, he⟩ := encode_config_zeroExtend (argField w)
    exact ⟨hwf, he.trans (congrArg Code.cmd (packCmd_eq h1 hsel rfl))⟩
  · obtain ⟨b, rfl⟩ := decodeTxput_cases h
    exact ⟨rfl, congrArg Code.cmd (eq_txputWord_of_decodeCmd hw).symm⟩
  · exact encode_of_decodePlain h3 rfl rfl h
  · exact encode_of_decodePlain h4 rfl rfl h
  · obtain ⟨harg, ⟨hsel, rfl⟩ | ⟨hsel, rfl⟩ | ⟨hsel, rfl⟩⟩ := decodeRdcnt_cases h
    all_goals exact ⟨rfl, congrArg Code.cmd (packCmd_eq h5 hsel harg)⟩
  · exact encode_of_decodePlain h6 rfl rfl h
  · exact encode_of_decodePlain h7 rfl rfl h

/-- What an identifier names is well-formed and encodes to that identifier (R98). -/
theorem encode_of_decodeEvt {id : EventId} {i : Instr} (h : decodeEvt id = .ok i) :
    i.wellFormed = true ∧ encode i = .evt id := by
  unfold decodeEvt at h
  split_ifs at h with h0 h1 h2 h3 h4 h5 h6 h7 h8
  all_goals
    cases h
    subst id
    exact ⟨rfl, rfl⟩

/-- Settles O2: one lemma for each format. -/
theorem encodeOfDecodeIsTheCode : Obligations.EncodeOfDecodeIsTheCode := by
  intro c i h
  cases c with
  | cmd w => exact encode_of_decodeCmd h
  | evt id => exact encode_of_decodeEvt h

/-! ## The opcode map -/

theorem selects_iff {r : CmdRow} {w : Word} : r.selects w = true ↔ w &&& r.mask = r.pattern := beq_iff_eq

/-- Masks compare a word field by field (R91, R93). -/
theorem and_eq_iff_fields {w mask pattern : Word} :
    w &&& mask = pattern ↔
      opField w &&& opField mask = opField pattern ∧ selField w &&& selField mask = selField pattern ∧
        argField w &&& argField mask = argField pattern := by
  have hop : opField (w &&& mask) = opField w &&& opField mask := BitVec.extractLsb'_and
  have hsel : selField (w &&& mask) = selField w &&& selField mask := BitVec.extractLsb'_and
  have harg : argField (w &&& mask) = argField w &&& argField mask := BitVec.extractLsb'_and
  rw [← hop, ← hsel, ← harg]
  constructor
  · rintro rfl
    exact ⟨rfl, rfl, rfl⟩
  · rintro ⟨h1, h2, h3⟩
    exact (packCmd_eq h1 h2 h3).symm.trans (packCmd_fields pattern)

/-- CONFIG's row fixes `OP` and `SEL` and leaves `ARG` open (R93). -/
theorem configRow_iff {w : Word} : w &&& 0xFF000000 = 0x10000000 ↔ opField w = 1 ∧ selField w = 0 := by
  rw [and_eq_iff_fields]
  change opField w &&& BitVec.allOnes 4 = 1 ∧ selField w &&& BitVec.allOnes 4 = 0 ∧ argField w &&& 0#24 = 0#24 ↔ _
  simp only [BitVec.and_allOnes, BitVec.and_zero, and_true]

/-- Only the low `n` bits of a vector are set exactly when it is `n` bits widened. -/
theorem and_allOnes_shiftLeft_eq_zero_iff {w n : Nat} {x : BitVec w} :
    x &&& (BitVec.allOnes w <<< n) = 0#w ↔ ∃ b : BitVec n, b.setWidth w = x := by
  constructor
  · intro h
    refine ⟨x.setWidth n, BitVec.eq_of_getElem_eq fun k hk => ?_⟩
    have hbit : (x &&& (BitVec.allOnes w <<< n))[k] = (0#w)[k] := by rw [h]
    grind
  · rintro ⟨b, rfl⟩
    refine BitVec.eq_of_getElem_eq fun k hk => ?_
    grind

/-- TXPUT's row leaves the byte open and fixes every other bit (R93). -/
theorem txputRow_iff {w : Word} : w &&& 0xFFFFFF00 = 0x20000000 ↔ ∃ b, txputWord b = w := by
  rw [and_eq_iff_fields]
  change opField w &&& BitVec.allOnes 4 = 2 ∧ selField w &&& BitVec.allOnes 4 = 0 ∧
    argField w &&& (BitVec.allOnes 24 <<< 8) = 0#24 ↔ _
  rw [and_allOnes_shiftLeft_eq_zero_iff, BitVec.and_allOnes, BitVec.and_allOnes]
  constructor
  · rintro ⟨hop, hsel, b, hb⟩
    exact ⟨b, packCmd_eq hop hsel hb.symm⟩
  · rintro ⟨b, rfl⟩
    exact ⟨opField_packCmd _ _ _, selField_packCmd _ _ _, b, (argField_packCmd _ _ _).symm⟩

/-- The row that selects a word decodes it (R93). -/
theorem decodeCmd_of_selects {w : Word} {r : CmdRow} (hr : r ∈ cmdRows) (h : r.selects w = true) :
    ∃ i, decodeCmd w = .ok i ∧ mnemonic i = r.mnemonic := by
  rw [selects_iff] at h
  simp only [cmdRows, List.mem_cons, List.not_mem_nil, or_false] at hr
  rcases hr with rfl | rfl | rfl | rfl | rfl | rfl | rfl | rfl | rfl
  · obtain ⟨hop, hsel⟩ := configRow_iff.mp h
    exact ⟨_, packCmd_eq hop hsel rfl ▸ decodeCmd_packCmd_config _, rfl⟩
  · obtain ⟨b, rfl⟩ := txputRow_iff.mp h
    exact ⟨_, decodeCmd_txputWord b, rfl⟩
  all_goals
    have hw := (BitVec.and_allOnes (x := w)).symm.trans h
    subst hw
    exact ⟨_, rfl, rfl⟩

/-- The word of a command is selected by a row, which has its mnemonic (R93). -/
theorem selects_of_encode {w : Word} {i : Instr} (h : encode i = .cmd w) :
    ∃ r ∈ cmdRows, r.selects w = true ∧ mnemonic i = r.mnemonic := by
  cases i with
  | config baud =>
    cases h
    refine ⟨⟨"CONFIG", 0x10000000, 0xFF000000⟩, by decide, selects_iff.mpr (configRow_iff.mpr ?_), rfl⟩
    exact ⟨opField_packCmd _ _ _, selField_packCmd _ _ _⟩
  | txput b =>
    cases h
    exact ⟨⟨"TXPUT", 0x20000000, 0xFFFFFF00⟩, by decide, selects_iff.mpr (txputRow_iff.mpr ⟨b, rfl⟩), rfl⟩
  | rxget | rxcount | rdcntTx | rdcntRx | rdcntEdge | clrcnt | rdstat => cases h; decide
  | tick | txShift | txLoad | txIdle | rxEdge | rxSample | rxDone | kick | edgeLatch => cases h

/-- No two rows have the same mnemonic. -/
theorem eq_of_mnemonic_eq {r r' : CmdRow} (hr : r ∈ cmdRows) (hr' : r' ∈ cmdRows) (h : r.mnemonic = r'.mnemonic) :
    r = r' := by
  have hrows : ∀ a ∈ cmdRows, ∀ b ∈ cmdRows, a.mnemonic = b.mnemonic → a = b := by decide
  exact hrows r hr r' hr' h

/-- Settles O3: a row decodes the words it selects, the encoding of a command is selected by its row, and a word decodes to
one command, so only one row selects it. -/
theorem wordDecodesByTheRowThatSelectsIt : Obligations.WordDecodesByTheRowThatSelectsIt := by
  refine ⟨fun w r hr h => decodeCmd_of_selects hr h, fun w i h => ?_, fun w r r' hr hr' h h' => ?_⟩
  · obtain ⟨-, he⟩ := encode_of_decodeCmd h
    exact selects_of_encode he
  · obtain ⟨i, hi, hm⟩ := decodeCmd_of_selects hr h
    obtain ⟨i', hi', hm'⟩ := decodeCmd_of_selects hr' h'
    cases hi.symm.trans hi'
    exact eq_of_mnemonic_eq hr hr' (hm.symm.trans hm')

/-! ## Sample words -/

/-- Settles O4: the decoder evaluated on each word. -/
theorem sampleWordsDecodeAsTheSpecSays : Obligations.SampleWordsDecodeAsTheSpecSays := by
  unfold Obligations.SampleWordsDecodeAsTheSpecSays
  decide

/-! ## Reserved opcodes -/

/-- A word whose `OP` is 0 or 8 to 15 is of no row (R94, R95). -/
theorem decodeCmd_reservedOp {w : Word} (h : opField w = 0 ∨ 8 ≤ opField w) :
    decodeCmd w = .error (.reservedOp (opField w)) := by
  have hne : ∀ op : BitVec 4, op = 0 ∨ 8 ≤ op → op ≠ 1 ∧ op ≠ 2 ∧ op ≠ 3 ∧ op ≠ 4 ∧ op ≠ 5 ∧ op ≠ 6 ∧ op ≠ 7 := by
    decide
  obtain ⟨h1, h2, h3, h4, h5, h6, h7⟩ := hne (opField w) h
  simp only [decodeCmd, h1, h2, h3, h4, h5, h6, h7, if_false]

end Sys2Proof
end

section
/-! PROOFS. Steps of an illegal word, of a `WAIT`, and of an event a trace names (30_encoding R94, R98, R100). -/

namespace Sys2Proof.Machine

/-! ## Illegal words -/

/-- A word of no row is accepted by raising IllegalCommand (R94). -/
theorem accept_illegal {w : Word} {e : DecodeError} (h : decodeCmd w = .error e) (s : State) :
    accept w s = .next (raise (.illegalCommand w) s) := by
  simp only [accept, h]

/-- A step that takes a scripted word decodes and accepts it (R96, R100). -/
theorem step_cmd {s : State} {w : Word} {rest : List Item} (hev : s.env.event = none) (hheld : s.held = none)
    (hjob : s.env.job = none) (hagenda : s.env.agenda = .cmd w :: rest) :
    step s = accept w (setHost true none (setAgenda rest (clearPorts s))) := by
  rw [step, fetch_cmd hev hheld hjob hagenda, perform_offer]

/-- Settles O8: a scripted word is accepted, and one of no row only raises; `OP` 0 and 8 to 15 are of no row. -/
theorem illegalWordIsAcceptedAndFaults : Obligations.IllegalWordIsAcceptedAndFaults := by
  refine ⟨fun s w rest e hev hheld hjob hagenda he => ?_, fun w hop => ⟨_, decodeCmd_reservedOp hop⟩⟩
  rw [step_cmd hev hheld hjob hagenda, accept_illegal he]
  simp only [raise, setHost, setAgenda, clearPorts, faultCode, hjob]

/-! ## The level of a tick, and WAIT -/

/-- A state with a level on `rx_in`, and what the Line agent keeps: all that supplying a level changes. -/
def withLevel (level : Bool) (m : LineMode) (draws : Nat) (s : State) : State :=
  { s with rxIn := level, env := { s.env with line := m, draws := draws } }

/-- `LINE IDLE` supplies 1 (R100). -/
theorem supplyLevel_idle {s : State} (h : s.env.line = .idle) :
    supplyLevel s = withLevel true .idle s.env.draws s := by
  simp only [supplyLevel, h]
  rw [← h]
  rfl

/-- `LINE LOOPBACK` supplies the level of the wire (R100, D29). -/
theorem supplyLevel_loopback {s : State} (h : s.env.line = .loopback) :
    supplyLevel s = withLevel (loopLevel s) .loopback s.env.draws s := by
  simp only [supplyLevel, h]
  rw [← h]
  rfl

/-- A level sequence supplies its first level and keeps the rest (R100). -/
theorem supplyLevel_levels_cons {s : State} {l : Bool} {ls : List Bool} {o : Option Bool}
    (h : s.env.line = .levels (l :: ls) o) : supplyLevel s = withLevel l (.levels ls o) s.env.draws s := by
  simp only [supplyLevel, h]
  rfl

/-- A level sequence that goes on supplies its last level (R100). -/
theorem supplyLevel_levels_goesOn {s : State} {l : Bool} (h : s.env.line = .levels [] (some l)) :
    supplyLevel s = withLevel l (.levels [] (some l)) s.env.draws s := by
  simp only [supplyLevel, h]
  rw [← h]
  rfl

/-- Where nothing is said of the line the level is the free value at the counter, which moves on (R8). -/
theorem supplyLevel_free {s : State} (h : s.env.line = .free) :
    supplyLevel s = withLevel (Config.freeLevel s.env.draws) .free (s.env.draws + 1) s := by
  simp only [supplyLevel, h]
  rw [← h]
  rfl

/-- A level sequence that has ended and does not go on leaves the level free (R100). -/
theorem supplyLevel_levels_nil {s : State} (h : s.env.line = .levels [] none) :
    supplyLevel s = withLevel (Config.freeLevel s.env.draws) (.levels [] none) (s.env.draws + 1) s := by
  simp only [supplyLevel, h]
  rw [← h]
  rfl

/-- A step of a `WAIT` is a tick with the level the Line agent supplies (R100). -/
theorem step_wait {s : State} {n : Nat} {rest : List Item} (hev : s.env.event = none) (hheld : s.held = none)
    (hjob : s.env.job = none) (hagenda : s.env.agenda = .wait (n + 1) :: rest) :
    step s = exec .tick (supplyLevel (setAgenda (.wait n :: rest) (clearPorts s))) := by
  rw [step, fetch_wait hev hheld hjob hagenda, perform_tickTurn]
  exact congrArg (fun job => hear job _) hjob

/-- Settles O35: a step of a `WAIT` is a tick, and each mode of the line has its level. -/
theorem stepOfAWaitRunsATick : Obligations.StepOfAWaitRunsATick := by
  intro s n rest hev hheld hjob hagenda run
  rw [step_wait hev hheld hjob hagenda]
  generalize hu : setAgenda (.wait n :: rest) (clearPorts s) = u
  have hrun (level : Bool) (m : LineMode) (d : Nat) : exec .tick (withLevel level m d u) = run level m d := by
    subst hu; rfl
  have hline : u.env.line = s.env.line := by subst hu; rfl
  have hdraws : u.env.draws = s.env.draws := by subst hu; rfl
  have hloop : loopLevel u = if s.txOE then s.txLine else true := by subst hu; rfl
  rw [← hline, ← hdraws, ← hloop]
  refine ⟨fun h => ?_, fun h => ?_, fun l ls o h => ?_, fun l h => ?_, fun h => ?_, fun h => ?_⟩
  · rw [supplyLevel_idle h, hrun]
  · rw [supplyLevel_loopback h, hrun]
  · rw [supplyLevel_levels_cons h, hrun]
  · rw [supplyLevel_levels_goesOn h, hrun]
  · rw [supplyLevel_free h, hrun]
  · rw [supplyLevel_levels_nil h, hrun]

/-! ## Events a trace names -/

/-- The events that read the line (R127, R161, R163). -/
theorem readsLine_iff {i : Instr} : readsLine i = true ↔ i ∈ [Instr.tick, .edgeLatch, .rxSample] := by
  cases i <;> simp [readsLine]

/-- An event that reads the line runs with a level from the Line agent (R98). -/
theorem perform_eventTurn_reads {id : EventId} {i : Instr} (hd : decodeEvt id = .ok i) (hr : readsLine i = true)
    (s : State) : perform exec (eventTurn id s) = hear s.env.job (exec i (supplyLevel s)) := by
  simp only [eventTurn, hd, hr, if_true, perform, supplyLevel_job]

/-- An event that does not read the line runs as it is (R98). -/
theorem perform_eventTurn_silent {id : EventId} {i : Instr} (hd : decodeEvt id = .ok i) (hr : readsLine i = false)
    (s : State) : perform exec (eventTurn id s) = hear s.env.job (exec i s) := by
  simp [eventTurn, hd, hr, perform]

/-- An unused identifier is refused (R98). -/
theorem perform_eventTurn_unused {id : EventId} {e : DecodeError} (hd : decodeEvt id = .error e) (s : State) :
    perform exec (eventTurn id s) = .refused (.unusedEvent id) := by
  simp only [eventTurn, hd, perform]

/-- Settles O36: the three cases of an identifier. -/
theorem stepRunsATracedEvent : Obligations.StepRunsATracedEvent := by
  intro s id hev s0
  rw [step, fetch_event hev]
  refine ⟨fun i hd hi => ?_, fun i hd hi => ?_, fun e hd => perform_eventTurn_unused hd _⟩
  · exact perform_eventTurn_reads hd (readsLine_iff.mpr hi) s0
  · exact perform_eventTurn_silent hd (Bool.eq_false_iff.mpr (mt readsLine_iff.mp hi)) s0

end Sys2Proof.Machine
end

section
/-! PROOFS. CONFIG: its three outcomes on exclusive conditions (40_bitclock R121 to R126). -/

namespace Sys2Proof.Machine

/-- A configured block raises Reconfigure whatever the baud (R126, R213). -/
theorem execConfig_configured (baud : Word) {s : State} (hc : s.configured = true) :
    execConfig baud s = .next (raise (.reconfigure baud) s) := by
  simp [execConfig, hc]

/-- An unconfigured block raises BadBaud on a baud of no legal divisor (R123). -/
theorem execConfig_badBaud {baud : Word} {s : State} (hc : s.configured = false) (hb : badBaud s.params baud = true) :
    execConfig baud s = .next (raise (.badBaud baud) s) := by
  simp [execConfig, hc, hb]

/-- An unconfigured block takes every other baud (R121). -/
theorem execConfig_legal {baud : Word} {s : State} (hc : s.configured = false) (hb : badBaud s.params baud = false) :
    execConfig baud s = .next (respond 0 (configure baud s)) := by
  simp [execConfig, hc, hb]

/-- Settles O10: the outcome on a configured block, and Reconfigure has code 3. -/
theorem secondConfigRaisesReconfigure : Obligations.SecondConfigRaisesReconfigure := by
  intro s baud hc
  exact execConfig_configured baud hc

/-- Settles O11: the three conditions are those of `badBaud`, and BadBaud has code 4. -/
theorem badBaudFaultsAndChangesNothingElse : Obligations.BadBaudFaultsAndChangesNothingElse := by
  intro s baud hc hbad
  exact execConfig_badBaud hc (decide_eq_true hbad)

/-- Settles O9: a baud that meets none of the three conditions is legal. -/
theorem configSetsTheDivisorAndThePins : Obligations.ConfigSetsTheDivisorAndThePins := by
  intro s baud hc hzero hdiv hfits
  have hgood : badBaud s.params baud = false := by
    refine decide_eq_false ?_
    rintro (h | h | h)
    · exact hzero h
    · exact hdiv h
    · exact absurd hfits (Nat.not_le.mpr h)
  exact execConfig_legal hc hgood

end Sys2Proof.Machine
end

section
/-! PROOFS. The parts of a tick: their order, that a tick completes, and that the RX part and the TX part commute (40_bitclock R127, R216, R220). -/

namespace Sys2Proof.Machine

/-! ## The order of the parts -/

theorem fallingEdge_iff {l : Bool} {s : State} :
    fallingEdge l s = true ↔ s.configured = true ∧ s.rxPrev = true ∧ l = false := by
  simp [fallingEdge, and_assoc]

/-- The parts of a tick, one after the other (R127). -/
theorem toOutcome_tick (l : Bool) (s : State) :
    toOutcome (tick l s) =
      andThen (toOutcome (rxPart l (edgeLatch l (advanceTimer s)))) fun u => toOutcome (txPart u) := by
  unfold tick
  cases rxPart l (edgeLatch l (advanceTimer s)) <;> rfl

/-- The RX part runs one event at most, and an edge before a sample (R127). -/
theorem toOutcome_rxPart (s : State) :
    toOutcome (rxPart s.rxIn s) =
      if s.configured = true ∧ s.rxState = .idle ∧ s.edgeFlag = true then exec .rxEdge s
      else if s.rxState = .sampling ∧ s.timer = s.rxCmp then exec .rxSample s
      else .next s := by
  simp only [rxPart, edgeTaken_iff, rxMatch_iff]
  split_ifs <;> rfl

theorem empty_tx_iff {s : State} : empty .tx s = true ↔ ¬ s.txFifo.head ≠ s.txFifo.tail := by
  simp [empty, fifo]

/-- The TX part runs one event at most, one of the three arms (R127, R142). -/
theorem toOutcome_txPart (s : State) :
    toOutcome (txPart s) =
      if s.txState = .framing ∧ s.timer = s.txCmp then
        (if 0 < s.bitsRemaining then exec .txShift s
         else if s.txFifo.head ≠ s.txFifo.tail then exec .txLoad s
         else exec .txIdle s)
      else .next s := by
  simp only [txPart, txEvent, txMatch_iff, empty_tx_iff]
  split_ifs <;> rfl

/-- Settles O22: each part in the spec's terms, put together in the order of a tick. -/
theorem tickRunsItsPartsInOrder : Obligations.TickRunsItsPartsInOrder := by
  intro s s1
  have hlatch : edgeLatch s.rxIn (advanceTimer s) = s1 := by
    simp only [edgeLatch, fallingEdge_iff]
    rfl
  calc exec .tick s = andThen (toOutcome (rxPart s1.rxIn s1)) fun u => toOutcome (txPart u) := by
        rw [← hlatch]
        exact toOutcome_tick s.rxIn s
    _ = _ := by
        rw [toOutcome_rxPart]
        exact congrArg _ (funext toOutcome_txPart)

/-! ## A tick completes -/

/-- No RX event writes the level of the previous tick (R162 to R164). -/
theorem rxPart_rxPrev {l : Bool} {s t : State} (h : rxPart l s = .ok t) : t.rxPrev = s.rxPrev := by
  rcases rxPart_cases h with ⟨-, rfl⟩ | ⟨-, -, hx⟩ | ⟨-, -, rfl⟩
  · rfl
  · rcases rxSample_cases hx with ⟨-, rfl⟩ | ⟨-, -, rfl⟩ | ⟨-, -, -, rfl⟩ <;> rfl
  · rfl

/-- A tick keeps its level for the next one (R35, R161). -/
theorem tick_rxPrev {l : Bool} {s t : State} (h : tick l s = .ok t) : t.rxPrev = l := by
  obtain ⟨u, hr, ht⟩ := tick_cases h
  calc t.rxPrev = u.rxPrev := congrArg RxView.rxPrev (txPart_rxView ht)
    _ = l := rxPart_rxPrev hr

/-- Settles O23: only an absent slot stops a tick, and its events write neither the counter nor the fault record. -/
theorem tickAlwaysCompletes : Obligations.TickAlwaysCompletes := by
  intro s hrx htx
  obtain ⟨t, ht⟩ := tick_answers s.rxIn hrx htx
  have hframe := tick_eventFrame ht
  exact ⟨t, congrArg toOutcome ht, congrArg EventFrame.timer hframe, tick_rxPrev ht,
    congrArg EventFrame.fault hframe⟩

/-! ## The two parts commute -/

/-- A state with another TX side: all that the TX part of a tick changes. -/
def withTx (v : TxView) (s : State) : State :=
  { s with
    txState := v.txState, txCmp := v.txCmp, frame := v.frame, bitsRemaining := v.bitsRemaining
    txLine := v.txLine, txFifo := v.txFifo, txCount := v.txCount }

/-- A state with another RX side, but for what CONFIG alone writes: all that the edge latch and the RX part of a tick change. -/
def withRx (v : RxView) (s : State) : State :=
  { s with
    rxState := v.rxState, rxCmp := v.rxCmp, accumulator := v.accumulator, bitsSampled := v.bitsSampled
    rxPrev := v.rxPrev, edgeFlag := v.edgeFlag, rxFifo := v.rxFifo, rxCount := v.rxCount
    edgeCount := v.edgeCount }

/-- The TX part of a tick writes the TX side only (R127, R150). -/
theorem txPart_eq_withTx {s t : State} (h : txPart s = .ok t) : t = withTx (txView t) s := by
  rcases txPart_cases h with ⟨-, rfl⟩ | ⟨-, -, rfl⟩ | ⟨-, -, -, rfl⟩ | ⟨-, -, -, -, rfl⟩ <;> rfl

/-- RX_SAMPLE writes the RX side only (R163, R168). -/
theorem rxSample_eq_withRx {l : Bool} {s t : State} (h : rxSample l s = .ok t) : t = withRx (rxView t) s := by
  rcases rxSample_cases h with ⟨-, rfl⟩ | ⟨-, -, rfl⟩ | ⟨-, -, -, rfl⟩ <;> rfl

/-- The RX part of a tick writes the RX side only (R127, R168). -/
theorem rxPart_eq_withRx {l : Bool} {s t : State} (h : rxPart l s = .ok t) : t = withRx (rxView t) s := by
  rcases rxPart_cases h with ⟨-, rfl⟩ | ⟨-, -, hx⟩ | ⟨-, -, rfl⟩
  · rfl
  · exact rxSample_eq_withRx hx
  · rfl

/-- The TX part of a tick does not read the RX side (R150). -/
theorem txPart_withRx (v : RxView) {s t : State} (h : txPart s = .ok t) : txPart (withRx v s) = .ok (withRx v t) := by
  have hmatch : txMatch (withRx v s) = txMatch s := rfl
  have hbits : (withRx v s).bitsRemaining = s.bitsRemaining := rfl
  have hempty : empty .tx (withRx v s) = empty .tx s := rfl
  rw [txPart, txEvent, hmatch, hbits, hempty]
  rcases txPart_cases h with ⟨hm, rfl⟩ | ⟨hm, hb, rfl⟩ | ⟨hm, hb, he, rfl⟩ | ⟨hm, hb, he, hi, rfl⟩
  · simp [hm]
  · rw [if_pos hm, if_pos hb]
    rfl
  · rw [if_pos hm, if_neg hb, if_pos he]
    rfl
  · rw [if_pos hm, if_neg hb, if_neg (by simp [he])]
    exact txLoad_ok (s := withRx v s) he hi

/-- RX_DONE does not read the TX side (R164, R168). -/
theorem rxDone_withTx (v : TxView) {s t : State} (h : rxDone s = .ok t) : rxDone (withTx v s) = .ok (withTx v t) := by
  rcases rxDone_cases h with ⟨hf, rfl⟩ | ⟨hf, hi, rfl⟩
  · exact rxDone_full (s := withTx v s) hf
  · exact rxDone_room (s := withTx v s) hf hi

/-- RX_SAMPLE does not read the TX side (R163, R168). -/
theorem rxSample_withTx (v : TxView) {l : Bool} {s t : State} (h : rxSample l s = .ok t) :
    rxSample l (withTx v s) = .ok (withTx v t) := by
  have hbits : (sampleBit l (withTx v s)).bitsSampled = (sampleBit l s).bitsSampled := rfl
  unfold rxSample at h ⊢
  rw [hbits]
  split at h
  · next h8 =>
    rw [if_pos h8]
    exact rxDone_withTx v h
  · next h8 =>
    cases h
    rw [if_neg h8]
    rfl

/-- The RX part of a tick does not read the TX side (R168). -/
theorem rxPart_withTx (v : TxView) {l : Bool} {s t : State} (h : rxPart l s = .ok t) :
    rxPart l (withTx v s) = .ok (withTx v t) := by
  have hedge : edgeTaken (withTx v s) = edgeTaken s := rfl
  have hmatch : rxMatch (withTx v s) = rxMatch s := rfl
  rw [rxPart, hedge, hmatch]
  rcases rxPart_cases h with ⟨he, rfl⟩ | ⟨he, hm, hx⟩ | ⟨he, hm, rfl⟩
  · rw [if_pos he]
    rfl
  · rw [if_neg (by simp [he]), if_pos hm]
    exact rxSample_withTx v hx
  · simp [he, hm]

/-- The two parts of a tick answer in either order with the same state (R127, R216). -/
theorem rxPart_txPart_comm {l : Bool} {s u v : State} (hu : rxPart l s = .ok u) (hv : txPart s = .ok v) :
    ∃ t, txPart u = .ok t ∧ rxPart l v = .ok t := by
  have huv : txPart u = .ok (withRx (rxView u) v) := by
    rw [rxPart_eq_withRx hu]
    exact txPart_withRx _ hv
  have hvu : rxPart l v = .ok (withTx (txView v) u) := by
    rw [txPart_eq_withTx hv]
    exact rxPart_withTx _ hu
  have hsame : withRx (rxView u) v = withTx (txView v) u :=
    calc withRx (rxView u) v = withRx (rxView u) (withTx (txView v) s) := by rw [← txPart_eq_withTx hv]
      _ = withTx (txView v) (withRx (rxView u) s) := rfl
      _ = withTx (txView v) u := by rw [← rxPart_eq_withRx hu]
  exact ⟨_, huv, hsame ▸ hvu⟩

/-- Settles O24: with the indices in range both parts answer, and they commute. -/
theorem txAndRxPartsCommute : Obligations.TxAndRxPartsCommute := by
  intro s l htx hrx
  obtain ⟨u, hu⟩ := rxPart_ok l (s := s) hrx.1
  obtain ⟨v, hv⟩ := txPart_ok (s := s) htx.2
  obtain ⟨t, hut, hvt⟩ := rxPart_txPart_comm hu hv
  calc andThen (toOutcome (rxPart l s)) (fun s' => toOutcome (txPart s'))
      = toOutcome (txPart u) := by rw [hu]; rfl
    _ = toOutcome (rxPart l v) := by rw [hut, hvt]
    _ = andThen (toOutcome (txPart s)) (fun s' => toOutcome (rxPart l s')) := by rw [hv]; rfl

end Sys2Proof.Machine
end

section
/-! PROOFS. What each host command and each event leaves unchanged (the state-written lines of 40_bitclock, 41_transmit, 42_receive and 43_host_api). -/

namespace Sys2Proof.Machine

/-! ## Ring buffers -/

/-- A ring buffer whose tail stays, and every slot but the one at its head: all that FifoPut may do (R64). -/
def Fifo.PutOnly (f g : Fifo) : Prop :=
  g = { f with mem := g.mem, head := g.head } ∧ ∀ a, a ≠ f.head → Memory.read g.mem a = Memory.read f.mem a

theorem Fifo.PutOnly.refl (f : Fifo) : f.PutOnly f := ⟨rfl, fun _ _ => rfl⟩

theorem Fifo.putOnly_pushed (n : Nat) (b : Byte) (f : Fifo) : f.PutOnly (f.pushed n b) :=
  ⟨rfl, fun _ ha => read_write_other _ b ha⟩

theorem rxDone_putOnly {s t : State} (h : rxDone s = .ok t) : s.rxFifo.PutOnly t.rxFifo := by
  rcases rxDone_cases h with ⟨-, rfl⟩ | ⟨-, -, rfl⟩
  · exact .refl _
  · exact Fifo.putOnly_pushed _ _ _

theorem rxSample_putOnly {l : Bool} {s t : State} (h : rxSample l s = .ok t) : s.rxFifo.PutOnly t.rxFifo := by
  rcases rxSample_cases h with ⟨-, rfl⟩ | ⟨-, -, rfl⟩ | ⟨-, -, -, rfl⟩
  · exact .refl _
  · exact .refl _
  · exact Fifo.putOnly_pushed _ _ _

theorem rxPart_putOnly {l : Bool} {s t : State} (h : rxPart l s = .ok t) : s.rxFifo.PutOnly t.rxFifo := by
  rcases rxPart_cases h with ⟨-, rfl⟩ | ⟨-, -, hx⟩ | ⟨-, -, rfl⟩
  · exact .refl _
  · exact rxSample_putOnly hx
  · exact .refl _

/-- The TX part of a tick removes a byte from the TX FIFO or leaves it (R65, R142). -/
theorem txPart_txFifo {s t : State} (h : txPart s = .ok t) : t.txFifo = { s.txFifo with tail := t.txFifo.tail } := by
  rcases txPart_cases h with ⟨-, rfl⟩ | ⟨-, -, rfl⟩ | ⟨-, -, -, rfl⟩ | ⟨-, -, -, -, rfl⟩ <;> rfl

/-! ## The host commands -/

/-- Settles O20: each outcome of a command writes the fields its clause names, and TXPUT's byte is put at the head. -/
theorem hostCommandsWriteOnlyTheirState : Obligations.HostCommandsWriteOnlyTheirState := by
  intro s t
  refine ⟨fun baud h => ?_, fun b h => ?_, fun h => ?_, fun h => ?_, fun i hi h => ?_⟩
  · rcases execConfig_cases h with ⟨-, rfl⟩ | ⟨-, -, rfl⟩ | ⟨-, -, rfl⟩ <;> rfl
  · rcases execTxput_cases h with ⟨-, rfl⟩ | ⟨-, -, rfl⟩ | ⟨-, -, -, rfl⟩
    · exact ⟨rfl, fun _ _ => rfl⟩
    · exact ⟨rfl, fun _ _ => rfl⟩
    · rw [kick_eq]
      exact ⟨rfl, (Fifo.putOnly_pushed _ b s.txFifo).2⟩
  · rcases execRxget_cases h with ⟨-, rfl⟩ | ⟨-, -, rfl⟩ <;> rfl
  · cases h
    rfl
  · simp only [List.mem_cons, List.not_mem_nil, or_false] at hi
    rcases hi with rfl | rfl | rfl | rfl | rfl <;> cases h <;> rfl

/-! ## The events -/

/-- A tick writes the counter, the RX side and the TX side (R127). -/
theorem tick_eq_withTx_withRx {l : Bool} {s t : State} (h : tick l s = .ok t) :
    t = withTx (txView t) (withRx (rxView t) (advanceTimer s)) := by
  obtain ⟨u, hr, ht⟩ := tick_cases h
  calc t = withTx (txView t) u := txPart_eq_withTx ht
    _ = withTx (txView t) (withRx (rxView u) (edgeLatch l (advanceTimer s))) := by rw [← rxPart_eq_withRx hr]
    _ = withTx (txView t) (withRx (rxView u) (advanceTimer s)) := rfl
    _ = withTx (txView t) (withRx (rxView t) (advanceTimer s)) := by rw [txPart_rxView ht]

/-- Of the RX FIFO a tick may put a byte at the head (R164). -/
theorem tick_putOnly {l : Bool} {s t : State} (h : tick l s = .ok t) : s.rxFifo.PutOnly t.rxFifo := by
  obtain ⟨u, hr, ht⟩ := tick_cases h
  have hrx : t.rxFifo = u.rxFifo := congrArg RxView.rxFifo (txPart_rxView ht)
  rw [hrx]
  exact rxPart_putOnly (s := edgeLatch l (advanceTimer s)) hr

/-- Of the TX FIFO a tick may move the tail (R144). -/
theorem tick_txFifo {l : Bool} {s t : State} (h : tick l s = .ok t) :
    t.txFifo = { s.txFifo with tail := t.txFifo.tail } := by
  obtain ⟨u, hr, ht⟩ := tick_cases h
  have htx : u.txFifo = s.txFifo := congrArg TxView.txFifo (rxPart_frame hr).2
  rw [← htx]
  exact txPart_txFifo ht

/-- Settles O33: each outcome of an event writes the fields its clause names; a received byte is put at the head. -/
theorem eventsWriteOnlyTheirState : Obligations.EventsWriteOnlyTheirState := by
  intro s t
  refine ⟨fun h => ?_, fun h => ?_, fun h => ?_, fun h => ?_, fun h => ?_, fun h => ?_, fun h => ?_,
    fun i hi h => ?_⟩
  · have ht := toOutcome_eq_next h
    obtain ⟨hrx, hslots⟩ := tick_putOnly ht
    refine ⟨?_, hslots⟩
    have htimer : t.timer = (advanceTimer s).timer := congrArg EventFrame.timer (tick_eventFrame ht)
    rw [← hrx, ← tick_txFifo ht, htimer]
    exact tick_eq_withTx_withRx ht
  · cases h
    rfl
  · rcases txLoad_cases (toOutcome_eq_next h) with ⟨-, rfl⟩ | ⟨-, -, rfl⟩ <;> rfl
  · cases h
    rfl
  · cases h
    rw [kick_eq]
  · cases h
    rfl
  · cases h
    rfl
  · simp only [List.mem_cons, List.not_mem_nil, or_false] at hi
    rcases hi with rfl | rfl
    · have ht := toOutcome_eq_next h
      refine ⟨?_, (rxSample_putOnly ht).2⟩
      rcases rxSample_cases ht with ⟨-, rfl⟩ | ⟨-, -, rfl⟩ | ⟨-, -, -, rfl⟩ <;> rfl
    · have ht := toOutcome_eq_next h
      refine ⟨?_, (rxDone_putOnly ht).2⟩
      rcases rxDone_cases ht with ⟨-, rfl⟩ | ⟨-, -, rfl⟩ <;> rfl

end Sys2Proof.Machine
end

section
/-! PROOFS. Ticks one after another, and the TX compare channel over them: nothing before the tick its compare value names (40_bitclock R128, R131). -/

namespace Sys2Proof.Machine

theorem inv_driveRx {s : State} (l : Bool) (h : Inv s) : Inv (driveRx l s) := by
  obtain ⟨-, -, -, hports⟩ := inv_iff.mp h
  exact inv_congr h (hports.congr rfl rfl rfl) rfl rfl rfl rfl

/-- A run of ticks goes on from the state its first tick leaves. -/
theorem runTicks_cons {l : Bool} {s t : State} (ls : List Bool) (h : tick l (driveRx l s) = .ok t) :
    runTicks (l :: ls) s = runTicks ls t := by
  have hexec : execTick (driveRx l s) = .next t := congrArg toOutcome h
  rw [runTicks, hexec]
  rfl

/-- A tick from the invariants answers (R220). -/
theorem inv_tick_answers {s : State} (l : Bool) (h : Inv s) : ∃ t, tick l s = .ok t := by
  obtain ⟨-, ⟨htx, -⟩, ⟨hrx, -⟩, -⟩ := inv_iff.mp h
  exact tick_answers l hrx.fifo.head_lt htx.fifo.tail_lt

/-- The next tick fires the event of a Framing engine exactly where one tick is left (R128). -/
theorem txMatch_advanceTimer_iff {s : State} (h : Inv s) (hf : s.txState = .framing) :
    txMatch (advanceTimer s) = true ↔ 1 = ticksUntil s.params s.timer s.txCmp := by
  obtain ⟨hclock, ⟨htx, hts⟩, -⟩ := inv_iff.mp h
  obtain ⟨hone, -⟩ := hts hf
  have hadvance := ticksUntil_advance hclock.timer_lt htx.txCmp_lt hone
  rw [txMatch_iff, advanceTimer_txState, advanceTimer_timer, advanceTimer_txCmp, and_iff_right hf,
    ← ticksUntil_eq_zero (wrap_lt _ _) htx.txCmp_lt, hadvance]
  omega

/-- A tick before the TX event leaves the TX side as it is (R128). -/
theorem tick_txView_of_not_match {l : Bool} {s t : State} (hm : txMatch (advanceTimer s) = false)
    (h : tick l s = .ok t) : txView t = txView s := by
  obtain ⟨u, hr, ht⟩ := tick_cases h
  have hmatch : txMatch u = txMatch (advanceTimer s) := by rw [rxPart_eq_withRx hr]; rfl
  rcases txPart_cases ht with ⟨-, rfl⟩ | ⟨hu, -⟩ | ⟨hu, -⟩ | ⟨hu, -⟩
  · exact (rxPart_frame hr).2
  all_goals
    rw [hmatch, hm] at hu
    cases hu

/-- A tick that leaves a Framing engine's TX side as it is takes one off the ticks left (R131). -/
theorem tick_ticksUntil {l : Bool} {s t : State} (hs : Inv s) (hf : s.txState = .framing) (h : tick l s = .ok t)
    (hview : txView t = txView s) :
    ticksUntil t.params t.timer t.txCmp = ticksUntil s.params s.timer s.txCmp - 1 := by
  obtain ⟨hclock, ⟨htx, hts⟩, -⟩ := inv_iff.mp hs
  obtain ⟨hone, -⟩ := hts hf
  have hparams : t.params = s.params := congrArg SetupView.params (tick_setupView h)
  have htimer : t.timer = wrap s.params (s.timer + 1) := congrArg EventFrame.timer (tick_eventFrame h)
  have hcmp : t.txCmp = s.txCmp := congrArg TxView.txCmp hview
  rw [hparams, htimer, hcmp]
  exact ticksUntil_advance hclock.timer_lt htx.txCmp_lt hone

/-- A tick of a Framing engine with more than one tick left answers, keeps the invariants and the TX side, and takes one off the
ticks left. -/
theorem tick_before_match {s : State} (l : Bool) (h : Inv s) (hf : s.txState = .framing)
    (hleft : 1 < ticksUntil s.params s.timer s.txCmp) :
    ∃ t, tick l s = .ok t ∧ Inv t ∧ txView t = txView s ∧
      ticksUntil t.params t.timer t.txCmp = ticksUntil s.params s.timer s.txCmp - 1 := by
  obtain ⟨t, ht⟩ := inv_tick_answers l h
  have hm : txMatch (advanceTimer s) = false := by
    rw [Bool.eq_false_iff, ne_eq, txMatch_advanceTimer_iff h hf]
    omega
  have hview := tick_txView_of_not_match hm ht
  exact ⟨t, ht, inv_tick h ht, hview, tick_ticksUntil h hf ht hview⟩

/-- Settles O53: by induction on the ticks, each of which leaves the TX side and takes one off the ticks left. -/
theorem txCompareFiresAfterItsDelay : Obligations.TxCompareFiresAfterItsDelay := by
  intro s levels
  induction levels generalizing s with
  | nil =>
    intro hs hf _
    exact ⟨s, rfl, rfl, txMatch_advanceTimer_iff hs hf⟩
  | cons l ls ih =>
    intro hs hf hlt
    rw [List.length_cons] at hlt ⊢
    have hmore : 1 < ticksUntil s.params s.timer s.txCmp := by omega
    obtain ⟨u, hu, hinv, (hview : txView u = txView s),
      (hleft : ticksUntil u.params u.timer u.txCmp = ticksUntil s.params s.timer s.txCmp - 1)⟩ :=
      tick_before_match (s := driveRx l s) l (inv_driveRx l hs) hf hmore
    have hfu : u.txState = .framing := (congrArg TxView.txState hview).trans hf
    obtain ⟨t, ht, htview, hfires⟩ := ih u hinv hfu (by omega)
    refine ⟨t, (runTicks_cons ls hu).trans ht, htview.trans hview, hfires.trans ?_⟩
    omega

end Sys2Proof.Machine
end

section
/-! PROOFS. KICK and the three arms of the TX compare event, each as one update of the state (41_transmit R141 to R145). -/

namespace Sys2Proof.Machine

/-- Settles O29: TX_SHIFT is this update by definition. -/
theorem txShiftEmitsTheNextBit : Obligations.TxShiftEmitsTheNextBit := fun _ => rfl

/-- A load of a byte as one update: what the start bit and the rest of the frame are (R144, R146). -/
theorem loaded_eq (s : State) :
    loaded s = { s with
      txFifo := { s.txFifo with tail := (s.txFifo.tail + 1) % s.params.nTx }
      txLine := false
      frame := (Memory.read s.txFifo.mem s.txFifo.tail).zeroExtend 10 ||| 0x100
      bitsRemaining := 9
      txCount := s.txCount + 1
      txCmp := wrap s.params (s.txCmp + s.ticksPerBit) } := by
  rw [loaded, startFrame, lineBit_buildFrame, buildFrame_shifted]
  rfl

/-- Settles O30: a FIFO that is not empty, its tail in range, gives its oldest byte. -/
theorem txLoadStartsTheFrame : Obligations.TxLoadStartsTheFrame := by
  intro s hne hi
  have hload : txLoad s = .ok (loaded s) := txLoad_ok (empty_eq_false_iff.mpr hne) hi
  exact congrArg toOutcome (hload.trans (congrArg Except.ok (loaded_eq s)))

/-- Settles O31: TX_IDLE is this update by definition. -/
theorem txIdleDisarmsTheChannel : Obligations.TxIdleDisarmsTheChannel := fun _ => rfl

/-- Settles O32: KICK tests the engine's state. -/
theorem kickArmsAnIdleEngine : Obligations.KickArmsAnIdleEngine := by
  intro s
  refine ⟨fun hidle => ?_, fun hframing => ?_⟩
  · have hkick : kick s = { s with txCmp := wrap s.params (s.timer + s.ticksPerBit), txState := .framing } := if_pos hidle
    exact congrArg Host.Outcome.next hkick
  · have hkick : kick s = s := if_neg (by simp [hframing])
    exact congrArg Host.Outcome.next hkick

end Sys2Proof.Machine
end

section
/-! PROOFS. What a tick does to the TX side: the TX part of the tick reads the TX side and the clock only (41_transmit R150). -/

namespace Sys2Proof.Machine

/-! ## The arms of the TX part (R142) -/

theorem txPart_silent {s : State} (hm : txMatch s = false) : txPart s = .ok s := by
  rw [txPart, if_neg (by simp [hm])]

theorem txPart_shift {s : State} (hm : txMatch s = true) (hb : 0 < s.bitsRemaining) : txPart s = .ok (txShift s) := by
  rw [txPart, if_pos hm, txEvent, if_pos hb]

theorem txPart_idle {s : State} (hm : txMatch s = true) (hb : ¬ 0 < s.bitsRemaining) (he : empty .tx s = true) :
    txPart s = .ok (txIdle s) := by
  rw [txPart, if_pos hm, txEvent, if_neg hb, if_pos he]

theorem txPart_load {s : State} (hm : txMatch s = true) (hb : ¬ 0 < s.bitsRemaining) (he : empty .tx s = false)
    (hi : s.txFifo.tail < s.params.nTx) : txPart s = .ok (loaded s) := by
  rw [txPart, if_pos hm, txEvent, if_neg hb, if_neg (by simp [he]), txLoad_ok he hi]

/-! ## What the TX part reads -/

/-- The TX part takes two states that agree in the TX side and the clock to two that agree in the TX side (R150). -/
theorem txPart_txView_congr {s t s' t' : State} (hclock : clockView s = clockView t) (hview : txView s = txView t)
    (hs : txPart s = .ok s') (ht : txPart t = .ok t') : txView s' = txView t' := by
  obtain ⟨⟩ := s
  obtain ⟨⟩ := t
  cases hclock
  cases hview
  rcases txPart_cases hs with ⟨hm, rfl⟩ | ⟨hm, hb, rfl⟩ | ⟨hm, hb, he, rfl⟩ | ⟨hm, hb, he, hi, rfl⟩
  · cases ht.symm.trans (txPart_silent hm)
    rfl
  · cases ht.symm.trans (txPart_shift hm hb)
    rfl
  · cases ht.symm.trans (txPart_idle hm hb he)
    rfl
  · cases ht.symm.trans (txPart_load hm hb he hi)
    rfl

/-- What a tick does to the TX side is what the TX part does right after the counter's advance (R127, R150). -/
theorem tick_txPart {l : Bool} {s t : State} (h : tick l s = .ok t) :
    ∃ w, txPart (advanceTimer s) = .ok w ∧ txView t = txView w := by
  obtain ⟨u, hr, ht⟩ := tick_cases h
  have hu : advanceTimer s = withRx (rxView (advanceTimer s)) u := by rw [rxPart_eq_withRx hr]; rfl
  exact ⟨withRx (rxView (advanceTimer s)) t, hu ▸ txPart_withRx _ ht, rfl⟩

/-- Of the clock a tick writes the counter (R127). -/
theorem tick_clockView {l : Bool} {s t : State} (h : tick l s = .ok t) : clockView t = clockView (advanceTimer s) := by
  rw [tick_eq_withTx_withRx h]
  rfl

theorem clockView_advanceTimer_congr {s t : State} (h : clockView s = clockView t) :
    clockView (advanceTimer s) = clockView (advanceTimer t) := by
  obtain ⟨⟩ := s
  obtain ⟨⟩ := t
  cases h
  rfl

/-- Settles O51: the counters advance alike, and then the TX parts read the same. -/
theorem txSideIgnoresTheRxSide : Obligations.TxSideIgnoresTheRxSide := by
  intro s t s' t' hclock hview hs ht
  have hs := toOutcome_eq_next hs
  have ht := toOutcome_eq_next ht
  have hadvance := clockView_advanceTimer_congr hclock
  obtain ⟨v, hv, hsv⟩ := tick_txPart hs
  obtain ⟨w, hw, htw⟩ := tick_txPart ht
  have hvw : txView v = txView w := txPart_txView_congr hadvance hview hv hw
  exact ⟨(tick_clockView hs).trans (hadvance.trans (tick_clockView ht).symm), hsv.trans (hvw.trans htw.symm)⟩

end Sys2Proof.Machine
end

section
/-! PROOFS. A run of ticks: it goes on where a shorter one ends, and keeps the invariants and the set-up (40_bitclock R127). -/

namespace Sys2Proof.Machine

theorem runTicks_append (xs ys : List Bool) (s : State) :
    runTicks (xs ++ ys) s = andThen (runTicks xs s) (runTicks ys) := by
  induction xs generalizing s with
  | nil => rfl
  | cons l xs ih =>
    rw [List.cons_append, runTicks, runTicks]
    cases execTick (driveRx l s) with
    | next t => exact ih t
    | fault f => rfl
    | refused r => rfl

/-- One more tick after a run of ticks. -/
theorem runTicks_concat {ls : List Bool} {l : Bool} {s t u : State} (hrun : runTicks ls s = .next u)
    (h : tick l (driveRx l u) = .ok t) : runTicks (ls ++ [l]) s = .next t := by
  rw [runTicks_append, hrun]
  exact runTicks_cons [] h

/-- Ticks one after another keep the invariants and the set-up. -/
theorem inv_runTicks {ls : List Bool} {s t : State} (hs : Inv s) (h : runTicks ls s = .next t) :
    Inv t ∧ setupView t = setupView s := by
  induction ls generalizing s with
  | nil =>
    cases h
    exact ⟨hs, rfl⟩
  | cons l ls ih =>
    obtain ⟨u, hu⟩ := inv_tick_answers l (inv_driveRx l hs)
    rw [runTicks_cons ls hu] at h
    obtain ⟨ht, hsetup⟩ := ih (inv_tick (inv_driveRx l hs) hu) h
    have hfirst : setupView u = setupView (driveRx l s) := tick_setupView hu
    exact ⟨ht, hsetup.trans hfirst⟩

end Sys2Proof.Machine
end

section
/-! PROOFS. The TX compare event in a tick: the TX side is that of the event's arm, and a bit period is left until the next one (41_transmit R142 to R145). -/

namespace Sys2Proof.Machine

/-- The TX side after a tick is the one its TX part leaves (R127). -/
theorem tick_txView_of_txPart {l : Bool} {s t w : State} (h : tick l s = .ok t) (hw : txPart (advanceTimer s) = .ok w) :
    txView t = txView w := by
  obtain ⟨w', hw', hview⟩ := tick_txPart h
  cases hw.symm.trans hw'
  exact hview

theorem contents_tx_congr {s t : State} (hparams : t.params = s.params) (hfifo : t.txFifo = s.txFifo) :
    contents .tx t = contents .tx s := by
  simp only [contents_eq, slots, fifo, hparams, hfifo]

/-- An event that waits one bit period leaves `ticksPerBit` ticks until the next one (R129, R131). -/
theorem ticksUntil_after_txEvent {l : Bool} {s t : State} (hs : Inv s) (hm : txMatch (advanceTimer s) = true)
    (h : tick l s = .ok t) (hcmp : t.txCmp = wrap s.params (s.txCmp + s.ticksPerBit)) :
    ticksUntil t.params t.timer t.txCmp = s.ticksPerBit := by
  obtain ⟨hclock, ⟨htx, -⟩, -⟩ := inv_iff.mp hs
  obtain ⟨-, (hnow : wrap s.params (s.timer + 1) = s.txCmp)⟩ := txMatch_iff.mp hm
  have hparams : t.params = s.params := congrArg SetupView.params (tick_setupView h)
  have htimer : t.timer = wrap s.params (s.timer + 1) := congrArg EventFrame.timer (tick_eventFrame h)
  rw [hparams, htimer, hcmp, hnow, ticksUntil_schedule htx.txCmp_lt hclock.ticksPerBit_lt]

/-- The engine fires in the next tick, with its last frame sent: it loads a byte or stops (R142). -/
structure FrameEnds (s : State) : Prop where
  inv : Inv s
  framing : s.txState = .framing
  bits : s.bitsRemaining = 0
  left : ticksUntil s.params s.timer s.txCmp = 1

theorem FrameEnds.txMatch {s : State} (h : FrameEnds s) : txMatch (advanceTimer s) = true :=
  (txMatch_advanceTimer_iff h.inv h.framing).mpr h.left.symm

theorem FrameEnds.no_bits {s : State} (h : FrameEnds s) : ¬ 0 < s.bitsRemaining := by
  rw [h.bits]
  decide

theorem FrameEnds.indicesOk {s : State} (h : FrameEnds s) : IndicesOk .tx s := by
  obtain ⟨-, -, htx, -⟩ := h.inv
  exact htx

theorem FrameEnds.driveRx {s : State} (l : Bool) (h : FrameEnds s) : FrameEnds (driveRx l s) :=
  ⟨inv_driveRx l h.inv, h.framing, h.bits, h.left⟩

/-- With nothing queued the engine stops (R145, R149). -/
theorem FrameEnds.tick_idle {s : State} (l : Bool) (h : FrameEnds s) (hq : contents .tx s = []) :
    ∃ t, tick l s = .ok t ∧ txView t = txView (txIdle s) := by
  obtain ⟨t, ht⟩ := inv_tick_answers l h.inv
  have he : empty .tx s = true := (empty_iff_contents h.indicesOk).mpr hq
  exact ⟨t, ht, tick_txView_of_txPart (w := txIdle (advanceTimer s)) ht (txPart_idle h.txMatch h.no_bits he)⟩

/-- With bytes queued the engine loads the oldest (R144, R149). -/
theorem FrameEnds.tick_load {s : State} {b : Byte} {queued : List Byte} (l : Bool) (h : FrameEnds s)
    (hq : contents .tx s = b :: queued) :
    ∃ t, tick l s = .ok t ∧ contents .tx t = queued ∧
      txView t = txView (startFrame b (setFifo .tx (s.txFifo.popped s.params.nTx) s)) := by
  obtain ⟨t, ht⟩ := inv_tick_answers l h.inv
  have he : empty .tx s = false := by
    rw [Bool.eq_false_iff, ne_eq, empty_iff_contents h.indicesOk, hq]
    exact List.cons_ne_nil b queued
  obtain ⟨hb, hrest⟩ := List.cons.inj (hq.symm.trans (contents_popped h.indicesOk he))
  have hview := tick_txView_of_txPart ht (txPart_load h.txMatch h.no_bits he h.indicesOk.2)
  refine ⟨t, ht, ?_, ?_⟩
  · rw [hrest]
    exact contents_tx_congr (congrArg SetupView.params (tick_setupView ht)) (congrArg TxView.txFifo hview)
  · rw [hb]
    exact hview

end Sys2Proof.Machine
end

section
/-! PROOFS. A frame on the line: bit `k` of it is driven for the ticks `k p` to `k p + p - 1` after its load (41_transmit R146, R147). -/

namespace Sys2Proof.Machine

/-- The bits of a frame in the order of transmission: start bit, data bits from the least significant, stop bit (R69, R146). -/
theorem getLsbD_buildFrame (b : Byte) {k : Nat} (hk : k ≤ 9) :
    (buildFrame b).getLsbD k = if k = 0 then false else if k = 9 then true else b.getLsbD (k - 1) := by
  revert b
  interval_cases k <;> decide

/-- `j` ticks after the load of `b`, with `queued` waiting and `txCount` at `count`: the engine drives bit `j div p` of the frame, and
its next event is `p - j mod p` ticks away. -/
structure SendsAt (b : Byte) (queued : List Byte) (count : Word) (p j : Nat) (s : State) : Prop where
  inv : Inv s
  framing : s.txState = .framing
  period : s.ticksPerBit = p
  line : s.txLine = (buildFrame b).getLsbD (j / p)
  frame : s.frame = buildFrame b >>> (j / p + 1)
  bits : s.bitsRemaining.toNat + j / p = 9
  queue : contents .tx s = queued
  count : s.txCount = count
  left : ticksUntil s.params s.timer s.txCmp + j % p = p

section
variable {b : Byte} {queued : List Byte} {count : Word} {p j : Nat} {s : State}

theorem SendsAt.driveRx (l : Bool) (h : SendsAt b queued count p j s) : SendsAt b queued count p j (driveRx l s) :=
  { h with inv := inv_driveRx l h.inv }

theorem SendsAt.one_le_left (h : SendsAt b queued count p j s) : 1 ≤ ticksUntil s.params s.timer s.txCmp := by
  obtain ⟨-, ⟨-, hschedule⟩, -⟩ := inv_iff.mp h.inv
  exact (hschedule h.framing).1

theorem SendsAt.period_pos (h : SendsAt b queued count p j s) : 0 < p := by
  have hone := h.one_le_left
  have hleft := h.left
  omega

/-- The start bit is low (R144). -/
theorem SendsAt.line_low (h : SendsAt b queued count p 0 s) : s.txLine = false := by
  rw [h.line, Nat.zero_div]
  exact lineBit_buildFrame b

/-- After the load the frame keeps the byte with the stop bit above it (R144, R146). -/
theorem SendsAt.frame_after_load (h : SendsAt b queued count p 0 s) : s.frame = b.zeroExtend 10 ||| 0x100 := by
  rw [h.frame, Nat.zero_div]
  exact buildFrame_shifted b

/-- The load of a byte is tick 0 of its frame (R144). -/
theorem FrameEnds.tick_sendsAt (l : Bool) (h : FrameEnds s) (hq : contents .tx s = b :: queued) :
    ∃ t, tick l s = .ok t ∧ SendsAt b queued (s.txCount + 1) s.ticksPerBit 0 t := by
  obtain ⟨t, ht, hqueue, hview⟩ := h.tick_load l hq
  have hperiod : t.ticksPerBit = s.ticksPerBit := congrArg SetupView.ticksPerBit (tick_setupView ht)
  have hleft := ticksUntil_after_txEvent h.inv h.txMatch ht (congrArg TxView.txCmp hview)
  obtain ⟨hstate, -, hframe, hbits, hline, -, hcount⟩ := TxView.mk.inj hview
  refine ⟨t, ht, inv_tick h.inv ht, hstate.trans h.framing, hperiod, ?_, ?_, ?_, hqueue, hcount, ?_⟩
  · rw [Nat.zero_div]
    exact hline
  · rw [Nat.zero_div]
    exact hframe
  · rw [Nat.zero_div, hbits]
    rfl
  · rw [Nat.zero_mod]
    exact hleft

/-- A tick within a bit leaves the line as it is (R128). -/
theorem SendsAt.tick_within (l : Bool) (h : SendsAt b queued count p j s) (hin : j % p + 1 < p) :
    ∃ t, tick l s = .ok t ∧ SendsAt b queued count p (j + 1) t := by
  have hleft := h.left
  obtain ⟨t, ht, hinv, hview, hless⟩ := tick_before_match l h.inv h.framing (by omega)
  have hsetup := tick_setupView ht
  have hj : j % p + 1 + p * (j / p) = j + 1 := by
    rw [Nat.add_right_comm, Nat.mod_add_div]
  obtain ⟨hdiv, hmod⟩ := (Nat.div_mod_unique h.period_pos).mpr ⟨hj, hin⟩
  obtain ⟨hstate, -, hframe, hbits, hline, hfifo, hcount⟩ := TxView.mk.inj hview
  refine ⟨t, ht, hinv, hstate.trans h.framing, (congrArg SetupView.ticksPerBit hsetup).trans h.period, ?_, ?_, ?_,
    (contents_tx_congr (congrArg SetupView.params hsetup) hfifo).trans h.queue, hcount.trans h.count, ?_⟩
  · rw [hdiv]
    exact hline.trans h.line
  · rw [hdiv]
    exact hframe.trans h.frame
  · rw [hdiv, hbits]
    exact h.bits
  · rw [hmod, hless]
    omega

/-- After the last tick of a bit that is not the stop bit the next bit goes out (R143). -/
theorem SendsAt.tick_nextBit (l : Bool) (h : SendsAt b queued count p j s) (hend : j % p + 1 = p) (hk : j / p < 9) :
    ∃ t, tick l s = .ok t ∧ SendsAt b queued count p (j + 1) t := by
  have hleft := h.left
  have hbitsLeft := h.bits
  obtain ⟨t, ht⟩ := inv_tick_answers l h.inv
  have hm : txMatch (advanceTimer s) = true := (txMatch_advanceTimer_iff h.inv h.framing).mpr (by omega)
  have hb : 0 < s.bitsRemaining := by bv_omega
  have hview : txView t = txView (txShift s) :=
    tick_txView_of_txPart (w := txShift (advanceTimer s)) ht (txPart_shift hm hb)
  have hsetup := tick_setupView ht
  have hperiod := (congrArg SetupView.ticksPerBit hsetup).trans h.period
  have hnext := ticksUntil_after_txEvent h.inv hm ht (congrArg TxView.txCmp hview)
  have hj : 0 + p * (j / p + 1) = j + 1 := by
    have hdivMod := Nat.mod_add_div j p
    rw [Nat.mul_succ]
    omega
  obtain ⟨hdiv, hmod⟩ := (Nat.div_mod_unique h.period_pos).mpr ⟨hj, h.period_pos⟩
  obtain ⟨hstate, -, hframe, hbits, hline, hfifo, hcount⟩ := TxView.mk.inj hview
  refine ⟨t, ht, inv_tick h.inv ht, hstate.trans h.framing, hperiod, ?_, ?_, ?_,
    (contents_tx_congr (congrArg SetupView.params hsetup) hfifo).trans h.queue, hcount.trans h.count, ?_⟩
  · rw [hdiv, hline, txShift_txLine, lineBit, h.frame, BitVec.getLsbD_ushiftRight, Nat.add_zero]
  · rw [hdiv, hframe, txShift_frame, h.frame, ← BitVec.shiftRight_add]
  · rw [hdiv, hbits, txShift_bitsRemaining]
    bv_omega
  · rw [hmod, hnext]
    exact h.period

/-- Every tick but the last of the ten bit periods goes on with the frame (R147). -/
theorem SendsAt.tick (l : Bool) (h : SendsAt b queued count p j s) (hlt : j + 1 < 10 * p) :
    ∃ t, tick l s = .ok t ∧ SendsAt b queued count p (j + 1) t := by
  have hmod : j % p < p := Nat.mod_lt j h.period_pos
  by_cases hend : j % p + 1 = p
  · have hk : j / p < 9 := by
      by_contra hstop
      have hlate : p * 9 ≤ p * (j / p) := Nat.mul_le_mul_left p (Nat.le_of_not_lt hstop)
      have hj := Nat.mod_add_div j p
      omega
    exact h.tick_nextBit l hend hk
  · exact h.tick_within l (by omega)

/-- A run of ticks within the ten bit periods goes on with the frame (R147). -/
theorem SendsAt.runTicks (ls : List Bool) (h : SendsAt b queued count p j s) (hlt : j + ls.length < 10 * p) :
    ∃ t, runTicks ls s = .next t ∧ SendsAt b queued count p (j + ls.length) t := by
  induction ls generalizing s j with
  | nil => exact ⟨s, rfl, h⟩
  | cons l ls ih =>
    rw [List.length_cons] at hlt
    obtain ⟨u, hu, hsends⟩ := (h.driveRx l).tick l (by omega)
    obtain ⟨t, ht, hsends'⟩ := ih hsends (by omega)
    refine ⟨t, (runTicks_cons ls hu).trans ht, ?_⟩
    rwa [List.length_cons, Nat.add_comm ls.length 1, ← Nat.add_assoc]

/-- After the last tick of the stop bit the frame ends (R147). -/
theorem SendsAt.frameEnds (h : SendsAt b queued count p j s) (hend : j + 1 = 10 * p) : FrameEnds s := by
  have hpos := h.period_pos
  have hleft := h.left
  have hbits := h.bits
  obtain ⟨hdiv, hmod⟩ := (Nat.div_mod_unique hpos).mpr
    ⟨(by omega : p - 1 + p * 9 = j), (by omega : p - 1 < p)⟩
  exact ⟨h.inv, h.framing, by bv_omega, by omega⟩

end

/-- From a state about to load, the load and the ticks after it (R144, R147). -/
theorem FrameEnds.runTicks {s : State} {b : Byte} {queued : List Byte} {levels : List Bool} (h : FrameEnds s)
    (hq : contents .tx s = b :: queued) (hpos : 0 < levels.length) (hle : levels.length ≤ 10 * s.ticksPerBit) :
    ∃ t, runTicks levels s = .next t ∧
      SendsAt b queued (s.txCount + 1) s.ticksPerBit (levels.length - 1) t := by
  cases levels with
  | nil => cases hpos
  | cons l ls =>
    rw [List.length_cons] at hle
    obtain ⟨u, hu, hsends⟩ := (h.driveRx l).tick_sendsAt l hq
    obtain ⟨t, ht, hsends'⟩ := hsends.runTicks ls (by rw [Nat.zero_add]; exact hle)
    refine ⟨t, (runTicks_cons ls hu).trans ht, ?_⟩
    rwa [Nat.zero_add] at hsends'

/-- Settles O54: `j` ticks after its load the frame is at bit `j div p`. -/
theorem transmittedByteTakesTenBitPeriods : Obligations.TransmittedByteTakesTenBitPeriods := by
  intro s b queued levels hinv hf hbits hq hleft hpos hle
  obtain ⟨t, ht, hsends⟩ := FrameEnds.runTicks ⟨hinv, hf, hbits, hleft⟩ hq hpos hle
  refine ⟨t, ht, hsends.framing, hsends.count, hsends.line.trans (getLsbD_buildFrame b ?_)⟩
  have hk := hsends.bits
  omega

/-- Settles O55: the frame ends with the ten bit periods, and the next tick loads the next byte or stops the engine. -/
theorem nextFrameOrIdleFollowsTheStopBit : Obligations.NextFrameOrIdleFollowsTheStopBit := by
  intro s b queued levels hinv hf hbits hq hleft hlen
  obtain rfl | ⟨ls, l, rfl⟩ := levels.eq_nil_or_concat'
  · cases hlen
  rw [List.length_append, List.length_singleton, Nat.add_right_cancel_iff] at hlen
  have hperiod : 1 ≤ s.ticksPerBit := by
    obtain ⟨-, ⟨-, hschedule⟩, -⟩ := inv_iff.mp hinv
    exact (hschedule hf).1.trans (hschedule hf).2
  obtain ⟨u, hu, hsends⟩ := FrameEnds.runTicks (levels := ls) ⟨hinv, hf, hbits, hleft⟩ hq (by omega) (by omega)
  have hends : FrameEnds (driveRx l u) := (hsends.frameEnds (by omega)).driveRx l
  cases queued with
  | nil =>
    obtain ⟨t, ht, hview⟩ := hends.tick_idle l hsends.queue
    obtain ⟨hstate, -, -, -, hline, -, hcount⟩ := TxView.mk.inj hview
    exact ⟨t, runTicks_concat hu ht, fun _ => ⟨hstate, hline, hcount.trans hsends.count⟩, fun hne => absurd rfl hne⟩
  | cons c queued =>
    obtain ⟨t, ht, hnext⟩ := hends.tick_sendsAt l hsends.queue
    refine ⟨t, runTicks_concat hu ht, fun hnil => absurd hnil (List.cons_ne_nil c queued), fun _ => ?_⟩
    have hcount : t.txCount = s.txCount + 2 := by
      calc t.txCount = u.txCount + 1 := hnext.count
        _ = s.txCount + 1 + 1 := by rw [hsends.count]
        _ = s.txCount + 2 := BitVec.add_assoc _ _ _
    exact ⟨hnext.framing, hnext.line_low, hcount⟩

/-! ## The first byte after Idle -/

/-- A byte put on an Idle engine is the only one queued, and the engine loads it one bit period later (R141, R148). -/
theorem execTxput_idle {s t : State} {b : Byte} (hinv : Inv s) (hc : s.configured = true) (hidle : s.txState = .idle)
    (hx : execTxput b s = .next t) :
    t.txState = .framing ∧ t.txLine = true ∧ t.txCount = s.txCount ∧ t.bitsRemaining = 0 ∧ contents .tx t = [b] ∧
      ticksUntil t.params t.timer t.txCmp = s.ticksPerBit := by
  obtain ⟨hclock, ⟨htx, -⟩, -⟩ := inv_iff.mp hinv
  obtain ⟨hempty, hbits, hline⟩ := htx.idle hidle
  have hindices : IndicesOk .tx s := ⟨htx.fifo.head_lt, htx.fifo.tail_lt⟩
  have hnone : contents .tx s = [] := (empty_iff_contents hindices).mp hempty
  have hroom : full .tx s = false := by
    have hslots : 2 ≤ slots s .tx := hclock.legal.1
    rw [Bool.eq_false_iff, ne_eq, full_iff_contents hslots hindices, hnone, List.length_nil]
    omega
  cases (execTxput_room b hc hroom hindices.1).symm.trans hx
  refine ⟨by simp, by simpa using hline hc, by simp, by simpa using hbits, ?_, ?_⟩
  · rw [contents_tx_respond_kick]
    exact (contents_pushed b hindices hroom htx.fifo.wf).trans (congrArg (· ++ [b]) hnone)
  · have hcmp := ticksUntil_schedule hclock.timer_lt hclock.ticksPerBit_lt
    simpa [hidle] using hcmp

/-- Settles O58: the compare channel waits one bit period, and then the load starts the frame. -/
theorem byteOnAnIdleEngineStartsOneBitPeriodLater : Obligations.ByteOnAnIdleEngineStartsOneBitPeriodLater := by
  intro s t b levels hinv hc hidle hx hlen
  obtain ⟨hf, hline, hcount, hbits, hq, hleft⟩ := execTxput_idle hinv hc hidle hx
  have ht : Inv t := inv_txput hinv hx
  have hperiod : 1 ≤ s.ticksPerBit := by
    obtain ⟨hclock, -⟩ := inv_iff.mp hinv
    exact hclock.one_le_ticksPerBit hc
  obtain rfl | ⟨ls, l, rfl⟩ := levels.eq_nil_or_concat'
  · rw [← hlen] at hperiod
    cases hperiod
  rw [List.length_append, List.length_singleton] at hlen
  obtain ⟨t1, hrun, hview, hfires⟩ := txCompareFiresAfterItsDelay t ls ht hf (by omega)
  obtain ⟨hinv1, hsetup⟩ := inv_runTicks ht hrun
  obtain ⟨hstate1, -, -, hbits1, hline1, hfifo1, hcount1⟩ := TxView.mk.inj hview
  have hf1 : t1.txState = .framing := hstate1.trans hf
  have hmatch : txMatch (advanceTimer t1) = true := hfires.mpr (by omega)
  have hends : FrameEnds t1 :=
    ⟨hinv1, hf1, hbits1.trans hbits, ((txMatch_advanceTimer_iff hinv1 hf1).mp hmatch).symm⟩
  have hq1 : contents .tx t1 = [b] := (contents_tx_congr (congrArg SetupView.params hsetup) hfifo1).trans hq
  obtain ⟨t2, ht2, hsends⟩ := (hends.driveRx l).tick_sendsAt l hq1
  refine ⟨t1, t2, ?_, hline1.trans hline, hcount1.trans hcount, runTicks_concat hrun ht2,
    hsends.line_low, ?_, hsends.frame_after_load⟩
  · rw [List.dropLast_concat]
    exact hrun
  · calc t2.txCount = t1.txCount + 1 := hsends.count
      _ = s.txCount + 1 := by rw [hcount1, hcount]

end Sys2Proof.Machine
end

section
/-! PROOFS. The detector and the events of the receive engine, each as one update of the state (42_receive R161 to R164). -/

namespace Sys2Proof.Machine

/-- The detector in the spec's terms (R161). -/
theorem edgeLatch_eq (l : Bool) (s : State) :
    edgeLatch l s = { s with
      edgeFlag := if s.configured = true ∧ s.rxPrev = true ∧ l = false then true else s.edgeFlag
      rxPrev := l } := by
  simp only [edgeLatch, fallingEdge_iff]

/-- Settles O25: the condition of the detector is a falling edge on a configured block. -/
theorem edgeLatchSetsTheFlagOnAFallingEdge : Obligations.EdgeLatchSetsTheFlagOnAFallingEdge := fun s =>
  congrArg Host.Outcome.next (edgeLatch_eq s.rxIn s)

/-- Settles O26: RX_EDGE is this update by definition. -/
theorem rxEdgeBeginsAByte : Obligations.RxEdgeBeginsAByte := fun _ => rfl

/-- A sample but the eighth only reads its bit (R163). -/
theorem rxSample_early (l : Bool) {s : State} (h : s.bitsSampled + 1 ≠ 8) :
    rxSample l s = .ok (sampleBit l s) := if_neg h

/-- The eighth sample is the one after seven (R163). -/
theorem bitsSampled_eq_seven {s : State} (h : s.bitsSampled + 1 = 8) : s.bitsSampled = 7 := by bv_omega

theorem rxSample_drops (l : Bool) {s : State} (h : s.bitsSampled + 1 = 8) (hf : full .rx s = true) :
    rxSample l s = .ok (endByte false (sampleBit l s)) :=
  (rxSample_eighth l (bitsSampled_eq_seven h)).trans (rxDone_full hf)

theorem rxSample_stores (l : Bool) {s : State} (h : s.bitsSampled + 1 = 8) (hf : full .rx s = false)
    (hi : s.rxFifo.head < s.params.nRx) : rxSample l s = .ok (byteStored (sampleBit l s)) :=
  (rxSample_eighth l (bitsSampled_eq_seven h)).trans (rxDone_room hf hi)

/-- The new bit enters at bit 7 (R163). -/
theorem shiftIn_eq (acc : Byte) (l : Bool) : shiftIn acc l = (acc >>> 1) ||| ((if l then 1#8 else 0#8) <<< 7) := by
  cases l <;> rfl

/-- A sample in the spec's terms (R163). -/
theorem sampleBit_eq (l : Bool) (s : State) :
    sampleBit l s = { s with
      accumulator := (s.accumulator >>> 1) ||| ((if l then 1#8 else 0#8) <<< 7)
      bitsSampled := s.bitsSampled + 1
      rxCmp := (s.rxCmp + s.ticksPerBit) % 2 ^ s.params.tw } := by
  rw [← shiftIn_eq]
  rfl

/-- Settles O27: a sample reads its bit, and the eighth goes on with RX_DONE. -/
theorem rxSampleShiftsTheBitIn : Obligations.RxSampleShiftsTheBitIn := by
  intro s s1
  have hs1 : sampleBit s.rxIn s = s1 := sampleBit_eq s.rxIn s
  refine ⟨fun hearly => ?_, fun height => ?_⟩
  · exact congrArg toOutcome ((rxSample_early s.rxIn hearly).trans (congrArg Except.ok hs1))
  · exact congrArg toOutcome ((rxSample_eighth s.rxIn (bitsSampled_eq_seven height)).trans (congrArg rxDone hs1))

/-- Settles O28: the byte finds room, its slot in range, or the FIFO full. -/
theorem rxDoneStoresOrDropsTheByte : Obligations.RxDoneStoresOrDropsTheByte := fun _ =>
  ⟨fun hroom hi => congrArg toOutcome (rxDone_room hroom hi), fun hfull => congrArg toOutcome (rxDone_full hfull)⟩

end Sys2Proof.Machine
end

section
/-! PROOFS. What a tick does to the RX side: the edge latch and the RX part read the level, the RX side and the clock only (42_receive R168). -/

namespace Sys2Proof.Machine

/-! ## The events of the RX part (R127) -/

theorem rxPart_edge (l : Bool) {s : State} (he : edgeTaken s = true) : rxPart l s = .ok (rxEdge s) := if_pos he

theorem rxSample_of_rxPart {l : Bool} {s t : State} (h : rxPart l s = .ok t) (he : edgeTaken s = false)
    (hm : rxMatch s = true) : rxSample l s = .ok t := by
  rwa [rxPart, if_neg (by simp [he]), if_pos hm] at h

theorem rxPart_silent (l : Bool) {s : State} (he : edgeTaken s = false) (hm : rxMatch s = false) :
    rxPart l s = .ok s := by
  rw [rxPart, if_neg (by simp [he]), if_neg (by simp [hm])]

/-! ## What the RX part reads -/

/-- RX_SAMPLE takes two states that agree in the RX side and the clock to two that agree in the RX side (R163, R164, R168). -/
theorem rxSample_rxView_congr {l : Bool} {s t s' t' : State} (hclock : clockView s = clockView t)
    (hview : rxView s = rxView t) (hs : rxSample l s = .ok s') (ht : rxSample l t = .ok t') : rxView s' = rxView t' := by
  obtain ⟨⟩ := s
  obtain ⟨⟩ := t
  cases hclock
  cases hview
  rcases rxSample_cases hs with ⟨hb, rfl⟩ | ⟨hb, hf, rfl⟩ | ⟨hb, hf, hi, rfl⟩
  · cases ht.symm.trans (rxSample_early l hb)
    rfl
  · cases ht.symm.trans (rxSample_drops l hb hf)
    rfl
  · cases ht.symm.trans (rxSample_stores l hb hf hi)
    rfl

/-- The RX part takes two states that agree in the RX side and the clock to two that agree in the RX side (R168). -/
theorem rxPart_rxView_congr {l : Bool} {s t s' t' : State} (hclock : clockView s = clockView t)
    (hview : rxView s = rxView t) (hs : rxPart l s = .ok s') (ht : rxPart l t = .ok t') : rxView s' = rxView t' := by
  obtain ⟨⟩ := s
  obtain ⟨⟩ := t
  cases hclock
  cases hview
  rcases rxPart_cases hs with ⟨he, rfl⟩ | ⟨he, hm, hx⟩ | ⟨he, hm, rfl⟩
  · cases ht.symm.trans (rxPart_edge l he)
    rfl
  · refine rxSample_rxView_congr ?_ ?_ hx (rxSample_of_rxPart ht he hm)
    · rfl
    · rfl
  · cases ht.symm.trans (rxPart_silent l he hm)
    rfl

/-- The RX side after a tick is the one its RX part leaves (R127). -/
theorem tick_rxView_of_rxPart {l : Bool} {s t u : State} (h : tick l s = .ok t)
    (hu : rxPart l (edgeLatch l (advanceTimer s)) = .ok u) : rxView t = rxView u := by
  obtain ⟨u', hu', ht⟩ := tick_cases h
  cases hu.symm.trans hu'
  exact txPart_rxView ht

/-- A tick takes two states that agree in the RX side and the clock to two that agree in the RX side (R168). -/
theorem tick_rxView_congr {l : Bool} {s t s' t' : State} (hclock : clockView s = clockView t)
    (hview : rxView s = rxView t) (hs : tick l s = .ok s') (ht : tick l t = .ok t') : rxView s' = rxView t' := by
  have hlatch : rxView (edgeLatch l (advanceTimer s)) = rxView (edgeLatch l (advanceTimer t)) := by
    obtain ⟨⟩ := s
    obtain ⟨⟩ := t
    cases hclock
    cases hview
    rfl
  have hadvance : clockView (edgeLatch l (advanceTimer s)) = clockView (edgeLatch l (advanceTimer t)) :=
    clockView_advanceTimer_congr hclock
  obtain ⟨u, hu, -⟩ := tick_cases hs
  obtain ⟨v, hv, -⟩ := tick_cases ht
  calc rxView s' = rxView u := tick_rxView_of_rxPart hs hu
    _ = rxView v := rxPart_rxView_congr hadvance hlatch hu hv
    _ = rxView t' := (tick_rxView_of_rxPart ht hv).symm

/-- Settles O52: the counters advance alike, and the edge latches and the RX parts read the same. -/
theorem rxSideIgnoresTheTxSide : Obligations.RxSideIgnoresTheTxSide := by
  intro s t s' t' hclock hview hlevel hs ht
  have hs : tick s.rxIn s = .ok s' := toOutcome_eq_next hs
  have ht : tick s.rxIn t = .ok t' := hlevel ▸ toOutcome_eq_next ht
  refine ⟨?_, tick_rxView_congr hclock hview hs ht⟩
  calc clockView s' = clockView (advanceTimer s) := tick_clockView hs
    _ = clockView (advanceTimer t) := clockView_advanceTimer_congr hclock
    _ = clockView t' := (tick_clockView ht).symm

end Sys2Proof.Machine
end

section
/-! PROOFS. The RX events in a tick: nothing fires, or a sample is read (40_bitclock R127, R128, 42_receive R162 to R164). -/

namespace Sys2Proof.Machine

theorem contents_rx_congr {s t : State} (hparams : t.params = s.params) (hfifo : t.rxFifo = s.rxFifo) :
    contents .rx t = contents .rx s := by
  simp only [contents_eq, slots, fifo, hparams, hfifo]

theorem full_rx_congr {s t : State} (hparams : t.params = s.params) (hfifo : t.rxFifo = s.rxFifo) :
    full .rx t = full .rx s := by
  simp only [full, slots, fifo, hparams, hfifo]

theorem tick_timer {l : Bool} {s t : State} (h : tick l s = .ok t) : t.timer = wrap s.params (s.timer + 1) :=
  congrArg EventFrame.timer (tick_eventFrame h)

theorem edgeArmed_iff {s : State} : edgeArmed s = true ↔ s.configured = true ∧ s.rxState = .idle := by
  simp [edgeArmed]

/-- A Sampling engine takes no edge (R160, R162). -/
theorem edgeTaken_of_sampling {s : State} (hs : s.rxState = .sampling) : edgeTaken s = false := by
  simp [edgeTaken, edgeArmed, hs]

/-- The next tick reads a sample of a Sampling engine exactly where one tick is left (R128). -/
theorem rxMatch_advanceTimer_iff {s : State} (h : Inv s) (hs : s.rxState = .sampling) :
    rxMatch (advanceTimer s) = true ↔ 1 = ticksUntil s.params s.timer s.rxCmp := by
  obtain ⟨hclock, -, ⟨hrx, hschedule⟩, -⟩ := inv_iff.mp h
  obtain ⟨hone, -⟩ := hschedule hs
  have hadvance := ticksUntil_advance hclock.timer_lt hrx.rxCmp_lt hone
  rw [rxMatch_iff, advanceTimer_rxState, advanceTimer_timer, advanceTimer_rxCmp, and_iff_right hs,
    ← ticksUntil_eq_zero (wrap_lt _ _) hrx.rxCmp_lt, hadvance]
  omega

/-- A tick without an RX event leaves the RX side as the edge latch does (R127, R161). -/
theorem tick_rxView_of_silent {l : Bool} {s t : State} (h : tick l s = .ok t)
    (he : edgeTaken (edgeLatch l s) = false) (hm : rxMatch (advanceTimer s) = false) :
    rxView t = rxView (edgeLatch l s) :=
  tick_rxView_of_rxPart (u := edgeLatch l (advanceTimer s)) h (rxPart_silent l he hm)

/-- A tick with a sample leaves the RX side as RX_SAMPLE does (R127, R163). -/
theorem tick_rxView_of_sample {l : Bool} {s t : State} (h : tick l s = .ok t) (hs : s.rxState = .sampling)
    (hm : rxMatch (advanceTimer s) = true) :
    ∃ u, rxSample l (edgeLatch l (advanceTimer s)) = .ok u ∧ rxView t = rxView u := by
  obtain ⟨u, hu, -⟩ := tick_cases h
  have hnone : edgeTaken (edgeLatch l (advanceTimer s)) = false := edgeTaken_of_sampling hs
  exact ⟨u, rxSample_of_rxPart hu hnone hm, tick_rxView_of_rxPart h hu⟩

/-- What RX_DONE leaves (R164). -/
theorem rxDone_leaves {s t : State} (h : rxDone s = .ok t) :
    t.rxState = .idle ∧ t.edgeFlag = false ∧ t.accumulator = s.accumulator ∧ t.rxPrev = s.rxPrev ∧
      t.edgeCount = s.edgeCount ∧ t.params = s.params := by
  rcases rxDone_cases h with ⟨-, rfl⟩ | ⟨-, -, rfl⟩ <;> exact ⟨rfl, rfl, rfl, rfl, rfl, rfl⟩

/-- The bytes that RX_DONE leaves in the RX FIFO (R164, R76). -/
theorem rxDone_contents {s t : State} (h : rxDone s = .ok t) (hn : 2 ≤ s.params.nRx)
    (hfifo : s.rxFifo.Ok s.params.nRx) :
    contents .rx t = if full .rx s then contents .rx s else contents .rx s ++ [s.accumulator] := by
  obtain ⟨hroom, hdrop, -⟩ := rxFifoIsAQueue s t hn ⟨hfifo.head_lt, hfifo.tail_lt⟩ hfifo.wf
  have hx : exec .rxDone s = .next t := congrArg toOutcome h
  cases hf : full .rx s with
  | true => exact hdrop hf hx
  | false => exact hroom hf hx

end Sys2Proof.Machine
end

section
/-! PROOFS. A byte from the line: sample `k` comes `p + p div 2 + k p` ticks after the edge, and the eighth ends the byte (42_receive R162 to R166). -/

namespace Sys2Proof.Machine

/-! ## The levels of a run of ticks -/

/-- The levels of `n` ticks, from tick `j` on, of a line that has level `line i` at tick `i`. -/
def levelsFrom (line : Nat → Bool) (j n : Nat) : List Bool := (List.range' j n).map line

theorem levelsFrom_succ (line : Nat → Bool) (j n : Nat) :
    levelsFrom line j (n + 1) = line j :: levelsFrom line (j + 1) n := by
  rw [levelsFrom, List.range'_succ, List.map_cons, levelsFrom]

@[simp] theorem length_levelsFrom (line : Nat → Bool) (j n : Nat) : (levelsFrom line j n).length = n := by
  simp [levelsFrom]

/-- Any list of levels is the run of a line. -/
theorem levelsFrom_getD (levels : List Bool) :
    levelsFrom (fun i => levels.getD i false) 0 levels.length = levels := by
  apply List.ext_getElem
  · simp
  · intro i _ hi
    simp [levelsFrom, hi]

/-! ## The bits read -/

/-- A sample moves every bit down by one and enters at bit 7 (R163). -/
theorem getLsbD_shiftIn (acc : Byte) (l : Bool) {i : Nat} (hi : i < 8) :
    (shiftIn acc l).getLsbD i = if i = 7 then l else acc.getLsbD (i + 1) := by
  revert acc l
  interval_cases i <;> decide

/-- After `m` samples, of the levels `level 0` to `level (m - 1)`, the last one read is bit 7 and each earlier one a bit lower
(R163). -/
def BitsRead (level : Nat → Bool) (m : Nat) (acc : Byte) : Prop := ∀ k < m, acc.getLsbD (8 - m + k) = level k

theorem BitsRead.zero (level : Nat → Bool) (acc : Byte) : BitsRead level 0 acc := fun _ hk => absurd hk (Nat.not_lt_zero _)

theorem BitsRead.shiftIn {level : Nat → Bool} {m : Nat} {acc : Byte} (h : BitsRead level m acc) (hm : m < 8) :
    BitsRead level (m + 1) (shiftIn acc (level m)) := by
  intro k hk
  rw [getLsbD_shiftIn acc (level m) (by omega)]
  split
  · next hlast => rw [(by omega : k = m)]
  · next hearlier =>
    rw [← h k (by omega)]
    congr 1
    omega

/-- After eight samples bit `k` is what sample `k` read (R163). -/
theorem BitsRead.eight {level : Nat → Bool} {acc : Byte} (h : BitsRead level 8 acc) {k : Nat} (hk : k < 8) :
    acc.getLsbD k = level k := by
  simpa using h k hk

/-! ## The ticks of the samples -/

/-- Sample `k` comes this many ticks after the edge (R130, R165). -/
def sampleTick (p k : Nat) : Nat := firstSampleDelay p + k * p

theorem sampleTick_zero (p : Nat) : sampleTick p 0 = firstSampleDelay p := by
  simp [sampleTick]

theorem sampleTick_succ (p k : Nat) : sampleTick p (k + 1) = sampleTick p k + p := by
  simp only [sampleTick, Nat.succ_mul, Nat.add_assoc]

theorem sampleTick_le {p k m : Nat} (h : k ≤ m) : sampleTick p k ≤ sampleTick p m :=
  Nat.add_le_add_left (Nat.mul_le_mul_right p h) _

/-- The last sample comes `8p + p div 2` ticks after the edge (R165). -/
theorem sampleTick_seven (p : Nat) : sampleTick p 7 = 8 * p + p / 2 := by
  simp only [sampleTick, firstSampleDelay]
  omega

/-! ## A byte under way -/

/-- What sample `k` reads on a line that has level `line i` at `i` ticks after the edge (R165). -/
def sampleLevel (line : Nat → Bool) (p k : Nat) : Bool := line (sampleTick p k)

/-- `j` ticks after an edge in state `origin`: the engine has read the samples that came so far. -/
structure ReadsAt (origin : State) (line : Nat → Bool) (j : Nat) (s : State) : Prop where
  inv : Inv s
  setup : setupView s = setupView origin
  sampling : s.rxState = .sampling
  fifo : s.rxFifo = origin.rxFifo
  edges : s.edgeCount = origin.edgeCount + 1
  bits : BitsRead (sampleLevel line origin.ticksPerBit) s.bitsSampled.toNat s.accumulator
  due : j + ticksUntil s.params s.timer s.rxCmp = sampleTick origin.ticksPerBit s.bitsSampled.toNat

/-- After the last sample of a byte that an edge in state `origin` began (R164). -/
structure HasRead (origin : State) (line : Nat → Bool) (s : State) : Prop where
  inv : Inv s
  setup : setupView s = setupView origin
  idle : s.rxState = .idle
  no_edge : s.edgeFlag = false
  prev : s.rxPrev = sampleLevel line origin.ticksPerBit 7
  edges : s.edgeCount = origin.edgeCount + 1
  bits : BitsRead (sampleLevel line origin.ticksPerBit) 8 s.accumulator
  bytes : contents .rx s = if full .rx origin then contents .rx origin else contents .rx origin ++ [s.accumulator]

/-- A falling edge on an armed detector begins a byte (R161, R162). -/
theorem tick_edge {s : State} (line : Nat → Bool) (hinv : Inv s) (harmed : edgeArmed s = true) (hprev : s.rxPrev = true) :
    ∃ t, tick false (driveRx false s) = .ok t ∧ ReadsAt s line 0 t := by
  obtain ⟨hc, hidle⟩ := edgeArmed_iff.mp harmed
  obtain ⟨hclock, -⟩ := inv_iff.mp hinv
  obtain ⟨t, ht⟩ := inv_tick_answers false (inv_driveRx false hinv)
  have hfalls : fallingEdge false (advanceTimer (driveRx false s)) = true := fallingEdge_iff.mpr ⟨hc, hprev, rfl⟩
  have htaken : edgeTaken (edgeLatch false (advanceTimer (driveRx false s))) = true :=
    edgeTaken_iff.mpr ⟨hc, hidle, if_pos hfalls⟩
  obtain ⟨-, hstate, hcmp, -, hsampled, -, -, hfifo, -, hedges⟩ :=
    RxView.mk.inj (tick_rxView_of_rxPart ht (rxPart_edge false htaken))
  have hsetup : setupView t = setupView (driveRx false s) := tick_setupView ht
  have hparams : t.params = s.params := congrArg SetupView.params hsetup
  have hnone : t.bitsSampled.toNat = 0 := congrArg BitVec.toNat hsampled
  refine ⟨t, ht, inv_tick (inv_driveRx false hinv) ht, hsetup, hstate, hfifo, hedges, ?_, ?_⟩
  · rw [hnone]
    exact BitsRead.zero _ _
  · rw [hnone, Nat.zero_add, sampleTick_zero, hparams, hcmp, tick_timer ht]
    exact ticksUntil_schedule (wrap_lt _ _) (hclock.firstSampleDelay_lt hc)

section
variable {origin s : State} {line : Nat → Bool} {j : Nat}

theorem ReadsAt.driveRx (l : Bool) (h : ReadsAt origin line j s) : ReadsAt origin line j (driveRx l s) :=
  { h with inv := inv_driveRx l h.inv }

theorem ReadsAt.rxOk (h : ReadsAt origin line j s) : RxOk s := by
  obtain ⟨-, -, ⟨hrx, -⟩, -⟩ := inv_iff.mp h.inv
  exact hrx

theorem ReadsAt.sampled_le (h : ReadsAt origin line j s) : s.bitsSampled.toNat ≤ 7 := by
  have hle := h.rxOk.sampling.2 h.sampling
  bv_omega

theorem ReadsAt.one_le_left (h : ReadsAt origin line j s) : 1 ≤ ticksUntil s.params s.timer s.rxCmp := by
  obtain ⟨-, -, ⟨-, hschedule⟩, -⟩ := inv_iff.mp h.inv
  exact (hschedule h.sampling).1

theorem ReadsAt.params_eq (h : ReadsAt origin line j s) : s.params = origin.params := congrArg SetupView.params h.setup

theorem ReadsAt.period_eq (h : ReadsAt origin line j s) : s.ticksPerBit = origin.ticksPerBit :=
  congrArg SetupView.ticksPerBit h.setup

theorem ReadsAt.period_pos (h : ReadsAt origin line j s) : 0 < origin.ticksPerBit := by
  obtain ⟨hclock, -⟩ := inv_iff.mp h.inv
  exact h.period_eq ▸ hclock.one_le_ticksPerBit (h.rxOk.configured h.sampling)

/-- The byte is under way only before the tick of the last sample. -/
theorem ReadsAt.before_end (h : ReadsAt origin line j s) : j < sampleTick origin.ticksPerBit 7 := by
  have hdue := h.due
  have hone := h.one_le_left
  have hle := sampleTick_le (p := origin.ticksPerBit) h.sampled_le
  omega

/-- With one tick left, the next tick is that of the next sample, and its level is the next bit (R163). -/
theorem ReadsAt.bits_next (h : ReadsAt origin line j s) (hleft : ticksUntil s.params s.timer s.rxCmp = 1) :
    BitsRead (sampleLevel line origin.ticksPerBit) (s.bitsSampled.toNat + 1) (shiftIn s.accumulator (line (j + 1))) := by
  have hnow : j + 1 = sampleTick origin.ticksPerBit s.bitsSampled.toNat := hleft ▸ h.due
  rw [hnow]
  exact h.bits.shiftIn (Nat.lt_succ_of_le h.sampled_le)

/-- A tick between two samples reads nothing, whatever the level (R166). -/
theorem ReadsAt.tick_between (l : Bool) (h : ReadsAt origin line j s) (hleft : 1 < ticksUntil s.params s.timer s.rxCmp) :
    ∃ t, tick l s = .ok t ∧ ReadsAt origin line (j + 1) t := by
  obtain ⟨hclock, -⟩ := inv_iff.mp h.inv
  obtain ⟨t, ht⟩ := inv_tick_answers l h.inv
  have hm : rxMatch (advanceTimer s) = false := by
    rw [Bool.eq_false_iff, ne_eq, rxMatch_advanceTimer_iff h.inv h.sampling]
    omega
  have hnone : edgeTaken (edgeLatch l s) = false := edgeTaken_of_sampling h.sampling
  obtain ⟨-, hstate, hcmp, hacc, hsampled, -, -, hfifo, -, hedges⟩ := RxView.mk.inj (tick_rxView_of_silent ht hnone hm)
  have hsetup := tick_setupView ht
  have hparams : t.params = s.params := congrArg SetupView.params hsetup
  have hless : ticksUntil t.params t.timer t.rxCmp = ticksUntil s.params s.timer s.rxCmp - 1 := by
    rw [hparams, tick_timer ht, hcmp]
    exact ticksUntil_advance hclock.timer_lt h.rxOk.rxCmp_lt h.one_le_left
  refine ⟨t, ht, inv_tick h.inv ht, hsetup.trans h.setup, hstate.trans h.sampling, hfifo.trans h.fifo,
    hedges.trans h.edges, ?_, ?_⟩
  · rw [hsampled, hacc]
    exact h.bits
  · have hdue := h.due
    rw [hless, hsampled, edgeLatch_bitsSampled, ← hdue]
    omega

/-- The tick of a sample but the last reads its level, and the next sample is a bit period away (R163). -/
theorem ReadsAt.tick_sample (h : ReadsAt origin line j s) (hleft : ticksUntil s.params s.timer s.rxCmp = 1)
    (hmore : s.bitsSampled.toNat < 7) : ∃ t, tick (line (j + 1)) s = .ok t ∧ ReadsAt origin line (j + 1) t := by
  obtain ⟨hclock, -⟩ := inv_iff.mp h.inv
  obtain ⟨t, ht⟩ := inv_tick_answers (line (j + 1)) h.inv
  have hm : rxMatch (advanceTimer s) = true := (rxMatch_advanceTimer_iff h.inv h.sampling).mpr hleft.symm
  obtain ⟨u, hu, hview⟩ := tick_rxView_of_sample ht h.sampling hm
  have hearly : s.bitsSampled + 1 ≠ 8 := by bv_omega
  cases hu.symm.trans (rxSample_early _ hearly)
  obtain ⟨-, hstate, hcmp, hacc, hsampled, -, -, hfifo, -, hedges⟩ := RxView.mk.inj hview
  have hsetup := tick_setupView ht
  have hparams : t.params = s.params := congrArg SetupView.params hsetup
  have hcount : t.bitsSampled.toNat = s.bitsSampled.toNat + 1 := by
    rw [hsampled]
    simp only [sampleBit_bitsSampled, edgeLatch_bitsSampled, advanceTimer_bitsSampled]
    bv_omega
  obtain ⟨-, (hnow : wrap s.params (s.timer + 1) = s.rxCmp)⟩ := rxMatch_iff.mp hm
  have hnext : ticksUntil t.params t.timer t.rxCmp = origin.ticksPerBit := by
    rw [hparams, tick_timer ht, hnow, hcmp, ← h.period_eq]
    exact ticksUntil_schedule h.rxOk.rxCmp_lt hclock.ticksPerBit_lt
  refine ⟨t, ht, inv_tick h.inv ht, hsetup.trans h.setup, hstate.trans h.sampling, hfifo.trans h.fifo,
    hedges.trans h.edges, ?_, ?_⟩
  · rw [hcount, hacc]
    exact h.bits_next hleft
  · rw [hcount, hnext, sampleTick_succ, ← h.due, hleft]

/-- The tick of the last sample reads its level and ends the byte (R163, R164). -/
theorem ReadsAt.tick_last (h : ReadsAt origin line j s) (hleft : ticksUntil s.params s.timer s.rxCmp = 1)
    (hlast : s.bitsSampled.toNat = 7) : ∃ t, tick (line (j + 1)) s = .ok t ∧ HasRead origin line t := by
  obtain ⟨hclock, -⟩ := inv_iff.mp h.inv
  obtain ⟨t, ht⟩ := inv_tick_answers (line (j + 1)) h.inv
  have hm : rxMatch (advanceTimer s) = true := (rxMatch_advanceTimer_iff h.inv h.sampling).mpr hleft.symm
  obtain ⟨u, hu, hview⟩ := tick_rxView_of_sample ht h.sampling hm
  have h7 : s.bitsSampled = 7 := by bv_omega
  have hdone := (rxSample_eighth (s := edgeLatch (line (j + 1)) (advanceTimer s)) _ h7).symm.trans hu
  obtain ⟨hidle, hflag, haccDone, hprevDone, hedgesDone, hparamsDone⟩ := rxDone_leaves hdone
  obtain ⟨-, hstate, -, hacc, -, hprev, hedge, hfifo, -, hedges⟩ := RxView.mk.inj hview
  have hsetup := tick_setupView ht
  have hparams : t.params = u.params := (congrArg SetupView.params hsetup).trans hparamsDone.symm
  have hbyte : t.accumulator = shiftIn s.accumulator (line (j + 1)) := hacc.trans haccDone
  have hbits := h.bits_next hleft
  have hnow : j + 1 = sampleTick origin.ticksPerBit 7 := hlast ▸ hleft ▸ h.due
  obtain ⟨-, hslots, -⟩ := hclock.legal
  refine ⟨t, ht, inv_tick h.inv ht, hsetup.trans h.setup, hstate.trans hidle, hedge.trans hflag, ?_,
    hedges.trans (hedgesDone.trans h.edges), ?_, ?_⟩
  · rw [sampleLevel, ← hnow]
    exact hprev.trans hprevDone
  · rw [hbyte]
    rwa [hlast] at hbits
  · rw [contents_rx_congr hparams hfifo, rxDone_contents hdone hslots h.rxOk.fifo, hbyte,
      ← contents_rx_congr h.params_eq h.fifo, ← full_rx_congr h.params_eq h.fifo]
    rfl

/-- A tick before that of the last sample goes on with the byte. -/
theorem ReadsAt.tick_before_end (h : ReadsAt origin line j s) (hlt : j + 1 < sampleTick origin.ticksPerBit 7) :
    ∃ t, tick (line (j + 1)) s = .ok t ∧ ReadsAt origin line (j + 1) t := by
  have hone := h.one_le_left
  by_cases hleft : ticksUntil s.params s.timer s.rxCmp = 1
  · have hmore : s.bitsSampled.toNat ≠ 7 := by
      intro hlast
      have hnow : j + 1 = sampleTick origin.ticksPerBit 7 := hlast ▸ hleft ▸ h.due
      omega
    exact h.tick_sample hleft (Nat.lt_of_le_of_ne h.sampled_le hmore)
  · exact h.tick_between _ (by omega)

/-- The tick after which all samples have come ends the byte. -/
theorem ReadsAt.tick_end (h : ReadsAt origin line j s) (hend : j + 1 = sampleTick origin.ticksPerBit 7) :
    ∃ t, tick (line (j + 1)) s = .ok t ∧ HasRead origin line t := by
  have hone := h.one_le_left
  have hdue := h.due
  have hlast : s.bitsSampled.toNat = 7 := by
    by_contra hne
    have hpos := h.period_pos
    have hle := h.sampled_le
    have hnext := sampleTick_le (p := origin.ticksPerBit) (by omega : s.bitsSampled.toNat + 1 ≤ 7)
    rw [sampleTick_succ] at hnext
    omega
  rw [hlast] at hdue
  exact h.tick_last (by omega) hlast

/-- The rest of the ticks up to the last sample end the byte, whatever the line does between the samples (R165, R166). -/
theorem ReadsAt.runTicks {n : Nat} (h : ReadsAt origin line j s) (hend : j + n = sampleTick origin.ticksPerBit 7) :
    ∃ t, runTicks (levelsFrom line (j + 1) n) s = .next t ∧ HasRead origin line t := by
  induction n generalizing s j with
  | zero => exact absurd h.before_end (by omega)
  | succ n ih =>
    rw [levelsFrom_succ]
    have hdriven := h.driveRx (line (j + 1))
    cases n with
    | zero =>
      obtain ⟨t, ht, hread⟩ := hdriven.tick_end hend
      exact ⟨t, runTicks_cons [] ht, hread⟩
    | succ n =>
      obtain ⟨u, hu, hreads⟩ := hdriven.tick_before_end (by omega)
      obtain ⟨t, ht, hread⟩ := ih hreads (by omega)
      exact ⟨t, (runTicks_cons _ hu).trans ht, hread⟩

end

/-- A falling edge on an armed detector makes one byte of the levels sampled (R165, R166). -/
theorem runTicks_edge {s : State} {line : Nat → Bool} (hinv : Inv s) (harmed : edgeArmed s = true)
    (hprev : s.rxPrev = true) (hedge : line 0 = false) :
    ∃ t, runTicks (levelsFrom line 0 (sampleTick s.ticksPerBit 7 + 1)) s = .next t ∧ HasRead s line t := by
  obtain ⟨u, hu, hreads⟩ := tick_edge line hinv harmed hprev
  obtain ⟨t, ht, hread⟩ := hreads.runTicks (Nat.zero_add _)
  rw [levelsFrom_succ, hedge]
  exact ⟨t, (runTicks_cons _ hu).trans ht, hread⟩

/-- Settles O56: the list of levels is the run of a line that is low at the edge. -/
theorem fallingEdgeMakesOneByteOfTheSampledLevels : Obligations.FallingEdgeMakesOneByteOfTheSampledLevels := by
  intro s levels hinv harmed _ hprev hhead hlen
  have hlow : levels.getD 0 false = false := by
    rw [List.getD_eq_getElem?_getD, ← List.head?_eq_getElem?, hhead]
    rfl
  obtain ⟨t, ht, hread⟩ := runTicks_edge (line := fun i => levels.getD i false) hinv harmed hprev hlow
  rw [sampleTick_seven, ← hlen, levelsFrom_getD] at ht
  exact ⟨t, t.accumulator, ht, hread.idle, hread.no_edge, rfl, hread.edges, fun k hk => hread.bits.eight hk, hread.bytes⟩

end Sys2Proof.Machine
end

section
/-! PROOFS. A loop-back wire: a tick reads the level the frame drove just before it, so the line of the receiver is the frame of the sender (42_receive R167; 92_eei_decisions D29). -/

namespace Sys2Proof.Machine

/-! ## Ticks of a loop-back wire -/

theorem loopLevel_of_driven {s : State} (h : s.txOE = true) : loopLevel s = s.txLine := if_pos h

/-- A run of loop-back ticks goes on from the state its first tick leaves. -/
theorem loopTicks_succ {s t : State} (n : Nat) (h : tick (loopLevel s) (driveRx (loopLevel s) s) = .ok t) :
    loopTicks (n + 1) s = loopTicks n t := by
  have hexec : execTick (driveRx (loopLevel s) s) = .next t := congrArg toOutcome h
  rw [loopTicks, hexec]
  rfl

theorem loopTicks_add (m n : Nat) (s : State) : loopTicks (m + n) s = andThen (loopTicks m s) (loopTicks n) := by
  induction m generalizing s with
  | zero =>
    rw [Nat.zero_add]
    rfl
  | succ m ih =>
    rw [Nat.succ_add, loopTicks, loopTicks]
    cases execTick (driveRx (loopLevel s) s) with
    | next t => exact ih t
    | fault f => rfl
    | refused r => rfl

/-- Loop-back ticks after others. -/
theorem loopTicks_trans {m n : Nat} {s t u : State} (hm : loopTicks m s = .next t) (hn : loopTicks n t = .next u) :
    loopTicks (m + n) s = .next u := by
  rw [loopTicks_add, hm]
  exact hn

/-! ## The line of a frame -/

/-- The level of the line `i` ticks after the load of `b` (R146, R147). -/
def frameLevel (b : Byte) (p i : Nat) : Bool := (buildFrame b).getLsbD (i / p)

/-- The start bit is low (R144). -/
theorem frameLevel_zero (b : Byte) (p : Nat) : frameLevel b p 0 = false := by
  rw [frameLevel, Nat.zero_div]
  exact lineBit_buildFrame b

/-- A sample comes within the bit it reads (R167). -/
theorem sampleTick_div {p : Nat} (hp : 0 < p) (k : Nat) : sampleTick p k / p = k + 1 := by
  have hsplit : sampleTick p k = p / 2 + p * (k + 1) := by
    rw [sampleTick, firstSampleDelay, Nat.mul_succ, Nat.mul_comm p k]
    omega
  rw [hsplit, Nat.add_mul_div_left _ _ hp, Nat.div_eq_of_lt (Nat.div_lt_self hp (by decide)), Nat.zero_add]

/-- Over a loop-back wire sample `k` reads data bit `k` (R167). -/
theorem sampleLevel_frameLevel (b : Byte) {p k : Nat} (hp : 0 < p) (hk : k < 8) :
    sampleLevel (frameLevel b p) p k = b.getLsbD k := by
  rw [sampleLevel, frameLevel, sampleTick_div hp, getLsbD_buildFrame b (by omega), if_neg (by omega), if_neg (by omega),
    Nat.add_sub_cancel]

/-- Eight samples of a frame make its byte (R167). -/
theorem BitsRead.byte_of_frame {b acc : Byte} {p : Nat} (h : BitsRead (sampleLevel (frameLevel b p) p) 8 acc) (hp : 0 < p) :
    acc = b :=
  BitVec.eq_of_getLsbD_eq fun _ hk => (h.eight hk).trans (sampleLevel_frameLevel b hp hk)

/-- From data bit 7 on the line does not fall (R167). -/
theorem frameLevel_stays_high (b : Byte) {p i : Nat} (hlate : 8 ≤ i / p) (hin : (i + 1) / p ≤ 9)
    (h : frameLevel b p i = true) : frameLevel b p (i + 1) = true := by
  have hmono : i / p ≤ (i + 1) / p := Nat.div_le_div_right (Nat.le_succ i)
  by_cases hsame : (i + 1) / p = i / p
  · rwa [frameLevel, hsame]
  · have hstop : (i + 1) / p = 9 := by omega
    rw [frameLevel, hstop, getLsbD_buildFrame b (Nat.le_refl 9)]
    rfl

/-- Within a frame, loop-back ticks read the levels of the frame (R147, R167). -/
theorem loopTicks_eq_runTicks {b : Byte} {queued : List Byte} {count : Word} {p j n : Nat} {s : State}
    (h : SendsAt b queued count p j s) (hoe : s.txOE = true) (hlt : j + n < 10 * p) :
    loopTicks n s = runTicks (levelsFrom (frameLevel b p) j n) s := by
  induction n generalizing s j with
  | zero => rfl
  | succ n ih =>
    have hlevel : loopLevel s = frameLevel b p j := (loopLevel_of_driven hoe).trans h.line
    obtain ⟨t, ht, hsends⟩ := (h.driveRx (loopLevel s)).tick (loopLevel s) (by omega)
    have hoe' : t.txOE = true := (congrArg SetupView.txOE (tick_setupView ht)).trans hoe
    rw [loopTicks_succ n ht, levelsFrom_succ, ← hlevel, runTicks_cons _ ht]
    exact ih hsends hoe' (by omega)

/-! ## A quiet receiver -/

/-- The receiver is Idle with nothing pending, and a loop-back wire does not fall at the next tick. -/
structure Quiet (s : State) : Prop where
  idle : s.rxState = .idle
  no_edge : s.edgeFlag = false
  driven : s.txOE = true
  no_fall : s.rxPrev = true → s.txLine = true

/-- A loop-back tick of a quiet receiver changes only the level it keeps (R161, R162). -/
theorem Quiet.tick {s t : State} (h : Quiet s) (ht : tick (loopLevel s) (driveRx (loopLevel s) s) = .ok t) :
    t.rxState = .idle ∧ t.edgeFlag = false ∧ t.rxPrev = s.txLine ∧ setupView t = setupView s ∧ t.rxFifo = s.rxFifo := by
  rw [loopLevel_of_driven h.driven] at ht
  have hflag : (edgeLatch s.txLine (driveRx s.txLine s)).edgeFlag = false := by
    have hstays : fallingEdge s.txLine (driveRx s.txLine s) = false := by
      rw [Bool.eq_false_iff, ne_eq, fallingEdge_iff]
      rintro ⟨-, hprev, hlow⟩
      rw [h.no_fall hprev] at hlow
      cases hlow
    rw [edgeLatch_edgeFlag, hstays]
    exact h.no_edge
  have hnone : edgeTaken (edgeLatch s.txLine (driveRx s.txLine s)) = false := by
    rw [edgeTaken, hflag, Bool.and_false]
  have hm : rxMatch (advanceTimer (driveRx s.txLine s)) = false := by
    simp [rxMatch, rxArmed, h.idle]
  obtain ⟨-, hstate, -, -, -, hprev, hedge, hfifo, -, -⟩ := RxView.mk.inj (tick_rxView_of_silent ht hnone hm)
  have hsetup : setupView t = setupView (driveRx s.txLine s) := tick_setupView ht
  exact ⟨hstate.trans h.idle, hedge.trans hflag, hprev, hsetup, hfifo⟩

/-- After the byte is received, the rest of the frame leaves the receiver quiet (R167). -/
theorem SendsAt.loopTicks_quiet {b : Byte} {queued : List Byte} {count : Word} {p j n : Nat} {s : State}
    (h : SendsAt b queued count p j s) (hquiet : Quiet s) (hlate : 8 * p ≤ j) (hlt : j + n < 10 * p) :
    ∃ t, loopTicks n s = .next t ∧ SendsAt b queued count p (j + n) t ∧ Quiet t ∧ setupView t = setupView s ∧
      t.rxFifo = s.rxFifo := by
  induction n generalizing s j with
  | zero => exact ⟨s, rfl, h, hquiet, rfl, rfl⟩
  | succ n ih =>
    obtain ⟨u, hu, hsends⟩ := (h.driveRx (loopLevel s)).tick (loopLevel s) (by omega)
    obtain ⟨hidle, hflag, hprev, hsetup, hfifo⟩ := hquiet.tick hu
    have hdriven : u.txOE = true := (congrArg SetupView.txOE hsetup).trans hquiet.driven
    have hstays : u.rxPrev = true → u.txLine = true := by
      rw [hprev, h.line, hsends.line]
      refine frameLevel_stays_high b ((Nat.le_div_iff_mul_le h.period_pos).mpr hlate) ?_
      have hbits := hsends.bits
      omega
    obtain ⟨t, ht, hsends', hquiet', hsetup', hfifo'⟩ :=
      ih hsends ⟨hidle, hflag, hdriven, hstays⟩ (by omega) (by omega)
    refine ⟨t, (loopTicks_succ n hu).trans ht, ?_, hquiet', hsetup'.trans hsetup, hfifo'.trans hfifo⟩
    rwa [Nat.add_comm n 1, ← Nat.add_assoc]

end Sys2Proof.Machine
end

section
/-! PROOFS. Loop-back reception: each frame is received as the byte it carries, and the receiver is Idle again before the next one (42_receive R167, 20_memory R76). -/

namespace Sys2Proof.Machine

/-- Over a loop-back wire, the next tick loads a byte or stops the transmitter, and a quiet receiver reads a high line. -/
structure LoopReady (s : State) : Prop where
  ends : FrameEnds s
  quiet : Quiet s
  high : s.txLine = true

/-- The load leaves the sender at the start of its frame and the receiver armed at a falling line (R144, R167). -/
theorem LoopReady.tick_load {s : State} {b : Byte} {queued : List Byte} (h : LoopReady s)
    (hq : contents .tx s = b :: queued) :
    ∃ t, tick (loopLevel s) (driveRx (loopLevel s) s) = .ok t ∧
      SendsAt b queued (s.txCount + 1) s.ticksPerBit 0 t ∧ edgeArmed t = true ∧ t.rxPrev = true ∧
      setupView t = setupView s ∧ t.rxFifo = s.rxFifo := by
  obtain ⟨t, ht, hsends⟩ := (h.ends.driveRx (loopLevel s)).tick_sendsAt (loopLevel s) hq
  obtain ⟨hidle, -, hprev, hsetup, hfifo⟩ := h.quiet.tick ht
  have hconf : t.configured = true := by
    obtain ⟨-, ⟨htx, -⟩, -⟩ := inv_iff.mp hsends.inv
    exact htx.configured hsends.framing
  exact ⟨t, ht, hsends, edgeArmed_iff.mpr ⟨hconf, hidle⟩, hprev.trans h.high, hsetup, hfifo⟩

/-- From the start of a frame to the last sample of it (R165, R167). -/
theorem SendsAt.loopTicks_read {b : Byte} {queued : List Byte} {count : Word} {p : Nat} {s : State}
    (h : SendsAt b queued count p 0 s) (hoe : s.txOE = true) (harmed : edgeArmed s = true) (hprev : s.rxPrev = true) :
    ∃ t, loopTicks (sampleTick p 7 + 1) s = .next t ∧ SendsAt b queued count p (sampleTick p 7 + 1) t ∧
      HasRead s (frameLevel b p) t := by
  have hpos := h.period_pos
  have hlen : 0 + (sampleTick p 7 + 1) < 10 * p := by
    rw [sampleTick_seven]
    omega
  obtain ⟨t, ht, hread⟩ := runTicks_edge h.inv harmed hprev (frameLevel_zero b p)
  rw [h.period] at ht
  obtain ⟨t', ht', hsends⟩ := h.runTicks (levelsFrom (frameLevel b p) 0 (sampleTick p 7 + 1)) (by rwa [length_levelsFrom])
  cases ht.symm.trans ht'
  rw [length_levelsFrom, Nat.zero_add] at hsends
  exact ⟨t, (loopTicks_eq_runTicks h hoe hlen).trans ht, hsends, hread⟩

/-- The last sample leaves the receiver quiet: the line goes on from data bit 7 to the stop bit (R167). -/
theorem HasRead.quiet {b : Byte} {queued : List Byte} {count : Word} {p : Nat} {origin s : State}
    (h : HasRead origin (frameLevel b p) s) (hsends : SendsAt b queued count p (sampleTick p 7 + 1) s)
    (hoe : origin.txOE = true) (hperiod : origin.ticksPerBit = p) : Quiet s := by
  refine ⟨h.idle, h.no_edge, (congrArg SetupView.txOE h.setup).trans hoe, ?_⟩
  rw [h.prev, hsends.line, hperiod]
  refine frameLevel_stays_high b (Nat.le_of_eq (sampleTick_div hsends.period_pos 7).symm) ?_
  have hbits := hsends.bits
  omega

/-- The byte of a frame is received within it (R165, R167). -/
theorem LoopReady.receives {s : State} {b : Byte} {queued : List Byte} (h : LoopReady s)
    (hq : contents .tx s = b :: queued) (hroom : full .rx s = false) :
    ∃ t, loopTicks (8 * s.ticksPerBit + s.ticksPerBit / 2 + 2) s = .next t ∧
      SendsAt b queued (s.txCount + 1) s.ticksPerBit (8 * s.ticksPerBit + s.ticksPerBit / 2 + 1) t ∧ Quiet t ∧
      setupView t = setupView s ∧ contents .rx t = contents .rx s ++ [b] := by
  obtain ⟨u, hu, hstart, harmed, hprev, hsetup, hfifo⟩ := h.tick_load hq
  have hparams : u.params = s.params := congrArg SetupView.params hsetup
  have hdriven : u.txOE = true := (congrArg SetupView.txOE hsetup).trans h.quiet.driven
  obtain ⟨t, ht, hsends, hread⟩ := hstart.loopTicks_read hdriven harmed hprev
  have hbyte : t.accumulator = b := (hstart.period ▸ hread.bits).byte_of_frame hstart.period_pos
  have hbytes := hread.bytes
  rw [full_rx_congr hparams hfifo, contents_rx_congr hparams hfifo, hroom, hbyte] at hbytes
  rw [← sampleTick_seven]
  exact ⟨t, (loopTicks_succ _ hu).trans ht, hsends, hread.quiet hsends hdriven hstart.period,
    hread.setup.trans hsetup, hbytes⟩

/-- Settles O59: the next tick loads the frame, and its byte is received within it. -/
theorem loopBackDeliversTheByteSent : Obligations.LoopBackDeliversTheByteSent := by
  intro s b queued hinv hf hbits hq hleft hoe hline hidle _ hflag hroom
  have hready : LoopReady s := ⟨⟨hinv, hf, hbits, hleft⟩, ⟨hidle, hflag, hoe, fun _ => hline⟩, hline⟩
  obtain ⟨t, ht, -, hquiet, -, hbytes⟩ := hready.receives hq hroom
  exact ⟨t, ht, hquiet.idle, hquiet.no_edge, hbytes⟩

/-- The stop bit is high (R144, R146). -/
theorem SendsAt.line_high {b : Byte} {queued : List Byte} {count : Word} {p j : Nat} {s : State}
    (h : SendsAt b queued count p j s) (hend : s.bitsRemaining = 0) : s.txLine = true := by
  have hstop : j / p = 9 := by
    have hbits := h.bits
    rw [hend] at hbits
    simpa using hbits
  rw [h.line, hstop, getLsbD_buildFrame b (Nat.le_refl 9)]
  rfl

/-- A whole frame is received as its byte, and the next one finds the receiver as this one did (R167). -/
theorem LoopReady.frame {s : State} {b : Byte} {queued : List Byte} (h : LoopReady s)
    (hq : contents .tx s = b :: queued) (hroom : full .rx s = false) :
    ∃ t, loopTicks (10 * s.ticksPerBit) s = .next t ∧ LoopReady t ∧ setupView t = setupView s ∧
      contents .tx t = queued ∧ contents .rx t = contents .rx s ++ [b] := by
  obtain ⟨u, hu, hsent, hquiet, hsetup, hbytes⟩ := h.receives hq hroom
  have hpos := hsent.period_pos
  obtain ⟨n, hn⟩ := Nat.exists_eq_add_of_le
    (by omega : 8 * s.ticksPerBit + s.ticksPerBit / 2 + 2 ≤ 10 * s.ticksPerBit)
  obtain ⟨t, ht, hsent', hquiet', hsetup', hfifo⟩ := hsent.loopTicks_quiet (n := n) hquiet (by omega) (by omega)
  have hends : FrameEnds t := hsent'.frameEnds (by omega)
  rw [hn]
  exact ⟨t, loopTicks_trans hu ht, ⟨hends, hquiet', hsent'.line_high hends.bits⟩, hsetup'.trans hsetup, hsent'.queue,
    (contents_rx_congr (congrArg SetupView.params hsetup') hfifo).trans hbytes⟩

/-- With nothing more to send the transmitter stops, and the receiver has what it had (R145, R149). -/
theorem LoopReady.stops {s : State} (h : LoopReady s) (hq : contents .tx s = []) :
    ∃ t, loopTicks 1 s = .next t ∧ t.txState = .idle ∧ t.txLine = true ∧ contents .tx t = [] ∧
      contents .rx t = contents .rx s := by
  obtain ⟨t, ht, hview⟩ := (h.ends.driveRx (loopLevel s)).tick_idle (loopLevel s) hq
  obtain ⟨hstate, -, -, -, hline, hfifo, -⟩ := TxView.mk.inj hview
  obtain ⟨-, -, -, hsetup, hrxFifo⟩ := h.quiet.tick ht
  have hparams : t.params = s.params := congrArg SetupView.params hsetup
  exact ⟨t, loopTicks_succ 0 ht, hstate, hline, (contents_tx_congr hparams hfifo).trans hq,
    contents_rx_congr hparams hrxFifo⟩

/-- A FIFO that holds fewer bytes than its capacity has room (R67). -/
theorem LoopReady.room {s : State} (h : LoopReady s) (hlt : (contents .rx s).length < s.params.nRx - 1) :
    full .rx s = false := by
  obtain ⟨⟨-, hslots, -⟩, -, -, hindices, -⟩ := h.ends.inv
  rw [Bool.eq_false_iff, ne_eq, full_iff_contents (q := .rx) hslots hindices]
  exact Nat.ne_of_lt hlt

/-- Frame after frame, all queued bytes are received in order (R167, R76). -/
theorem LoopReady.delivers {s : State} {queued : List Byte} (h : LoopReady s) (hq : contents .tx s = queued)
    (hroom : (contents .rx s).length + queued.length ≤ s.params.nRx - 1) :
    ∃ t, loopTicks (10 * s.ticksPerBit * queued.length + 1) s = .next t ∧ t.txState = .idle ∧ t.txLine = true ∧
      contents .tx t = [] ∧ contents .rx t = contents .rx s ++ queued := by
  induction queued generalizing s with
  | nil =>
    rw [List.append_nil]
    exact h.stops hq
  | cons b queued ih =>
    rw [List.length_cons] at hroom
    obtain ⟨u, hu, hready, hsetup, hqueue, hbytes⟩ := h.frame hq (h.room (by omega))
    have hparams : u.params = s.params := congrArg SetupView.params hsetup
    have hperiod : u.ticksPerBit = s.ticksPerBit := congrArg SetupView.ticksPerBit hsetup
    have hroom' : (contents .rx u).length + queued.length ≤ u.params.nRx - 1 := by
      rw [hbytes, hparams, List.length_append, List.length_singleton]
      omega
    obtain ⟨t, ht, hstate, hline, hnone, hall⟩ := ih hready hqueue hroom'
    have hticks : 10 * s.ticksPerBit * (b :: queued).length + 1 =
        10 * s.ticksPerBit + (10 * u.ticksPerBit * queued.length + 1) := by
      rw [hperiod, List.length_cons, Nat.mul_succ]
      omega
    refine ⟨t, hticks ▸ loopTicks_trans hu ht, hstate, hline, hnone, ?_⟩
    rw [hall, hbytes, List.append_assoc, List.singleton_append]

/-- Settles O60: by induction on the queue, one frame of ten bit periods for each byte. -/
theorem loopBackDeliversEveryByteInOrder : Obligations.LoopBackDeliversEveryByteInOrder := by
  intro s hinv hf hbits _ hleft hoe hline hidle _ hflag hroom
  have hready : LoopReady s := ⟨⟨hinv, hf, hbits, hleft⟩, ⟨hidle, hflag, hoe, fun _ => hline⟩, hline⟩
  exact hready.delivers rfl hroom

end Sys2Proof.Machine
end

section
/-! PROOFS. A full TX FIFO: its engine loads the next byte, and so frees a slot, within ten bit periods (41_transmit R142 to R147, 43_host_api R183). -/

namespace Sys2Proof.Machine

/-- A running engine that loads the oldest of its queued bytes in `n` ticks: the ticks left to its next event, and a bit period
for each bit of the frame that has not gone out (R143, R144). -/
structure LoadsIn (b : Byte) (queued : List Byte) (n : Nat) (s : State) : Prop where
  inv : Inv s
  framing : s.txState = .framing
  queue : contents .tx s = b :: queued
  left : ticksUntil s.params s.timer s.txCmp + s.ticksPerBit * s.bitsRemaining.toNat = n

section
variable {b : Byte} {queued : List Byte} {n : Nat} {s : State}

theorem LoadsIn.driveRx (l : Bool) (h : LoadsIn b queued n s) : LoadsIn b queued n (driveRx l s) :=
  { h with inv := inv_driveRx l h.inv }

theorem LoadsIn.schedule (h : LoadsIn b queued n s) :
    1 ≤ ticksUntil s.params s.timer s.txCmp ∧ ticksUntil s.params s.timer s.txCmp ≤ s.ticksPerBit := by
  obtain ⟨-, ⟨-, hschedule⟩, -⟩ := inv_iff.mp h.inv
  exact hschedule h.framing

/-- At most nine bits are left of a frame, and the next event is at most a bit period away (R131, R146). -/
theorem LoadsIn.le_ten_periods (h : LoadsIn b queued n s) : n ≤ 10 * s.ticksPerBit := by
  obtain ⟨-, ⟨htx, -⟩, -⟩ := inv_iff.mp h.inv
  obtain ⟨-, hnear⟩ := h.schedule
  have hbits : s.bitsRemaining.toNat ≤ 9 := htx.frame.1
  have hframe := Nat.mul_le_mul_left s.ticksPerBit hbits
  have hleft := h.left
  omega

/-- A tick before the next TX event (R128). -/
theorem LoadsIn.tick_within (l : Bool) (h : LoadsIn b queued (n + 1) s)
    (hmore : 1 < ticksUntil s.params s.timer s.txCmp) : ∃ t, tick l s = .ok t ∧ LoadsIn b queued n t := by
  obtain ⟨t, ht, hinv, hview, hless⟩ := tick_before_match l h.inv h.framing hmore
  have hsetup := tick_setupView ht
  have hperiod : t.ticksPerBit = s.ticksPerBit := congrArg SetupView.ticksPerBit hsetup
  obtain ⟨hstate, -, -, hbits, -, hfifo, -⟩ := TxView.mk.inj hview
  refine ⟨t, ht, hinv, hstate.trans h.framing,
    (contents_tx_congr (congrArg SetupView.params hsetup) hfifo).trans h.queue, ?_⟩
  have hleft := h.left
  rw [hless, hperiod, hbits]
  omega

/-- A tick in which the next bit of the frame goes out (R143). -/
theorem LoadsIn.tick_shift (l : Bool) (h : LoadsIn b queued (n + 1) s)
    (hnow : ticksUntil s.params s.timer s.txCmp = 1) (hbits : 0 < s.bitsRemaining) :
    ∃ t, tick l s = .ok t ∧ LoadsIn b queued n t := by
  obtain ⟨t, ht⟩ := inv_tick_answers l h.inv
  have hm : txMatch (advanceTimer s) = true := (txMatch_advanceTimer_iff h.inv h.framing).mpr hnow.symm
  have hview : txView t = txView (txShift s) :=
    tick_txView_of_txPart (w := txShift (advanceTimer s)) ht (txPart_shift hm hbits)
  have hsetup := tick_setupView ht
  have hperiod : t.ticksPerBit = s.ticksPerBit := congrArg SetupView.ticksPerBit hsetup
  have hnext := ticksUntil_after_txEvent h.inv hm ht (congrArg TxView.txCmp hview)
  obtain ⟨hstate, -, -, hfewer, -, hfifo, -⟩ := TxView.mk.inj hview
  have hcount : s.bitsRemaining.toNat = t.bitsRemaining.toNat + 1 := by
    rw [hfewer, txShift_bitsRemaining]
    bv_omega
  refine ⟨t, ht, inv_tick h.inv ht, hstate.trans h.framing,
    (contents_tx_congr (congrArg SetupView.params hsetup) hfifo).trans h.queue, ?_⟩
  have hleft := h.left
  rw [hnow, hcount, Nat.mul_succ] at hleft
  rw [hnext, hperiod]
  omega

/-- With more than one tick to go a tick brings the load one tick nearer. -/
theorem LoadsIn.tick (l : Bool) (h : LoadsIn b queued (n + 1) s) (hn : 0 < n) :
    ∃ t, tick l s = .ok t ∧ LoadsIn b queued n t := by
  obtain ⟨hone, -⟩ := h.schedule
  by_cases hnow : ticksUntil s.params s.timer s.txCmp = 1
  · have hbits : 0 < s.bitsRemaining := by
      by_contra hnone
      have hleft := h.left
      have hzero : s.bitsRemaining.toNat = 0 := by bv_omega
      rw [hnow, hzero, Nat.mul_zero] at hleft
      omega
    exact h.tick_shift l hnow hbits
  · exact h.tick_within l (by omega)

/-- With one tick to go the frame has been sent (R142). -/
theorem LoadsIn.frameEnds (h : LoadsIn b queued 1 s) : FrameEnds s := by
  obtain ⟨hone, hnear⟩ := h.schedule
  have hleft := h.left
  have hnone : s.bitsRemaining.toNat = 0 := by
    by_contra hsome
    have hperiod := Nat.le_mul_of_pos_right s.ticksPerBit (Nat.pos_of_ne_zero hsome)
    omega
  exact ⟨h.inv, h.framing, BitVec.eq_of_toNat_eq hnone, by rw [hnone] at hleft; exact hleft⟩

/-- After that many ticks the oldest byte has left the FIFO (R144). -/
theorem LoadsIn.runTicks {levels : List Bool} (h : LoadsIn b queued levels.length s) :
    ∃ t, runTicks levels s = .next t ∧ contents .tx t = queued := by
  induction levels generalizing s with
  | nil =>
    obtain ⟨hone, -⟩ := h.schedule
    have hleft : _ = 0 := h.left
    omega
  | cons l ls ih =>
    cases ls with
    | nil =>
      obtain ⟨t, ht, hqueue, -⟩ := (h.frameEnds.driveRx l).tick_load l h.queue
      exact ⟨t, runTicks_cons [] ht, hqueue⟩
    | cons l' ls =>
      obtain ⟨u, hu, hloads⟩ := (h.driveRx l).tick l (Nat.succ_pos ls.length)
      obtain ⟨t, ht, hqueue⟩ := ih hloads
      exact ⟨t, (runTicks_cons _ hu).trans ht, hqueue⟩

end

/-- An engine whose FIFO is full is running, and has a byte to load (R42 item 1, R67). -/
theorem loadsIn_of_full {s : State} (hinv : Inv s) (hfull : full .tx s = true) :
    ∃ b queued n, LoadsIn b queued n s ∧ (b :: queued).length = s.params.nTx - 1 := by
  obtain ⟨hclock, ⟨htx, -⟩, -⟩ := inv_iff.mp hinv
  have hslots : 2 ≤ slots s .tx := hclock.legal.1
  have hindices : IndicesOk .tx s := ⟨htx.fifo.head_lt, htx.fifo.tail_lt⟩
  have hlen := (full_iff_contents hslots hindices).mp hfull
  have hne : contents .tx s ≠ [] := List.ne_nil_of_length_pos (by omega)
  have hf : s.txState = .framing := by
    cases hstate : s.txState with
    | framing => rfl
    | idle => exact absurd ((empty_iff_contents hindices).mp (htx.idle hstate).1) hne
  obtain ⟨b, queued, hq⟩ := List.exists_cons_of_ne_nil hne
  exact ⟨b, queued, _, ⟨hinv, hf, hq, rfl⟩, hq ▸ hlen⟩

/-- Settles O57: the load that the engine is on its way to frees a slot. -/
theorem holdEndsWithinTenBitPeriods : Obligations.HoldEndsWithinTenBitPeriods := by
  intro s levels hinv hfull hlen
  obtain ⟨b, queued, n, hloads, hcount⟩ := loadsIn_of_full hinv hfull
  have hn : n ≤ levels.length := hlen ▸ hloads.le_ten_periods
  have htake : (levels.take n).length = n := List.length_take_of_le hn
  obtain ⟨t, ht, hqueue⟩ := LoadsIn.runTicks (htake.symm ▸ hloads)
  obtain ⟨hinv', hsetup⟩ := inv_runTicks hinv ht
  have hparams : t.params = s.params := congrArg SetupView.params hsetup
  obtain ⟨⟨hslots, -⟩, -, hindices, -⟩ := hinv'
  refine ⟨n, t, hn, ht, ?_⟩
  rw [Bool.eq_false_iff, ne_eq, full_iff_contents (q := .tx) hslots hindices, hqueue, slots, hparams, ← hcount,
    List.length_cons]
  exact (Nat.succ_ne_self queued.length).symm

end Sys2Proof.Machine
end

section
/-! PROOFS. The host commands, each as one update of the state (43_host_api R181 to R188). -/

namespace Sys2Proof.Machine

/-! ## TXPUT -/

/-- Settles O12: the byte is stored at the head, and Kick is one update. -/
theorem txputPutsTheByteAndKicks : Obligations.TxputPutsTheByteAndKicks := by
  intro s b hc hroom hi
  have hput : exec (.txput b) s = .next (respond 0 (kick (setFifo .tx (s.txFifo.pushed s.params.nTx b) s))) :=
    execTxput_room b hc hroom hi
  rw [hput, kick_eq]
  rfl

/-- An unconfigured block raises NotConfigured before it looks at the FIFO (R189, R213). -/
theorem execTxput_unconfigured (b : Byte) {s : State} (hc : s.configured = false) :
    execTxput b s = .next (raise (.notConfigured b) s) := by
  simp [execTxput, hc]

/-- Settles O13: the outcome on an unconfigured block, and NotConfigured has code 2. -/
theorem txputBeforeConfigFaults : Obligations.TxputBeforeConfigFaults := by
  intro s b hc
  exact execTxput_unconfigured b hc

/-- A TXPUT that finds the FIFO full only records its word (R181). -/
theorem execTxput_full (b : Byte) {s : State} (hc : s.configured = true) (hf : full .tx s = true) :
    execTxput b s = .next (hold (txputWord b) s) := by
  simp [execTxput, hc, hf]

/-- The word of a TXPUT is held exactly while a configured block's TX FIFO is full (R181). -/
theorem holds_txputWord (b : Byte) (s : State) : holds (txputWord b) s = (s.configured && full .tx s) := by
  simp only [holds, decodeCmd_txputWord]

/-- Settles O14: the outcome on a full FIFO, and the condition of the hold. -/
theorem txputHoldsWhileTheFifoIsFull : Obligations.TxputHoldsWhileTheFifoIsFull := by
  intro s b hc hf
  exact ⟨execTxput_full b hc hf, by rw [holds_txputWord, hc, hf]; rfl⟩

/-! ## RXGET and RXCOUNT -/

/-- The state after an RXGET of a FIFO that is not empty (R185). -/
def rxTaken (s : State) : State :=
  respond (0x100 ||| (Memory.read s.rxFifo.mem s.rxFifo.tail).zeroExtend 32)
    (setFifo .rx (s.rxFifo.popped s.params.nRx) s)

theorem execRxget_some {s : State} (hne : empty .rx s = false) (hi : s.rxFifo.tail < s.params.nRx) :
    execRxget s = .next (rxTaken s) := by
  simp only [execRxget, fifoGet_some hne hi]
  rfl

theorem execRxget_empty {s : State} (he : empty .rx s = true) : execRxget s = .next (respond 0 s) := by
  simp only [execRxget, fifoGet_empty he]
  rfl

/-- Settles O15: the FIFO holds a byte, its slot in range, or it is empty. -/
theorem rxgetReturnsTheOldestByteOrEmpty : Obligations.RxgetReturnsTheOldestByteOrEmpty := by
  refine ⟨by decide, fun s => ⟨fun hne hi => ?_, fun he => ?_⟩⟩
  · exact execRxget_some (empty_eq_false_iff.mpr hne) hi
  · exact execRxget_empty (beq_iff_eq.mpr he)

/-- Settles O16: RXCOUNT is this response by definition. -/
theorem rxcountRespondsTheCount : Obligations.RxcountRespondsTheCount := ⟨by decide, fun _ => rfl⟩

/-! ## The counters -/

/-- `SEL` 3 to 15 names no counter (R91, R94). -/
theorem decodeCmd_rdcnt_reservedSel {w : Word} (hop : opField w = 5) (hsel : 3 ≤ selField w) :
    decodeCmd w = .error (.reservedSel (opField w) (selField w)) := by
  have hrdcnt : decodeCmd w = decodeRdcnt w := by simp [decodeCmd, hop]
  have hbeyond : 2 < selField w := by bv_omega
  rw [hrdcnt, decodeRdcnt, if_pos hbeyond]

/-- Settles O17: three words decode, the rest of `OP` 5 is reserved, and each command is its response by definition. -/
theorem rdcntRespondsItsCounter : Obligations.RdcntRespondsItsCounter :=
  ⟨by decide, by decide, by decide, fun _ hop hsel => ⟨_, decodeCmd_rdcnt_reservedSel hop hsel⟩,
    fun _ => ⟨rfl, rfl, rfl⟩⟩

/-- Settles O18: CLRCNT is this update by definition. -/
theorem clrcntZeroesAllThreeCounters : Obligations.ClrcntZeroesAllThreeCounters := ⟨by decide, fun _ => rfl⟩

/-! ## RDSTAT -/

theorem getLsbD_zextBit (b : Bool) (i : Nat) : (zextBit b).getLsbD i = (decide (i = 0) && b) := by
  cases b <;> simp [zextBit]

/-- A flag of the status word stands in its own bit (R188). -/
theorem getLsbD_zextBit_shiftLeft (b : Bool) (k : Nat) {i : Nat} (hi : i < 32) :
    (zextBit b <<< k).getLsbD i = (decide (i = k) && b) := by
  have hbit : i = k ↔ ¬ i < k ∧ i - k = 0 := by omega
  rw [BitVec.getLsbD_shiftLeft, getLsbD_zextBit, decide_eq_true hi, Bool.true_and, ← Bool.and_assoc,
    decide_eq_decide.mpr hbit, Bool.decide_and, decide_not]

/-- The flags of the status word, from bit 0 on (R188). -/
def statusFlags (s : State) : List Bool :=
  [s.configured, full .tx s, s.txState == .idle, empty .rx s, rxArmed s, s.txLine]

/-- Below bit 8 the status word is its flags, and zeroes (R188). -/
theorem getLsbD_status_low (s : State) {i : Nat} (hi : i < 8) :
    (status s).getLsbD i = (statusFlags s).getD i false := by
  have hwide : i < 32 := by omega
  simp only [status, BitVec.getLsbD_or, getLsbD_zextBit_shiftLeft _ _ hwide, getLsbD_zextBit, BitVec.getLsbD_shiftLeft, hi]
  interval_cases i <;> simp [statusFlags]

/-- From bit 8 on the status word is the fault code (R188). -/
theorem getLsbD_status_high (s : State) {i : Nat} (h : 8 ≤ i) (hi : i < 32) :
    (status s).getLsbD i = s.fault.getLsbD (i - 8) := by
  have hflag (k : Nat) (hk : k < 8) : decide (i = k) = false := decide_eq_false (by omega)
  have hcode : (s.fault.zeroExtend 32 <<< 8).getLsbD i = s.fault.getLsbD (i - 8) := by
    rw [BitVec.getLsbD_shiftLeft, BitVec.getLsbD_setWidth]
    simp [hi, h, (by omega : i - 8 < 32)]
  simp only [status, BitVec.getLsbD_or, getLsbD_zextBit_shiftLeft _ _ hi, getLsbD_zextBit, hcode]
  simp [hflag]

/-- Settles O19: the flags, the zeroes above them, the fault code, and the zeroes above it. -/
theorem rdstatRespondsTheStatusWord : Obligations.RdstatRespondsTheStatusWord := by
  refine ⟨by decide, fun s => ?_⟩
  have hlow {i : Nat} (hi : i < 8) := getLsbD_status_low s hi
  refine ⟨status s, rfl, hlow (by decide), hlow (by decide), hlow (by decide), hlow (by decide), hlow (by decide),
    hlow (by decide), ?_, ?_, ?_⟩
  all_goals
    refine BitVec.eq_of_getLsbD_eq fun i hi => ?_
    rw [BitVec.getLsbD_extractLsb', decide_eq_true hi, Bool.true_and]
  · rw [hlow (by omega)]
    interval_cases i <;> rfl
  · rw [getLsbD_status_high s (by omega) (by omega), Nat.add_sub_cancel_left]
  · rw [getLsbD_status_high s (by omega) (by omega), BitVec.getLsbD_of_ge _ _ (by omega)]
    exact BitVec.getLsbD_zero.symm

end Sys2Proof.Machine
end

section
/-! PROOFS. A step in which the Host moves: a scripted command, a pseudo-instruction, and a word that was held (30_encoding R96, R100, 43_host_api R180, R181, R191, R192). -/

namespace Sys2Proof.Machine

/-! ## Commands -/

/-- A word of a row is accepted by running its command (R96). -/
theorem accept_decoded {w : Word} {i : Instr} (h : decodeCmd w = .ok i) (s : State) :
    accept w s = hear s.env.job (exec i s) := by
  simp only [accept, h]

/-- A scripted `READSNAP` begins by running RXCOUNT (R191). -/
theorem step_readsnap {s : State} {rest : List Item} (hev : s.env.event = none) (hheld : s.held = none)
    (hjob : s.env.job = none) (hagenda : s.env.agenda = .readsnap :: rest) :
    step s = hear (some .snapCount)
      (exec .rxcount (setHost true (some .snapCount) (setAgenda rest (clearPorts s)))) := by
  rw [step, fetch_readsnap hev hheld hjob hagenda]
  rfl

/-- A scripted `REPORTSTATS` begins by running RDCNT TX (R192). -/
theorem step_reportstats {s : State} {rest : List Item} (hev : s.env.event = none) (hheld : s.held = none)
    (hjob : s.env.job = none) (hagenda : s.env.agenda = .reportstats :: rest) :
    step s = hear (some .reportTx)
      (exec .rdcntTx (setHost true (some .reportTx) (setAgenda rest (clearPorts s)))) := by
  rw [step, fetch_reportstats hev hheld hjob hagenda]
  rfl

/-- What the Host is in the middle of, if the test program began it, is scripted (R100). -/
theorem scripted_of_program {s : State} (h : s.env.program = true) : scripted s = true := by
  rw [scripted, h, Bool.true_or]

/-- A test program that has items left is scripted (R100). -/
theorem scripted_of_agenda {s : State} {item : Item} {rest : List Item} (h : s.env.agenda = item :: rest) :
    scripted s = true := by
  rw [scripted, h, List.isEmpty_cons, Bool.not_false, Bool.or_true]

/-- In the middle of a scripted pseudo-instruction the Host's next command is accepted (R100). -/
theorem step_job {s : State} {j : Job} (hev : s.env.event = none) (hheld : s.held = none)
    (hjob : s.env.job = some j) (hscripted : scripted s = true) : step s = accept (jobWord j) (clearPorts s) := by
  rw [step, fetch_job hev hheld hjob hscripted, perform_offer]

/-- Settles O34: each form of a Host's turn runs the command its word decodes to, and the Host hears the response. -/
theorem stepRunsTheDecodedCommand : Obligations.StepRunsTheDecodedCommand := by
  intro s hev hheld s0
  refine ⟨fun w rest i hjob hagenda hd => ?_, fun rest hjob hagenda => ?_, fun rest hjob hagenda => ?_,
    fun j i hjob hprogram hd => ?_⟩
  · rw [step_cmd hev hheld hjob hagenda, accept_decoded hd]
    simp only [setHost, setAgenda, clearPorts, hear, hjob, s0]
  · rw [step_readsnap hev hheld hjob hagenda]
    simp only [setHost, setAgenda, clearPorts, s0]
  · rw [step_reportstats hev hheld hjob hagenda]
    simp only [setHost, setAgenda, clearPorts, s0]
  · rw [step_job hev hheld hjob (scripted_of_program hprogram), accept_decoded hd, clearPorts_env, hjob]
    rfl

/-! ## A held word -/

/-- A held word of a test program is tried: the step is a tick while the hold lasts, and else accepts the word (R181). -/
theorem step_held {s : State} {w : Word} (hev : s.env.event = none) (hheld : s.held = some w)
    (hscripted : scripted s = true) (hreset : ∀ rest, s.env.agenda ≠ .reset :: rest) :
    step s = if holds w s then hear s.env.job (exec .tick (supplyLevel (clearPorts s)))
      else accept w (release (clearPorts s)) := by
  rw [step, fetch_held hev hheld hscripted hreset, perform_retry]
  rfl

/-- Settles O37: the held word is scripted, and no reset clock comes first. -/
theorem heldWordWaitsOnTicksAndThenRuns : Obligations.HeldWordWaitsOnTicksAndThenRuns := by
  intro s w i hev hheld hd hagenda
  obtain ⟨hscripted, hreset⟩ : scripted s = true ∧ ∀ rest, s.env.agenda ≠ .reset :: rest := by
    rcases hagenda with ⟨hnil, hprogram⟩ | ⟨item, rest, hcons, hitem⟩
    · exact ⟨scripted_of_program hprogram, fun rest => by simp [hnil]⟩
    · exact ⟨scripted_of_agenda hcons, fun rest' => by simp [hcons, hitem]⟩
  have hstep := step_held hev hheld hscripted hreset
  refine ⟨fun hholds => ?_, fun hfree => ?_⟩
  · rw [hstep, if_pos hholds]
    rfl
  · rw [hstep, if_neg (by simp [hfree]), accept_decoded hd]
    rfl

end Sys2Proof.Machine
end

section
/-! PROOFS. READSNAP: each RXGET of the drain takes the oldest byte to the buffer, and a tick between two of them only adds bytes behind those counted (43_host_api R191). -/

namespace Sys2Proof.Machine

theorem inv_event {s : State} (h : Inv s) : s.env.event = none := by
  obtain ⟨-, -, -, hports⟩ := inv_iff.mp h
  exact hports.event

theorem inv_indicesOk_rx {s : State} (h : Inv s) : IndicesOk .rx s := by
  obtain ⟨-, -, -, hindices, -⟩ := h
  exact hindices

/-! ## One byte of the drain -/

/-- The byte of an RXGET's response is the one it removed (R97, R185). -/
theorem setWidth_rxgetResponse (b : Byte) : ((0x100 : Word) ||| b.zeroExtend 32).setWidth 8 = b := by
  revert b
  decide

/-- A listening Host acts on the response (R180). -/
theorem listen_of_rsp {s : State} {w : Word} (j : Job) (h : s.rsp = some w) : listen j s = respondedTo j w s := by
  simp only [listen, h]

/-- A step that gives no response leaves the Host where it is (R180). -/
theorem listen_silent {s : State} (j : Job) (h : s.rsp = none) : listen j s = s := by
  simp only [listen, h]

/-- An RXGET takes the oldest of the bytes (R185, R76). -/
theorem execRxget_oldest {s : State} {c : Byte} {bytes : List Byte} (hi : IndicesOk .rx s)
    (hq : contents .rx s = c :: bytes) :
    execRxget s = .next (rxTaken s) ∧ (rxTaken s).rsp = some (0x100 ||| c.zeroExtend 32) ∧
      contents .rx (rxTaken s) = bytes := by
  have hne : empty .rx s = false := by
    rw [Bool.eq_false_iff, ne_eq, empty_iff_contents hi, hq]
    exact List.cons_ne_nil c bytes
  obtain ⟨hc, hbytes⟩ := List.cons.inj (hq.symm.trans (contents_popped hi hne))
  exact ⟨execRxget_some hne hi.2, by rw [hc]; rfl, hbytes.symm⟩

/-- In the drain the Host's RXGET moves the oldest byte to the buffer (R191). -/
theorem accept_snapGet {s : State} {got : List Byte} {more : Nat} {c : Byte} {bytes : List Byte} (hi : IndicesOk .rx s)
    (hjob : s.env.job = some (.snapGet got more)) (hq : contents .rx s = c :: bytes) :
    accept (jobWord (.snapGet got more)) s = .next (byteHeard (got ++ [c]) more (rxTaken s)) ∧
      contents .rx (rxTaken s) = bytes := by
  obtain ⟨hx, hrsp, hbytes⟩ := execRxget_oldest hi hq
  have hx : exec .rxget s = .next (rxTaken s) := hx
  have hd : decodeCmd (jobWord (.snapGet got more)) = .ok .rxget := rxgetReturnsTheOldestByteOrEmpty.1
  have hlisten : listen (.snapGet got more) (rxTaken s) = byteHeard (got ++ [c]) more (rxTaken s) := by
    rw [listen_of_rsp _ hrsp, respondedTo, setWidth_rxgetResponse]
  refine ⟨?_, hbytes⟩
  rw [accept_decoded hd, hjob, hx, ← hlisten]
  rfl

/-! ## The drain of a test program -/

/-- A test program's `READSNAP` is under way: `bytes` wait, and `rest` of the program and the counter stand as they did when it
began. -/
structure Draining (bytes : List Byte) (rest : List Item) (timer : Nat) (s : State) : Prop where
  program : s.env.program = true
  held : s.held = none
  bytes : contents .rx s = bytes
  agenda : s.env.agenda = rest
  timer : s.timer = timer

theorem Draining.setJob {bytes : List Byte} {rest : List Item} {timer : Nat} {s : State} (job : Option Job)
    (h : Draining bytes rest timer s) : Draining bytes rest timer (setJob job s) :=
  ⟨h.program, h.held, h.bytes, h.agenda, h.timer⟩

/-- What a `READSNAP` leaves (R191): the bytes in the buffer, an empty RX FIFO, and the Host in the middle of nothing; the rest of
the program and the counter stand as they did. -/
structure Drained (buffer : List Byte) (any : Bool) (rest : List Item) (timer : Nat) (s : State) : Prop where
  job : s.env.job = none
  snap : s.env.snap = some { buffer := buffer ++ [0], any := any }
  empty : contents .rx s = []
  agenda : s.env.agenda = rest
  timer : s.timer = timer

/-- A `READSNAP` that has read all bytes is over (R191). -/
theorem Draining.endSnap {rest : List Item} {timer : Nat} {s : State} (got : List Byte) (h : Draining [] rest timer s) :
    Drained got (decide (got ≠ [])) rest timer (endSnap got s) := ⟨rfl, rfl, h.bytes, h.agenda, h.timer⟩

/-- In a scripted drain every step is the Host's RXGET (R100, R191). -/
theorem step_snapGet {s : State} {got : List Byte} {more : Nat} {c : Byte} {bytes : List Byte} {rest : List Item}
    {timer : Nat} (hinv : Inv s) (h : Draining (c :: bytes) rest timer s) (hjob : s.env.job = some (.snapGet got more)) :
    ∃ u, step s = .next (byteHeard (got ++ [c]) more u) ∧ Draining bytes rest timer u := by
  obtain ⟨hstep, hbytes⟩ := accept_snapGet (s := clearPorts s) (inv_indicesOk_rx hinv) hjob h.bytes
  rw [← step_job (inv_event hinv) h.held hjob (scripted_of_program h.program)] at hstep
  refine ⟨_, hstep, ?_, ?_, hbytes, ?_, ?_⟩
  · simpa [rxTaken] using h.program
  · simpa [rxTaken] using h.held
  · simpa [rxTaken] using h.agenda
  · simpa [rxTaken] using h.timer

theorem run_succ {s t : State} (n : Nat) (h : step s = .next t) :
    Host.Core.run core (n + 1) s = Host.Core.run core n t := by
  have h : core.step s = .next t := h
  simp only [Host.Core.run, h]

/-- One step for each byte drains the RX FIFO (R191). -/
theorem run_snapGet {s : State} {got : List Byte} {more : Nat} {bytes : List Byte} {rest : List Item} {timer : Nat}
    (hinv : Inv s) (h : Draining bytes rest timer s) (hjob : s.env.job = some (.snapGet got more))
    (hlen : bytes.length = more + 1) :
    ∃ t, Host.Core.run core (more + 1) s = .next t ∧ Drained (got ++ bytes) true rest timer t := by
  induction more generalizing s got bytes with
  | zero =>
    obtain ⟨c, rfl⟩ := List.length_eq_one_iff.mp hlen
    obtain ⟨u, hstep, hu⟩ := step_snapGet hinv h hjob
    have hdrained := hu.endSnap (got ++ [c])
    rw [decide_eq_true (List.concat_ne_nil c got)] at hdrained
    exact ⟨_, run_succ 0 hstep, hdrained⟩
  | succ more ih =>
    obtain ⟨c, bytes, rfl⟩ := List.exists_cons_of_length_eq_add_one hlen
    rw [List.length_cons, Nat.add_right_cancel_iff] at hlen
    obtain ⟨u, hstep, hu⟩ := step_snapGet hinv h hjob
    have hinv' : Inv (setJob (some (.snapGet (got ++ [c]) more)) u) := everyStepKeepsTheInvariants s _ hinv hstep
    obtain ⟨t, ht, hdrained⟩ := ih hinv' (hu.setJob _) rfl hlen
    rw [← List.append_cons] at hdrained
    exact ⟨t, (run_succ _ hstep).trans ht, hdrained⟩

/-- RXCOUNT responds a count of fewer than `2^32` bytes as it is (R97, R184). -/
theorem execRxcount_of_lt {s : State} (h : fifoCount .rx s < 2 ^ 32) :
    ∃ w : Word, execRxcount s = .next (respond w s) ∧ w.toNat = fifoCount .rx s := by
  refine ⟨_, rfl, ?_⟩
  rw [countResponse, if_pos h, BitVec.toNat_ofNat, Nat.mod_eq_of_lt h]

/-- A scripted `READSNAP` hears how many bytes wait (R184, R191). -/
theorem step_readsnap_count {s : State} {rest : List Item} (hev : s.env.event = none) (hheld : s.held = none)
    (hjob : s.env.job = none) (hagenda : s.env.agenda = .readsnap :: rest) (hcount : fifoCount .rx s < 2 ^ 32) :
    ∃ u, step s = .next (countHeard (fifoCount .rx s) u) ∧ Draining (contents .rx s) rest s.timer u := by
  have hstep := step_readsnap hev hheld hjob hagenda
  generalize hu : setHost true (some .snapCount) (setAgenda rest (clearPorts s)) = u at hstep
  have hdraining : Draining (contents .rx s) rest s.timer u := by
    subst hu
    exact ⟨rfl, hheld, contents_rx_congr rfl rfl, rfl, rfl⟩
  have hcount' : fifoCount .rx u = fifoCount .rx s := by rw [← length_contents, hdraining.bytes, length_contents]
  obtain ⟨w, hx, hw⟩ := execRxcount_of_lt (hcount' ▸ hcount)
  have hx : exec .rxcount u = .next (respond w u) := hx
  refine ⟨respond w u, ?_, hdraining.program, hdraining.held, hdraining.bytes, hdraining.agenda, hdraining.timer⟩
  rw [hstep, hx, hear, andThen, listen_of_rsp .snapCount (respond_rsp w u), respondedTo, hw, hcount']

/-- A scripted `READSNAP` drains every byte that waited (R191). -/
theorem run_readsnap {s : State} {rest : List Item} (hinv : Inv s) (hslots : s.params.nRx ≤ 2 ^ 32)
    (hheld : s.held = none) (hjob : s.env.job = none) (hagenda : s.env.agenda = .readsnap :: rest) :
    ∃ t, Host.Core.run core (fifoCount .rx s + 1) s = .next t ∧
      Drained (contents .rx s) (decide (contents .rx s ≠ [])) rest s.timer t := by
  have hcount : fifoCount .rx s < 2 ^ 32 := Nat.lt_of_lt_of_le (fifoCount_lt (inv_indicesOk_rx hinv)) hslots
  obtain ⟨u, hstep, hu⟩ := step_readsnap_count (inv_event hinv) hheld hjob hagenda hcount
  have hlen := length_contents .rx s
  cases hn : fifoCount .rx s with
  | zero =>
    rw [hn] at hstep hlen
    rw [List.length_eq_zero_iff.mp hlen] at hu ⊢
    exact ⟨_, run_succ 0 hstep, hu.endSnap []⟩
  | succ more =>
    rw [hn] at hstep hlen
    have hinv' : Inv (setJob (some (.snapGet [] more)) u) := everyStepKeepsTheInvariants s _ hinv hstep
    obtain ⟨t, ht, hdrained⟩ := run_snapGet hinv' (hu.setJob _) rfl hlen
    rw [decide_eq_true (List.ne_nil_of_length_eq_add_one hlen)]
    exact ⟨t, (run_succ _ hstep).trans ht, hdrained⟩

/-! ## The drain in any interleaving -/

/-- A tick adds at most one byte, behind the others (R164, R76). -/
theorem tick_contents_rx {l : Bool} {s t : State} (hinv : Inv s) (h : tick l s = .ok t) :
    ∃ late : List Byte, late.length ≤ 1 ∧ contents .rx t = contents .rx s ++ late := by
  obtain ⟨-, -, ⟨hrx, -⟩, -⟩ := inv_iff.mp hinv
  obtain ⟨u, hr, ht⟩ := tick_cases h
  have hsame : contents .rx t = contents .rx u :=
    contents_rx_congr (congrArg SetupView.params (txPart_setupView ht)) (congrArg RxView.rxFifo (txPart_rxView ht))
  rw [hsame]
  have hnone : ∃ late : List Byte, late.length ≤ 1 ∧ contents .rx s = contents .rx s ++ late :=
    ⟨[], Nat.zero_le 1, (List.append_nil _).symm⟩
  rcases rxPart_cases hr with ⟨-, rfl⟩ | ⟨-, -, hx⟩ | ⟨-, -, rfl⟩
  · exact hnone
  · rcases rxSample_cases hx with ⟨-, rfl⟩ | ⟨-, -, rfl⟩ | ⟨-, hroom, -, rfl⟩
    · exact hnone
    · exact hnone
    · exact ⟨[_], Nat.le_refl 1, contents_pushed (q := .rx) (s := s) _ (inv_indicesOk_rx hinv) hroom hrx.fifo.wf⟩
  · exact hnone

/-- In the middle of a pseudo-instruction the Host goes on with it, the Tick agent moves, or a reset clock comes, whether or
not a free value has been drawn for the turn (R9, R100). -/
theorem fetch_job_cases {s : State} {j : Job} (hev : s.env.event = none) (hheld : s.held = none)
    (hjob : s.env.job = some j) :
    ∃ u, (u = clearPorts s ∨ u = countDraw (clearPorts s)) ∧
      (fetch s = offer (jobWord j) u ∨ fetch s = tickTurn u ∨ fetch s = (.reset, u)) := by
  have hturn : fetch s = jobTurn j (clearPorts s) := by simp only [fetch, hev, hheld, hjob]
  rw [hturn, jobTurn]
  split
  · exact ⟨_, .inl rfl, .inl rfl⟩
  · refine ⟨_, .inr rfl, ?_⟩
    unfold freeTurn
    cases Config.freeTurn (clearPorts s).env.draws with
    | host o => exact .inl rfl
    | tick => exact .inr (.inl rfl)
    | reset => exact .inr (.inr rfl)

/-- A Host that hears a tick stays where it is, since a tick gives no response (R180). -/
theorem hear_tick {job : Option Job} {s t : State} (hrsp : s.rsp = none) (h : hear job (exec .tick s) = .next t) :
    tick s.rxIn s = .ok t := by
  cases job with
  | none => exact toOutcome_eq_next h
  | some j =>
    cases hx : tick s.rxIn s with
    | error f =>
      have hx : exec .tick s = .fault f := congrArg toOutcome hx
      rw [hx] at h
      cases h
    | ok u =>
      have hsilent : u.rsp = none := (congrArg State.rsp (tick_eq_withTx_withRx hx)).trans hrsp
      have hx : exec .tick s = .next u := congrArg toOutcome hx
      rw [hx] at h
      cases h
      rw [listen_silent j hsilent]

/-- A step in the middle of the drain takes a byte to the buffer, or is a tick, after which the Host stands where it stood
(R191). -/
theorem step_snapGet_cases {s t : State} {got : List Byte} {more : Nat} {c : Byte} {bytes : List Byte} (hinv : Inv s)
    (hheld : s.held = none) (hjob : s.env.job = some (.snapGet got more)) (hq : contents .rx s = c :: bytes)
    (h : step s = .next t) (hreset : ¬ TakesReset s) :
    (∃ u, t = byteHeard (got ++ [c]) more u ∧ contents .rx u = bytes) ∨
    (t.env.job = some (.snapGet got more) ∧
      ∃ late : List Byte, late.length ≤ 1 ∧ contents .rx t = contents .rx s ++ late) := by
  obtain ⟨u, hu, hfetch⟩ := fetch_job_cases (inv_event hinv) hheld hjob
  have hujob : u.env.job = some (.snapGet got more) := by rcases hu with rfl | rfl <;> exact hjob
  have hursp : u.rsp = none := by rcases hu with rfl | rfl <;> rfl
  have hubytes : contents .rx u = contents .rx s := by rcases hu with rfl | rfl <;> rfl
  have huindices : IndicesOk .rx u := by rcases hu with rfl | rfl <;> exact inv_indicesOk_rx hinv
  rcases hfetch with hoffer | htick | hrst
  · obtain ⟨haccept, hrest⟩ := accept_snapGet huindices hujob (hubytes.trans hq)
    rw [step, hoffer, perform_offer, haccept] at h
    cases h
    exact .inl ⟨rxTaken u, rfl, hrest⟩
  · obtain ⟨l, e, hlevel, -⟩ := supplyLevel_spec u
    have hinv' : Inv (supplyLevel u) := by
      have hinvFetch := inv_fetch hinv
      rwa [htick] at hinvFetch
    rw [step, htick, perform_tickTurn] at h
    have ht := hear_tick (by rw [hlevel]; exact hursp) h
    obtain ⟨late, hlate, hbytes⟩ := tick_contents_rx hinv' ht
    have henv : t.env = (supplyLevel u).env := congrArg EventFrame.env (tick_eventFrame ht)
    have hsame : contents .rx (supplyLevel u) = contents .rx u := by rw [hlevel]; rfl
    exact .inr ⟨by rw [henv, supplyLevel_job, hujob], late, hlate, by rw [hbytes, hsame, hubytes]⟩
  · exact absurd (congrArg Prod.fst hrst) hreset

/-- Settles O50: a scripted drain is the count and an induction on the bytes counted; in any interleaving a step of the drain is
the Host's RXGET or a tick. -/
theorem readsnapDrainsWhatIsWaiting : Obligations.ReadsnapDrainsWhatIsWaiting := by
  refine ⟨fun s rest hinv hslots hheld hjob hagenda => ?_, fun s t got more hinv hheld hjob hmore hstep hreset => ?_⟩
  · obtain ⟨t, ht, hdrained⟩ := run_readsnap hinv hslots hheld hjob hagenda
    exact ⟨t, ht, hdrained.agenda, hdrained.job, hdrained.snap, hdrained.empty, hdrained.timer⟩
  · rw [← length_contents] at hmore
    obtain ⟨c, bytes, hq⟩ := List.exists_cons_of_length_pos (Nat.zero_lt_of_lt hmore)
    rcases step_snapGet_cases hinv hheld hjob hq hstep hreset with ⟨u, rfl, hbytes⟩ | ⟨htjob, late, hlate, hbytes⟩
    · cases more with
      | zero =>
        refine .inr ⟨rfl, ?_, by rw [hq]; exact hbytes⟩
        rw [hq, List.take_one, ← decide_eq_true (List.concat_ne_nil c got)]
        rfl
      | succ more =>
        have hbytes : contents .rx (byteHeard (got ++ [c]) (more + 1) u) = bytes := hbytes
        rw [hbytes, hq]
        rw [hq, List.length_cons, Nat.add_lt_add_iff_right] at hmore
        refine .inl ⟨got ++ [c], more, [], rfl, ?_, by simp, by simp, by simp⟩
        rwa [← length_contents, hbytes]
    · refine .inl ⟨got, more, late, htjob, ?_, hlate, ?_, ?_⟩
      · rw [← length_contents, hbytes, List.length_append]
        omega
      · rw [hbytes, List.take_append_of_le_length hmore]
      · rw [hbytes, List.drop_append_of_le_length hmore]

end Sys2Proof.Machine
end

section
/-! PROOFS. A reset clock: it is not a clock in which the block is ready, and it restores the block that was fetched for it (70_reset_and_hazards R240). -/

namespace Sys2Proof.Machine

/-- While `rst = 1` the block is ready for no word (R22, R240). -/
theorem cmdReadyPort_of_takesReset {s : State} (w : Word) (h : TakesReset s) : cmdReadyPort w s = false := by
  have hrst : rstPort s = true := decide_eq_true h
  rw [cmdReadyPort, hrst, Bool.not_true, Bool.false_and]

/-- A step that takes a reset clock restores the block, and runs no instruction (R240). -/
theorem step_of_takesReset {s : State} (h : TakesReset s) : step s = .next (resetBlock (fetch s).2) := by
  have hfetch : fetch s = (.reset, (fetch s).2) := Prod.ext h rfl
  rw [step, hfetch]
  rfl

/-- Fetching writes no parameter (R10). -/
@[simp] theorem fetch_params (s : State) : (fetch s).2.params = s.params :=
  congrArg SetupView.params (setupView_fetch s)

/-- Fetching a reset clock supplies no level and accepts no held word (log 12). -/
theorem fetch_keeps_of_takesReset {s : State} (h : TakesReset s) :
    (fetch s).2.rxIn = s.rxIn ∧ (fetch s).2.held = s.held := by
  obtain ⟨-, -, -, hkeeps⟩ := fetch_ok s
  exact hkeeps h

/-- Settles O6: the step is a reset of the fetched state, whose parameters, level and held word are those before it. -/
theorem resetClockRestoresTheBlock : Obligations.ResetClockRestoresTheBlock := by
  intro s h
  obtain ⟨hrxIn, hheld⟩ := fetch_keeps_of_takesReset h
  refine ⟨fun w => cmdReadyPort_of_takesReset w h, ?_⟩
  rw [step_of_takesReset h, resetBlock, fetch_params, hrxIn, hheld]

end Sys2Proof.Machine
end
